-- ==== Sys2Proof/Word.lean ====
section
/-! DEFINITION. The word types of the block (rules R5, R7, R51): a word is 32 bits, a byte 8 bits, a command word 16 bits. -/

namespace Sys2Proof

/-- A word: 32 bits, unsigned, additions modulo 2^32 (R5, R7, R79). -/
abbrev Word := BitVec 32

/-- A byte: 8 bits, unsigned (R7). -/
abbrev Byte := BitVec 8

/-- A command word `cmd[15:0]` (R51). -/
abbrev Cmd := BitVec 16

end Sys2Proof
end

