-- ==== Sys2Proof/Syntax.lean ====
section
/-! DEFINITION. The eleven commands of the opcode map (rule R56) and their operands (rules R52 to R55, R62). -/

namespace Sys2Proof

/-- One constructor per row of the opcode table. `ctx` is the context index, `idx` a digest index, each an unsigned number
(R62); `t` and `sh` are the construction flags `truncated` and `sharedScratch` (R54); `n` is the counter selector (R55). -/
inductive Instr where
  /-- R87: no effect -/
  | nop
  /-- R88: construct a plain hash engine -/
  | init (ctx : Nat) (t sh : Bool)
  /-- R100: begin the construction of an HMAC engine -/
  | hinit (ctx : Nat) (t sh : Bool)
  /-- R101: one key byte -/
  | keyb (ctx : Nat) (b : Byte)
  /-- R102: finish the construction of an HMAC engine -/
  | keyend (ctx : Nat)
  /-- R89: one message byte -/
  | pushb (ctx : Nat) (b : Byte)
  /-- R90: finalize -/
  | final (ctx : Nat)
  /-- R94: read a digest byte -/
  | rdb (ctx : Nat) (idx : Nat)
  /-- R95: read a digest word -/
  | rdw (ctx : Nat) (idx : Nat)
  /-- R96: read the status word -/
  | rdst (ctx : Nat)
  /-- R97: read a byte counter -/
  | rdcnt (ctx : Nat) (n : Bool)
  deriving DecidableEq, Repr

/-- The context a command names; `NOP` names none (R59 step 3, R66). -/
def Instr.ctx? : Instr → Option Nat
  | .nop => none
  | .init c _ _ => some c
  | .hinit c _ _ => some c
  | .keyb c _ => some c
  | .keyend c => some c
  | .pushb c _ => some c
  | .final c => some c
  | .rdb c _ => some c
  | .rdw c _ => some c
  | .rdst c => some c
  | .rdcnt c _ => some c

end Sys2Proof
end

