-- ==== Sys2Proof/WellFormed.lean ====
section
/-! DEFINITION. When a command fits its encoding (rules R51, R55, R62): the context index in 4 bits, the digest byte index in
5 bits, the digest word index in 3 bits. The other operands fit by their types. -/

namespace Sys2Proof

/-- The context index fits the 4-bit field `cmd[11:8]` (R51). -/
def ctxFits (c : Nat) : Bool := decide (c < 16)

/-- The digest byte index fits the 5-bit field of format I5 (R55). -/
def byteIdxFits (i : Nat) : Bool := decide (i < 32)

/-- The digest word index fits the 3-bit field of format I3 (R55). -/
def wordIdxFits (j : Nat) : Bool := decide (j < 8)

/-- The command can be spelled as a command word. Whether the context EXISTS (R66) is not asked here: it depends on the block. -/
def Instr.wf : Instr → Bool
  | .nop => true
  | .init c _ _ => ctxFits c
  | .hinit c _ _ => ctxFits c
  | .keyb c _ => ctxFits c
  | .keyend c => ctxFits c
  | .pushb c _ => ctxFits c
  | .final c => ctxFits c
  | .rdb c i => ctxFits c && byteIdxFits i
  | .rdw c j => ctxFits c && wordIdxFits j
  | .rdst c => ctxFits c
  | .rdcnt c _ => ctxFits c

end Sys2Proof
end

