-- ==== Sys2Proof/Decode.lean ====
section
/-! DEFINITION. The decoder (rule R59 steps 1 and 2), total on every 16-bit word and rejecting by name, and the encoder (rules
R51 to R56, R64). The checks of R59 that read the state (steps 4 to 6) are in Machine/Operands.lean. -/

namespace Sys2Proof

/-- Why the static checks refuse a word: the causes E1 and E2 of R123. -/
inductive DecodeError where
  /-- E1: `op` is 0xB to 0xF (R59 step 1) -/
  | reservedOpcode
  /-- E2: a bit the row fixes has the other value (R59 step 2) -/
  | reservedBits
  deriving DecidableEq, Repr

/-- One row of the opcode map of R56. -/
structure OpcodeRow where
  mnemonic : String
  pattern : Cmd
  mask : Cmd
  deriving DecidableEq, Repr

/-- The opcode map of R56, in the order of `op`: the row of opcode `op` is entry number `op`. -/
def opcodeRows : List OpcodeRow :=
  [⟨"NOP", 0x0000#16, 0xFFFF#16⟩,
   ⟨"INIT", 0x1000#16, 0xF0FC#16⟩,
   ⟨"HINIT", 0x2000#16, 0xF0FC#16⟩,
   ⟨"KEYB", 0x3000#16, 0xF000#16⟩,
   ⟨"KEYEND", 0x4000#16, 0xF0FF#16⟩,
   ⟨"PUSHB", 0x5000#16, 0xF000#16⟩,
   ⟨"FINAL", 0x6000#16, 0xF0FF#16⟩,
   ⟨"RDB", 0x7000#16, 0xF0E0#16⟩,
   ⟨"RDW", 0x8000#16, 0xF0F8#16⟩,
   ⟨"RDST", 0x9000#16, 0xF0FF#16⟩,
   ⟨"RDCNT", 0xA000#16, 0xF0FE#16⟩]

/-- A word spells the command of a row exactly when `(w & mask) = match` (R56). -/
def OpcodeRow.spells (r : OpcodeRow) (w : Cmd) : Bool := decide (w &&& r.mask = r.pattern)

/-- `op = w[15:12]` (R51). -/
def opField (w : Cmd) : Nat := (w.extractLsb' 12 4).toNat

/-- `ctx = w[11:8]` (R51). -/
def ctxField (w : Cmd) : Nat := (w.extractLsb' 8 4).toNat

/-- `arg = w[7:0]` (R51). -/
def argField (w : Cmd) : Byte := w.extractLsb' 0 8

/-- `t = arg[0]` of format C, and the counter selector `n = arg[0]` of format I1 (R54, R55). -/
def lowFlag (w : Cmd) : Bool := w.getLsbD 0

/-- `s = arg[1]` of format C (R54). -/
def sharedFlag (w : Cmd) : Bool := w.getLsbD 1

/-- `idx = arg[4:0]` of format I5 (R55). -/
def byteIdxField (w : Cmd) : Nat := (w.extractLsb' 0 5).toNat

/-- `idx = arg[2:0]` of format I3 (R55). -/
def wordIdxField (w : Cmd) : Nat := (w.extractLsb' 0 3).toNat

/-- The command of opcode `op`, with the operands its format gives it (R52 to R56). There is none for a reserved opcode. -/
def operandsOf (op : Nat) (w : Cmd) : Option Instr :=
  match op with
  | 0x0 => some .nop
  | 0x1 => some (.init (ctxField w) (lowFlag w) (sharedFlag w))
  | 0x2 => some (.hinit (ctxField w) (lowFlag w) (sharedFlag w))
  | 0x3 => some (.keyb (ctxField w) (argField w))
  | 0x4 => some (.keyend (ctxField w))
  | 0x5 => some (.pushb (ctxField w) (argField w))
  | 0x6 => some (.final (ctxField w))
  | 0x7 => some (.rdb (ctxField w) (byteIdxField w))
  | 0x8 => some (.rdw (ctxField w) (wordIdxField w))
  | 0x9 => some (.rdst (ctxField w))
  | 0xA => some (.rdcnt (ctxField w) (lowFlag w))
  | _ => none

/-- The static part of R59: step 1 refuses a reserved opcode, step 2 a reserved bit. -/
def decode (w : Cmd) : Except DecodeError Instr :=
  match opcodeRows[opField w]?, operandsOf (opField w) w with
  | some r, some i => if r.spells w then .ok i else .error .reservedBits
  | _, _ => .error .reservedOpcode

/-- The three fields of R51 put together: `op`, `ctx`, `arg`. -/
def fields (op : BitVec 4) (c : Nat) (arg : Byte) : Cmd := op ++ BitVec.ofNat 4 c ++ arg

/-- The argument byte of format C (R54): `000000 s t`. -/
def flagsArg (t sh : Bool) : Byte := 0#6 ++ BitVec.ofBool sh ++ BitVec.ofBool t

/-- The word of a command (R52 to R56, R64). -/
def encode : Instr → Cmd
  | .nop => 0x0000#16
  | .init c t sh => fields 0x1#4 c (flagsArg t sh)
  | .hinit c t sh => fields 0x2#4 c (flagsArg t sh)
  | .keyb c b => fields 0x3#4 c b
  | .keyend c => fields 0x4#4 c 0#8
  | .pushb c b => fields 0x5#4 c b
  | .final c => fields 0x6#4 c 0#8
  | .rdb c i => fields 0x7#4 c (0#3 ++ BitVec.ofNat 5 i)
  | .rdw c j => fields 0x8#4 c (0#5 ++ BitVec.ofNat 3 j)
  | .rdst c => fields 0x9#4 c 0#8
  | .rdcnt c n => fields 0xA#4 c (0#7 ++ BitVec.ofBool n)

/-- The command word whose bits are `w` as the opcode table numbers them (bit 0 the least significant), with every bit from
`nbits` up 0. A command is one 16-bit word (R51, R63), so there is no byte order to settle. -/
def tableWord (nbits w : Nat) : Cmd := BitVec.ofNat 16 (w % 2 ^ nbits)

/-- What the decoder reads from the table's bits `w`. -/
def decodeTableWord (nbits w : Nat) : Option Instr :=
  match decode (tableWord nbits w) with
  | .ok i => some i
  | .error _ => none

end Sys2Proof
end

