-- ==== Sys2Proof/Machine/Compress.lean ====
section
/-! DEFINITION. The compression function and its arithmetic (rules R67 to R80): bit functions, message schedule, round, and the
fold of one block into eight accumulator words. Every addition is modulo 2^32 (R79), which is what `+` on `Word` is. -/

namespace Sys2Proof.Machine

/-- `ROTR(x, n)`, 0 < n < 32 (R67). -/
def rotr (x : Word) (n : Nat) : Word := (x >>> n) ||| (x <<< (32 - n))

/-- `SHR(x, n)` (R67). -/
def shr (x : Word) (n : Nat) : Word := x >>> n

/-- `ssig0` (R68). -/
def ssig0 (x : Word) : Word := rotr x 7 ^^^ rotr x 18 ^^^ shr x 3

/-- `ssig1` (R69). -/
def ssig1 (x : Word) : Word := rotr x 17 ^^^ rotr x 19 ^^^ shr x 10

/-- `bsig0` (R70). -/
def bsig0 (x : Word) : Word := rotr x 2 ^^^ rotr x 13 ^^^ rotr x 22

/-- `bsig1` (R71). -/
def bsig1 (x : Word) : Word := rotr x 6 ^^^ rotr x 11 ^^^ rotr x 25

/-- `Ch` (R72). -/
def choice (x y z : Word) : Word := (x &&& y) ^^^ (~~~x &&& z)

/-- `Maj` (R73). -/
def majority (x y z : Word) : Word := (x &&& y) ^^^ (x &&& z) ^^^ (y &&& z)

/-- The next schedule word from the words so far, THE LATEST FIRST: `W[t-2]` is entry 1, `W[t-7]` entry 6, `W[t-15]` entry 14 and
`W[t-16]` entry 15 (R76). -/
def nextScheduleWord (ws : List Word) : Word :=
  ssig1 (ws.getD 1 0) + ws.getD 6 0 + ssig0 (ws.getD 14 0) + ws.getD 15 0

/-- `n` more schedule words in front of the words so far, the latest first (R76). -/
def extendSchedule : Nat → List Word → List Word
  | 0, ws => ws
  | n + 1, ws => extendSchedule n (nextScheduleWord ws :: ws)

/-- `W[0..63]` of a block (R76). -/
def schedule (x : Vector Word 16) : List Word := (extendSchedule 48 x.toList.reverse).reverse

/-- The eight working variables of a compression (R77); they live inside one command (R33). -/
structure Working where
  (a b c d e f g h : Word)
  deriving DecidableEq, Repr

/-- One round with round constant `k` and schedule word `w` (R77). -/
def oneRound (v : Working) (k w : Word) : Working :=
  let t1 := v.h + bsig1 v.e + choice v.e v.f v.g + k + w
  let t2 := bsig0 v.a + majority v.a v.b v.c
  { a := t1 + t2, b := v.a, c := v.b, d := v.c, e := v.d + t1, f := v.e, g := v.f, h := v.g }

/-- The rounds for a list of (round constant, schedule word) pairs, in order (R78). -/
def roundsOver (v : Working) (kws : List (Word × Word)) : Working :=
  kws.foldl (fun u kw => oneRound u kw.1 kw.2) v

/-- The working variables start as `H[0..7]` in that order (R78). -/
def Working.ofHash (h : Vector Word 8) : Working :=
  { a := h[0], b := h[1], c := h[2], d := h[3], e := h[4], f := h[5], g := h[6], h := h[7] }

/-- Each accumulator plus the working variable of its position (R78). -/
def addWorking (h : Vector Word 8) (v : Working) : Vector Word 8 :=
  #v[h[0] + v.a, h[1] + v.b, h[2] + v.c, h[3] + v.d, h[4] + v.e, h[5] + v.f, h[6] + v.g, h[7] + v.h]

/-- The accumulators after folding block `x` into `h` (R78): 64 generic rounds for every block (R80). -/
def compressWords (h : Vector Word 8) (x : Vector Word 16) : Vector Word 8 :=
  addWorking h (roundsOver (Working.ofHash h) (kTable.zip (schedule x)))

end Sys2Proof.Machine
end

