-- ==== Sys2Proof/Config.lean ====
section
/-! DEFINITION. What one block fixes (the number of contexts, rule R6) and the values the spec leaves unspecified (rule R142). -/

namespace Sys2Proof.Config

/-- `NCTX`, the number of engine contexts of the block that `State.reset` describes (R6: an integer from 1 to 16, OPEN).
DESIGN CHOICE (log entry 1): 2, the value the spec's test vectors use. Only `State.reset` reads it: the step takes the number of
contexts from the state (`State.ctxs.length`), so every statement about all states holds for every `NCTX`. -/
def nctx : Nat := 2

/-- A word whose value the spec leaves unspecified: word `pos` of draw number `draw`. No body: nothing can be proved about it.
It stands for what a live shared context computes, and what the shared scratch block holds, once two live shared contexts have
existed together (R142, `93_implementation_defined.md` U1; log entry 4). -/
opaque freeWord : (draw pos : Nat) → Word

end Sys2Proof.Config
end

