-- ==== Sys2Proof/Machine/State.lean ====
section
/-! DEFINITION. The state of the block as plain data (rules R13 to R36), the two ports of its command interface at command level
(rules R2, R57, R65), the reasons a step can stop, and the state after reset (rules R35, R135). -/

namespace Sys2Proof.Machine

/-- Sixteen words of 32 bits: a private block or the shared scratch block (R15, R16). -/
abbrev Block := Vector Word 16

/-- Sixty-four bytes: a pad (R28). -/
abbrev Pad := Vector Byte 64

/-- One context: the hash engine of R14 to R21 and the HMAC wrapper around it (R23 to R28). -/
structure Ctx where
  /-- `H[0..7]`: the accumulators (R14) -/
  h : Vector Word 8
  /-- `B[0..15]`: the private block (R15) -/
  b : Block
  /-- `OFF`: the block fill offset (R17) -/
  off : BitVec 6
  /-- `CNTLO`: the low byte counter (R18) -/
  cntLo : Word
  /-- `CNTHI`: the high byte counter (R18) -/
  cntHi : Word
  /-- `FIN`: the finalized flag (R19) -/
  fin : Bool
  /-- `T`: the truncated bit (R20) -/
  t : Bool
  /-- `S`: the shared-scratch bit (R21) -/
  s : Bool
  /-- `M`: the mode bit, set for an HMAC engine (R23) -/
  m : Bool
  /-- `KPH`: the key-phase bit (R24) -/
  kph : Bool
  /-- `LATCH`: the one-shot latch (R25) -/
  latch : Bool
  /-- `KLEN`: the key length counter (R26) -/
  klen : BitVec 7
  /-- `IPAD[0..63]`: the inner pad (R28) -/
  ipad : Pad
  /-- `OPAD[0..63]`: the outer pad (R28) -/
  opad : Pad
  /-- The MODEL's own field, not the spec's: this context has been a live shared context while another one existed, so what its
  engine computes is unspecified until it is constructed again (R142; log entry 4) -/
  tainted : Bool
  deriving DecidableEq, Repr

/-- A response `(err, data)` (R57). -/
structure Response where
  err : Bool
  data : Word
  deriving DecidableEq, Repr

/-- What the host does at the block's inputs, at command level (R2, R65): it presents a command word, or it asserts `rst`. -/
inductive PortEvent where
  | cmd (w : Cmd)
  | rst
  deriving DecidableEq, Repr

/-- The whole state. `K` and the initialisation vectors are constants (R36) and stand in Machine/Tables.lean; `NCTX` is the length
of `ctxs` (R6, R13). -/
structure State where
  /-- `SCR[0..15]`: the shared scratch block (R16) -/
  scr : Block
  /-- `CTX[0..NCTX-1]` (R13) -/
  ctxs : List Ctx
  /-- The response to the latest command, none before the first one (R57; log entry 3) -/
  rsp : Option Response
  /-- What the host is still going to do at the inputs, the next event first: the step's input (R36; log entry 2) -/
  stream : List PortEvent
  /-- The MODEL's own field, not the spec's: how many free values have been drawn (R142; log entry 4) -/
  draws : Nat
  deriving DecidableEq, Repr

/-- Why the machine stops with a fault: never. The block raises no synchronous exception and nothing halts it (R122), so this
type has no constructor; that no step faults is then part of its type (safe). -/
inductive Fault where
  deriving DecidableEq, Repr

/-- Why a step has no meaning. -/
inductive Refusal where
  /-- An arm of `exec` for a command that has no meaning yet: no arm raises it (safe) -/
  | notModelled (mnemonic : String)
  deriving DecidableEq, Repr

/-- A context after reset (R35): as `INIT c, 0, 0` leaves it. -/
def Ctx.reset : Ctx where
  h := iv256
  b := Vector.replicate 16 0
  off := 0
  cntLo := 0
  cntHi := 0
  fin := false
  t := false
  s := false
  m := false
  kph := false
  latch := false
  klen := 0
  ipad := Vector.replicate 64 0
  opad := Vector.replicate 64 0
  tainted := false

/-- The state after reset of a block with `n` contexts (R35, R135). `draws` is the model's own; its value is a DESIGN CHOICE (log
entry 4) that no statement rests on. -/
def State.resetOf (n : Nat) : State where
  scr := Vector.replicate 16 0
  ctxs := List.replicate n Ctx.reset
  rsp := none
  stream := []
  draws := 0

/-- The state after reset of the block with `Config.nctx` contexts (R6; log entry 1). -/
def State.reset : State := State.resetOf Config.nctx

end Sys2Proof.Machine
end

