-- ==== Sys2Proof/Machine/Flags.lean ====
section
/-! DEFINITION. What is computed from a context's control fields: its phase (rule R27), its digest length (rule R6), the status
word (rule R31), the byte count (rule R18), and whether it is a live shared context (rule R140). -/

namespace Sys2Proof.Machine

/-- The phases of R27. -/
inductive Phase where
  | plain
  | hmacKey
  | hmacMessage
  deriving DecidableEq, Repr

/-- The phase of a context (R27); none for the unreachable combination `M` = 0, `KPH` = 1. -/
def Ctx.phase (x : Ctx) : Option Phase :=
  match x.m, x.kph with
  | false, false => some .plain
  | true, true => some .hmacKey
  | true, false => some .hmacMessage
  | false, true => none

/-- The digest length in bytes of a variant (R6). -/
def dlenOf (t : Bool) : Nat := if t then 28 else 32

/-- `DLEN(c)` (R6). -/
def Ctx.dlen (x : Ctx) : Nat := dlenOf x.t

/-- A control bit at position `p` of the status word (R31). -/
def flagAt (p : Nat) (f : Bool) : Word := (BitVec.ofBool f).zeroExtend 32 <<< p

/-- `STATUS(c)` (R31). -/
def Ctx.status (x : Ctx) : Word :=
  flagAt 0 x.fin ||| flagAt 1 x.t ||| flagAt 2 x.s ||| flagAt 3 x.m ||| flagAt 4 x.kph ||| flagAt 5 x.latch
    ||| (x.off.zeroExtend 32 <<< 8) ||| (x.klen.zeroExtend 32 <<< 16)

/-- The byte count `CNTHI * 2^32 + CNTLO` (R18). -/
def Ctx.count (x : Ctx) : Nat := x.cntHi.toNat * 2 ^ 32 + x.cntLo.toNat

/-- A live shared context: `S` = 1 and `FIN` = 0 (R140). -/
def Ctx.liveShared (x : Ctx) : Bool := x.s && !x.fin

/-- How many live shared contexts there are: the contract of R141 says at most one. -/
def State.liveSharedCount (s : State) : Nat := s.ctxs.countP Ctx.liveShared

end Sys2Proof.Machine
end

