-- ==== Sys2Proof/Machine/Ops.lean ====
section
/-! DEFINITION. The shared operations: the response (rules R57, R58), the block a context uses (rules R38 to R42), and the
procedures of the hash engine and of the HMAC wrapper (rules R78, R81 to R86, R93, R101 to R103), each written over a `View`: the
one context a command acts through, with the block that context uses (rules R47, R66). -/

namespace Sys2Proof.Machine

/-! ## The response -/

/-- `respond OK(v)` (R57). -/
def State.respondOk (s : State) (v : Word) : State := { s with rsp := some { err := false, data := v } }

/-- `respond ERR`: the one way the block refuses a command. Nothing but the response changes (R58, R123). -/
def State.respondErr (s : State) : State := { s with rsp := some { err := true, data := 0 } }

/-! ## The view of one context -/

/-- What a command on one context can read and write: the context, its block `Blk(c)`, the counter of free values, and a count of
the compressions it has run (R146), which lives inside one command only. -/
structure View where
  ctx : Ctx
  blk : Block
  draws : Nat
  work : Nat
  deriving DecidableEq, Repr

/-- `Blk(c)` of a context `x`: `SCR` if `S` = 1, else its private block (R38). -/
def State.blkOf (s : State) (x : Ctx) : Block := if x.s then s.scr else x.b

/-- The view of context `x`. -/
def State.view (s : State) (x : Ctx) : View := { ctx := x, blk := s.blkOf x, draws := s.draws, work := 0 }

/-- Context `c` and its block take the values of the view; no other context changes (R38, R66). -/
def State.store (s : State) (c : Nat) (v : View) : State :=
  if v.ctx.s then { s with ctxs := s.ctxs.set c v.ctx, scr := v.blk, draws := v.draws }
  else { s with ctxs := s.ctxs.set c { v.ctx with b := v.blk }, draws := v.draws }

/-! ## Free values (R142) -/

/-- Eight words the spec does not specify. -/
def freeHash (draw : Nat) : Vector Word 8 := Vector.ofFn fun i => Config.freeWord draw i.val

/-- Sixteen words the spec does not specify. -/
def freeBlock (draw : Nat) : Block := Vector.ofFn fun i => Config.freeWord draw i.val

/-- The accumulators become `h`, or a free value in a tainted context (R142). -/
def View.putHash (v : View) (h : Vector Word 8) : View :=
  if v.ctx.tainted then { v with ctx := { v.ctx with h := freeHash v.draws }, draws := v.draws + 1 }
  else { v with ctx := { v.ctx with h := h } }

/-- The block becomes `x`, or a free value in a tainted context (R142). -/
def View.putBlk (v : View) (x : Block) : View :=
  if v.ctx.tainted then { v with blk := freeBlock v.draws, draws := v.draws + 1 } else { v with blk := x }

/-! ## Block access -/

/-- Byte `k` of a word, most-significant byte first: bits `[31-8*k : 24-8*k]` (R42). -/
def wordByte (w : Word) (k : Nat) : Byte := (w >>> (24 - 8 * k)).truncate 8

/-- Byte `i` of a block: bits `[31-8*(i mod 4) : 24-8*(i mod 4)]` of word `i / 4` (R15, R42). -/
def blockByte (x : Block) (i : Nat) : Byte := wordByte (x.getD (i / 4) 0) (i % 4)

/-- A word with the eight bits at `[sh+7 : sh]` replaced by `b` (R41). -/
def putByte (w : Word) (sh : Nat) (b : Byte) : Word := (w &&& ~~~(0xFF#32 <<< sh)) ||| (b.zeroExtend 32 <<< sh)

/-- A block with byte `i` replaced by `b` (R41). -/
def blockPutByte (x : Block) (i : Nat) (b : Byte) : Block :=
  x.setIfInBounds (i / 4) (putByte (x.getD (i / 4) 0) (24 - 8 * (i % 4)) b)

/-- `BlkRead(c, j)` (R39). -/
def View.blkRead (v : View) (j : Nat) : Word := v.blk.getD j 0

/-- `BlkWrite(c, j, w)` (R40). -/
def View.blkWrite (v : View) (j : Nat) (w : Word) : View := v.putBlk (v.blk.setIfInBounds j w)

/-- `BlkByteWrite(c, i, b)` (R41). -/
def View.blkByteWrite (v : View) (i : Nat) (b : Byte) : View := v.putBlk (blockPutByte v.blk i b)

/-- `for j in 0..15: BlkWrite(c, j, 0x00000000)` (R81, R84). -/
def View.blkZero (v : View) : View := (List.range 16).foldl (fun u j => u.blkWrite j 0) v

/-- `for j in i..63: BlkByteWrite(c, j, 0x00)` (R84). -/
def View.blkZeroFrom (v : View) (i : Nat) : View :=
  (List.range' i (64 - i)).foldl (fun u j => u.blkByteWrite j 0) v

/-! ## Engine procedures -/

/-- `Compress(c)`: the accumulators take in the block; the block and every other field stay (R78). -/
def View.compress (v : View) : View :=
  { v.putHash (compressWords v.ctx.h v.blk) with work := v.work + 1 }

/-- `EngineReset(c)` (R81). -/
def View.engineReset (v : View) : View :=
  let u := View.blkZero { v with ctx := { v.ctx with h := ivOf v.ctx.t } }
  { u with ctx := { u.ctx with off := 0, cntLo := 0, cntHi := 0, fin := false } }

/-- `CountByte(c)` (R83). -/
def Ctx.countByte (x : Ctx) : Ctx :=
  if x.cntLo = 0xFFFFFFFF#32 then { x with cntLo := 0, cntHi := x.cntHi + 1 } else { x with cntLo := x.cntLo + 1 }

/-- `PushByte(c, b)` (R82). -/
def View.pushByte (v : View) (b : Byte) : View :=
  if v.ctx.fin then v
  else
    let u := v.blkByteWrite v.ctx.off.toNat b
    let u := { u with ctx := u.ctx.countByte }
    if v.ctx.off = 63 then
      let u := u.compress
      { u with ctx := { u.ctx with off := 0 } }
    else { u with ctx := { u.ctx with off := u.ctx.off + 1 } }

/-- `PushByte` for each byte of a sequence, in order (R82, R91). -/
def View.pushBytes (v : View) (bs : List Byte) : View := bs.foldl View.pushByte v

/-- `BitLenHi(c)` (R85). -/
def Ctx.bitLenHi (x : Ctx) : Word := (x.cntHi <<< 3) ||| (x.cntLo >>> 29)

/-- `BitLenLo(c)` (R85). -/
def Ctx.bitLenLo (x : Ctx) : Word := x.cntLo <<< 3

/-- The marker byte and the zero bytes after it in the marker's own block (R84). -/
def View.padMarker (v : View) : View := (v.blkByteWrite v.ctx.off.toNat 0x80#8).blkZeroFrom (v.ctx.off.toNat + 1)

/-- The length field in the last two words of the block, and the final compression (R84). -/
def View.padLength (v : View) : View :=
  ((v.blkWrite 14 v.ctx.bitLenHi).blkWrite 15 v.ctx.bitLenLo).compress

/-- `FIN[c] <- 1`, before anything else (R84). -/
def View.raiseFin (v : View) : View := { v with ctx := { v.ctx with fin := true } }

/-- `BaseFinalize(c)` (R84). -/
def View.baseFinalize (v : View) : View :=
  if v.ctx.fin then v
  else
    let u := v.raiseFin.padMarker
    let u := if 56 ≤ v.ctx.off.toNat then u.compress.blkZero else u
    u.padLength

/-- Digest byte `i` of eight accumulator words (R42(c), R93). -/
def hashByte (h : Vector Word 8) (i : Nat) : Byte := wordByte (h.getD (i / 4) 0) (i % 4)

/-- `DigestBytes(c)` (R93). -/
def Ctx.digestBytes (x : Ctx) : List Byte := (List.range x.dlen).map (hashByte x.h)

/-! ## The HMAC wrapper -/

/-- `LATCH[c] <- 0`, the one-shot latch (R103). -/
def View.dropLatch (v : View) : View := { v with ctx := { v.ctx with latch := false } }

/-- `HmacOuterPass(c)` (R103). -/
def View.hmacOuterPass (v : View) : View :=
  let u := v.dropLatch
  let d := u.ctx.digestBytes
  ((u.engineReset.pushBytes u.ctx.opad.toList).pushBytes d).baseFinalize

/-- `Finalize(c)` (R86). -/
def View.finalize (v : View) : View :=
  let u := v.baseFinalize
  if u.ctx.m && u.ctx.latch then u.hmacOuterPass else u

/-- The two pads of a sequence of key bytes, zero-padded to 64 bytes: each byte exclusive-or 0x36 and 0x5c (R102). -/
def Ctx.setPads (x : Ctx) (key : List Byte) : Ctx :=
  { x with
    ipad := Vector.ofFn fun i => key.getD i.val 0 ^^^ 0x36#8
    opad := Vector.ofFn fun i => key.getD i.val 0 ^^^ 0x5c#8 }

/-- One byte of each pad takes key byte `b`, while fewer than 64 have come (R101). -/
def Ctx.padByte (x : Ctx) (b : Byte) : Ctx :=
  if x.klen.toNat < 64 then
    { x with
      ipad := x.ipad.setIfInBounds x.klen.toNat (b ^^^ 0x36#8)
      opad := x.opad.setIfInBounds x.klen.toNat (b ^^^ 0x5c#8) }
  else x

/-- `KLEN` counts up to 65 and stays there (R26, R101). -/
def Ctx.countKeyByte (x : Ctx) : Ctx := if x.klen.toNat < 65 then { x with klen := x.klen + 1 } else x

/-- The body of `KEYB` (R101). -/
def View.keyByte (v : View) (b : Byte) : View :=
  View.pushByte { v with ctx := (v.ctx.padByte b).countKeyByte } b

/-- The key normalisation of `KEYEND`: a key of more than 64 bytes is replaced by its hash (R102). -/
def View.shortenKey (v : View) : View :=
  if 64 < v.ctx.klen.toNat then
    let u := v.baseFinalize
    { u with ctx := u.ctx.setPads u.ctx.digestBytes }
  else v

/-- The body of `KEYEND` (R102). -/
def View.keyEnd (v : View) : View :=
  let u := v.shortenKey.engineReset
  let u := u.pushBytes u.ctx.ipad.toList
  { u with ctx := { u.ctx with kph := false, latch := true } }

/-! ## Construction and the shared-scratch contract -/

/-- The control fields and pads `INIT c, t, s` writes (R88). A new construction ends the taint of an earlier one (R142). -/
def Ctx.asPlain (x : Ctx) (t sh : Bool) : Ctx :=
  { x with
    t := t, s := sh, m := false, kph := false, latch := false, klen := 0
    ipad := Vector.replicate 64 0x00#8, opad := Vector.replicate 64 0x00#8, tainted := false }

/-- The control fields and pads `HINIT c, t, s` writes (R100): the pads are those of the empty key. -/
def Ctx.asHmac (x : Ctx) (t sh : Bool) : Ctx :=
  { x with
    t := t, s := sh, m := true, kph := true, latch := false, klen := 0
    ipad := Vector.replicate 64 0x36#8, opad := Vector.replicate 64 0x5c#8, tainted := false }

/-- What a second live shared context means (R142): while two or more exist, each of them is tainted, and the words of the shared
block are unspecified. -/
def State.noteSharing (s : State) : State :=
  if s.liveSharedCount ≤ 1 then s
  else
    { s with
      ctxs := s.ctxs.map fun x => if x.liveShared then { x with tainted := true } else x
      scr := freeBlock s.draws
      draws := s.draws + 1 }

/-- The common part of `INIT` and `HINIT` (R88, R100): `EngineReset` with the new `T` and `S` of `x`, then the response. Only these
two commands can create a live shared context, and only with `S` = 1 (R141). -/
def State.construct (s : State) (c : Nat) (x : Ctx) : State :=
  let u := s.store c (s.view x).engineReset
  let u := if x.s then u.noteSharing else u
  u.respondOk 0

end Sys2Proof.Machine
end

