-- ==== Sys2Proof/Machine/Operands.lean ====
section
/-! DEFINITION. The operand forms and the checks that read the state (rule R59 steps 4 to 6, rule R123 causes E3 to E6): the
context must exist, its phase must accept the command, and a digest index must be inside the digest. -/

namespace Sys2Proof.Machine

/-- `INIT`, `HINIT`, `RDST`, `RDCNT` are accepted in every phase (R59 step 5). -/
def Ctx.takesAny (_ : Ctx) : Bool := true

/-- `KEYB`, `KEYEND` are accepted in HMAC key phase only: ERR when `M` = 0 or `KPH` = 0 (R59 step 5, R123 E4). -/
def Ctx.takesKey (x : Ctx) : Bool := x.m && x.kph

/-- `PUSHB`, `FINAL`, `RDB`, `RDW` are refused in HMAC key phase: ERR when `KPH` = 1 (R59 step 5, R123 E5). -/
def Ctx.takesData (x : Ctx) : Bool := !x.kph

/-- `RDB` needs `idx` < `DLEN(c)` besides (R59 step 6, R123 E6). -/
def Ctx.takesByteRead (i : Nat) (x : Ctx) : Bool := x.takesData && decide (i < x.dlen)

/-- `RDW` needs 4 * `idx` < `DLEN(c)` besides (R59 step 6, R123 E6). -/
def Ctx.takesWordRead (j : Nat) (x : Ctx) : Bool := x.takesData && decide (4 * j < x.dlen)

/-- Steps 4 to 6 of R59 for a command on context `c`: `respond ERR` if there is no such context or it does not accept the
command, else the command's own effect (step 7). -/
def State.accept (s : State) (c : Nat) (ok : Ctx → Bool) (run : Ctx → State) : State :=
  match s.ctxs[c]? with
  | none => s.respondErr
  | some x => if ok x then run x else s.respondErr

/-- An accepted command's effect on its context and block, then its response, computed from the context afterwards. -/
def State.act (s : State) (c : Nat) (x : Ctx) (f : View → View) (out : Ctx → Word) : State :=
  (s.store c (f (s.view x))).respondOk (out (f (s.view x)).ctx)

end Sys2Proof.Machine
end

