-- ==== Sys2Proof/Machine/Engine.lean ====
section
/-! DEFINITION. The hash engine's commands: `NOP`, `INIT`, `PUSHB`, `FINAL` (rules R87 to R90). -/

namespace Sys2Proof.Machine

/-- `NOP` (R87): no context is looked at (R59 step 3). -/
def execNop (s : State) : Host.Outcome State Fault Refusal := .next (s.respondOk 0)

/-- `INIT c, t, s` (R88). -/
def execInit (c : Nat) (t sh : Bool) (s : State) : Host.Outcome State Fault Refusal :=
  .next (s.accept c Ctx.takesAny fun x => s.construct c (x.asPlain t sh))

/-- `PUSHB c, b` (R89): a silent no-op on a finalized context, and still OK. -/
def execPushb (c : Nat) (b : Byte) (s : State) : Host.Outcome State Fault Refusal :=
  .next (s.accept c Ctx.takesData fun x => s.act c x (fun v => v.pushByte b) (fun _ => 0))

/-- `FINAL c` (R90). -/
def execFinal (c : Nat) (s : State) : Host.Outcome State Fault Refusal :=
  .next (s.accept c Ctx.takesData fun x => s.act c x View.finalize (fun _ => 0))

end Sys2Proof.Machine
end

