-- ==== Sys2Proof/Machine/Hmac.lean ====
section
/-! DEFINITION. The HMAC wrapper's commands: `HINIT`, `KEYB`, `KEYEND` (rules R100 to R102). -/

namespace Sys2Proof.Machine

/-- `HINIT c, t, s` (R100). -/
def execHinit (c : Nat) (t sh : Bool) (s : State) : Host.Outcome State Fault Refusal :=
  .next (s.accept c Ctx.takesAny fun x => s.construct c (x.asHmac t sh))

/-- `KEYB c, b` (R101). -/
def execKeyb (c : Nat) (b : Byte) (s : State) : Host.Outcome State Fault Refusal :=
  .next (s.accept c Ctx.takesKey fun x => s.act c x (fun v => v.keyByte b) (fun _ => 0))

/-- `KEYEND c` (R102). -/
def execKeyend (c : Nat) (s : State) : Host.Outcome State Fault Refusal :=
  .next (s.accept c Ctx.takesKey fun x => s.act c x View.keyEnd (fun _ => 0))

end Sys2Proof.Machine
end

