-- ==== Sys2Proof/Machine/Reads.lean ====
section
/-! DEFINITION. Digest extraction and status reads: `RDB`, `RDW`, `RDST`, `RDCNT` (rules R93 to R97). -/

namespace Sys2Proof.Machine

/-- `RDB c, i` (R94): finalizes on the first use; the index is checked before that. -/
def execRdb (c i : Nat) (s : State) : Host.Outcome State Fault Refusal :=
  .next (s.accept c (Ctx.takesByteRead i) fun x =>
    s.act c x View.finalize (fun y => (y.digestBytes.getD i 0).zeroExtend 32))

/-- `RDW c, j` (R95): finalizes on the first use; the index is checked before that. -/
def execRdw (c j : Nat) (s : State) : Host.Outcome State Fault Refusal :=
  .next (s.accept c (Ctx.takesWordRead j) fun x => s.act c x View.finalize (fun y => y.h.getD j 0))

/-- `RDST c` (R96): does not finalize. -/
def execRdst (c : Nat) (s : State) : Host.Outcome State Fault Refusal :=
  .next (s.accept c Ctx.takesAny fun x => s.respondOk x.status)

/-- `RDCNT c, n` (R97): does not finalize. -/
def execRdcnt (c : Nat) (n : Bool) (s : State) : Host.Outcome State Fault Refusal :=
  .next (s.accept c Ctx.takesAny fun x => s.respondOk (if n then x.cntHi else x.cntLo))

end Sys2Proof.Machine
end

