-- ==== Sys2Proof/Machine/Dispatch.lean ====
section
/-! DEFINITION. One arm per command: the meaning it calls (rule R56's column of semantics). -/

namespace Sys2Proof.Machine

def exec (i : Instr) (s : State) : Host.Outcome State Fault Refusal :=
  match i with
  | .nop => Sys2Proof.Machine.execNop s
  | .init c t sh => Sys2Proof.Machine.execInit c t sh s
  | .hinit c t sh => Sys2Proof.Machine.execHinit c t sh s
  | .keyb c b => Sys2Proof.Machine.execKeyb c b s
  | .keyend c => Sys2Proof.Machine.execKeyend c s
  | .pushb c b => Sys2Proof.Machine.execPushb c b s
  | .final c => Sys2Proof.Machine.execFinal c s
  | .rdb c idx => Sys2Proof.Machine.execRdb c idx s
  | .rdw c idx => Sys2Proof.Machine.execRdw c idx s
  | .rdst c => Sys2Proof.Machine.execRdst c s
  | .rdcnt c n => Sys2Proof.Machine.execRdcnt c n s

end Sys2Proof.Machine
end

