-- ==== Sys2Proof/Machine/Fetch.lean ====
section
/-! DEFINITION. Taking the next event from the block's inputs (rules R2, R29, R47, R65) and what the `rst` input does (rule R135).
The block fetches nothing by itself: the host supplies every command. -/

namespace Sys2Proof.Machine

/-- What the block finds at its inputs. -/
inductive Fetched where
  /-- no command is presented and `rst` is not asserted -/
  | idle
  /-- `rst` is asserted -/
  | rst
  /-- a command word that the static checks of R59 refuse -/
  | reserved (e : DecodeError)
  /-- a command word that spells a command -/
  | command (i : Instr)
  deriving DecidableEq, Repr

/-- The next event (R47: in the order the port accepts them), decoded (R59 steps 1 and 2). -/
def State.fetch (s : State) : Fetched :=
  match s.stream with
  | [] => .idle
  | .rst :: _ => .rst
  | .cmd w :: _ =>
    match decode w with
    | .ok i => .command i
    | .error e => .reserved e

/-- The event is taken from the inputs. -/
def State.taken (s : State) : State := { s with stream := s.stream.tail }

/-- `rst` asserted (R135): every piece of state takes its reset value and no response is given; the number of contexts (R136) and
what the host does afterwards are not the block's to change. `draws` goes on counting, so that no free value is drawn twice. -/
def State.restart (s : State) : State := { State.resetOf s.ctxs.length with stream := s.stream, draws := s.draws }

/-- The command word `w` put in front of what the host is going to do. -/
def State.present (s : State) (w : Cmd) : State := { s with stream := .cmd w :: s.stream }

end Sys2Proof.Machine
end

