-- ==== Sys2Proof/Machine/Step.lean ====
section
/-! DEFINITION. One step: one event at the block's inputs, which is one command in the case that matters (rules R2, R9, R47). A
word that the static checks refuse gets the response ERR (rules R58, R60). With nothing at the inputs the block is idle and
nothing changes (rule R134). -/

namespace Sys2Proof.Machine

def step (s : State) : Host.Outcome State Fault Refusal :=
  match s.fetch with
  | .idle => .next s
  | .rst => .next s.taken.restart
  | .reserved _ => .next s.taken.respondErr
  | .command i => exec i s.taken

/-- `s` with the opcode table's word `w` of `nbits` bits as the next command the host presents (log entry 2). -/
def State.withFetchWord (s : State) (nbits w : Nat) : State := s.present (tableWord nbits w)

end Sys2Proof.Machine
end

