-- ==== Sys2Proof/Machine/Assembler.lean ====
section
/-! DEFINITION. The assembler of rule R64: one command a line, `MNEMONIC ctx` and its operands after commas, numbers in decimal or
`0x` hexadecimal, `;` starting a comment. Text is a list of characters. R64 does not say more of how a line is written: where spaces
may stand, which letter case is read, what an operand that does not fit means, and what a line that spells no command gives are
DESIGN CHOICE (log entry 6). -/

namespace Sys2Proof.Machine

/-- The mnemonic of a command (R56). -/
def mnemonicOf : Instr → List Char
  | .nop => ['N', 'O', 'P']
  | .init _ _ _ => ['I', 'N', 'I', 'T']
  | .hinit _ _ _ => ['H', 'I', 'N', 'I', 'T']
  | .keyb _ _ => ['K', 'E', 'Y', 'B']
  | .keyend _ => ['K', 'E', 'Y', 'E', 'N', 'D']
  | .pushb _ _ => ['P', 'U', 'S', 'H', 'B']
  | .final _ => ['F', 'I', 'N', 'A', 'L']
  | .rdb _ _ => ['R', 'D', 'B']
  | .rdw _ _ => ['R', 'D', 'W']
  | .rdst _ => ['R', 'D', 'S', 'T']
  | .rdcnt _ _ => ['R', 'D', 'C', 'N', 'T']

/-- The operands of a command, in the order R64 writes them. -/
def operandList : Instr → List Nat
  | .nop => []
  | .init c t sh => [c, t.toNat, sh.toNat]
  | .hinit c t sh => [c, t.toNat, sh.toNat]
  | .keyb c b => [c, b.toNat]
  | .keyend c => [c]
  | .pushb c b => [c, b.toNat]
  | .final c => [c]
  | .rdb c i => [c, i]
  | .rdw c j => [c, j]
  | .rdst c => [c]
  | .rdcnt c n => [c, n.toNat]

/-- An operand's value, if it fits: the assembler refuses one that does not (log entry 6). -/
def fitting (bound n : Nat) : Option Nat := if n < bound then some n else none

/-- The word R64 gives a mnemonic and its operands, by R64's own sums. -/
def assemble (mnemonic : List Char) (operands : List Nat) : Option Nat :=
  match mnemonic, operands with
  | ['N', 'O', 'P'], [] => some 0x0000
  | ['I', 'N', 'I', 'T'], [c, t, s] => do
    return 0x1000 + (← fitting 16 c) * 2 ^ 8 + (← fitting 2 s) * 2 + (← fitting 2 t)
  | ['H', 'I', 'N', 'I', 'T'], [c, t, s] => do
    return 0x2000 + (← fitting 16 c) * 2 ^ 8 + (← fitting 2 s) * 2 + (← fitting 2 t)
  | ['K', 'E', 'Y', 'B'], [c, b] => do return 0x3000 + (← fitting 16 c) * 2 ^ 8 + (← fitting 256 b)
  | ['K', 'E', 'Y', 'E', 'N', 'D'], [c] => do return 0x4000 + (← fitting 16 c) * 2 ^ 8
  | ['P', 'U', 'S', 'H', 'B'], [c, b] => do return 0x5000 + (← fitting 16 c) * 2 ^ 8 + (← fitting 256 b)
  | ['F', 'I', 'N', 'A', 'L'], [c] => do return 0x6000 + (← fitting 16 c) * 2 ^ 8
  | ['R', 'D', 'B'], [c, i] => do return 0x7000 + (← fitting 16 c) * 2 ^ 8 + (← fitting 32 i)
  | ['R', 'D', 'W'], [c, i] => do return 0x8000 + (← fitting 16 c) * 2 ^ 8 + (← fitting 8 i)
  | ['R', 'D', 'S', 'T'], [c] => do return 0x9000 + (← fitting 16 c) * 2 ^ 8
  | ['R', 'D', 'C', 'N', 'T'], [c, n] => do return 0xA000 + (← fitting 16 c) * 2 ^ 8 + (← fitting 2 n)
  | _, _ => none

/-- A digit's value in base 10 or 16. -/
def digitValue (base : Nat) (ch : Char) : Option Nat :=
  let n := ch.toNat
  let v :=
    if 48 ≤ n ∧ n ≤ 57 then n - 48
    else if 97 ≤ n ∧ n ≤ 102 then n - 87
    else if 65 ≤ n ∧ n ≤ 70 then n - 55
    else 16
  if v < base then some v else none

/-- The value of a sequence of digits, the most significant first. -/
def digitsValue (base : Nat) (ds : List Char) : Option Nat :=
  ds.foldl (fun acc ch => do return (← acc) * base + (← digitValue base ch)) (some 0)

/-- A number in decimal, or in hexadecimal after `0x` (R64). DESIGN CHOICE (log entry 6): a small `x` only, leading zeros allowed, no
value for any other character, a space included. -/
def numberOf : List Char → Option Nat
  | [] => none
  | '0' :: 'x' :: ds => if ds.isEmpty then none else digitsValue 16 ds
  | ds => digitsValue 10 ds

/-- A line without its comment (R64). -/
def withoutComment (line : List Char) : List Char := line.takeWhile (· != ';')

/-- The parts of a line between spaces. DESIGN CHOICE (log entry 6): any number of spaces separates as one does. -/
def splitOnSpace (line : List Char) : List (List Char) := (line.splitOn ' ').filter fun p => !p.isEmpty

/-- An operand without the spaces before and after it. DESIGN CHOICE (log entry 6): R64 does not say where spaces may stand. -/
def withoutOuterSpaces (text : List Char) : List Char :=
  ((text.dropWhile (· == ' ')).reverse.dropWhile (· == ' ')).reverse

/-- The operands: numbers, a comma between each two (R64). DESIGN CHOICE (log entry 6): spaces may stand around an operand; an
operand with a space INSIDE it is no number, so its line gives no word. -/
def operandsValue (text : List Char) : Option (List Nat) :=
  (text.splitOn ',').mapM fun p => numberOf (withoutOuterSpaces p)

/-- The word of one line of assembler text (R64). DESIGN CHOICE (log entry 6): none for a line that spells no command. -/
def assembleLine (line : List Char) : Option Nat :=
  match splitOnSpace (withoutComment line) with
  | [] => none
  | [m] => assemble m []
  | m :: rest => do assemble m (← operandsValue (rest.intersperse [' ']).flatten)

end Sys2Proof.Machine
end

