-- ==== Sys2Proof/Machine/HostSurface.lean ====
section
/-! DEFINITION. The host's side (rules R109 to R121): the document's software surface as command sequences, the driver that sends
them, and the two conversions of data the host does, text to bytes (rule R112) and bytes to a hexadecimal string (rule R115). It
adds no state to the block. -/

namespace Sys2Proof.Machine

/-! ## Expansions into commands -/

/-- `HashEngine(truncated = false, sharedScratch = false)` on context `c` (R109). -/
def hashEngine (c : Nat) (truncated : Bool := false) (sharedScratch : Bool := false) : List Instr :=
  [.init c truncated sharedScratch]

/-- `update(message)` for a byte sequence (R110). -/
def update (c : Nat) (message : List Byte) : List Instr := message.map (.pushb c)

/-- `finalize()` (R113). -/
def finalizeCall (c : Nat) : List Instr := [.final c]

/-- The reads of `digest()`, a byte at a time (R114). -/
def digestCall (c : Nat) (truncated : Bool := false) : List Instr := (List.range (dlenOf truncated)).map (.rdb c)

/-- The reads of `digest()`, a word at a time (R114, the second way). -/
def digestWordsCall (c : Nat) (truncated : Bool := false) : List Instr := (List.range (dlenOf truncated / 4)).map (.rdw c)

/-- `HmacEngine(secretKey, truncated = false, sharedScratch = false)` on context `c` (R117). -/
def hmacEngine (c : Nat) (secretKey : List Byte) (truncated : Bool := false) (sharedScratch : Bool := false) : List Instr :=
  .hinit c truncated sharedScratch :: (secretKey.map (.keyb c) ++ [.keyend c])

/-- `SHA256(m)` and `SHA224(m)` (R120). -/
def shaCall (c : Nat) (truncated : Bool) (m : List Byte) : List Instr :=
  hashEngine c truncated ++ update c m ++ digestCall c truncated

/-- `HMAC256(k, m)` and `HMAC224(k, m)` (R120). -/
def hmacCall (c : Nat) (truncated : Bool) (k m : List Byte) : List Instr :=
  hmacEngine c k truncated ++ update c m ++ digestCall c truncated

/-- Wiping a context (R121). -/
def wipeCall (c : Nat) : List Instr := hashEngine c

/-! ## The driver -/

/-- The host sends commands one after the other and keeps the responses, the first one first (R47, R57). Nothing comes of it if a
command stops. -/
def drive : List Instr → State → Option (State × List Response)
  | [], s => some (s, [])
  | i :: rest, s =>
    match exec i s with
    | .next u => (drive rest u).map fun p => (p.1, u.rsp.toList ++ p.2)
    | .fault _ => none
    | .refused _ => none

/-- The bytes of the responses to a byte-wise `digest()`: `data[7:0]` of each (R114); `toBuffer()` is the same bytes (R116). -/
def bytesOf (rs : List Response) : List Byte := rs.map fun r => r.data.truncate 8

/-- The bytes of the responses to a word-wise `digest()`, each word split most-significant byte first (R42, R114). -/
def bytesOfWords (rs : List Response) : List Byte :=
  rs.flatMap fun r => (List.range 4).map (wordByte r.data)

/-! ## Text and hexadecimal -/

/-- A 16-bit code unit of a text (R112). -/
abbrev CodeUnit := BitVec 16

/-- The low 8 bits of a number as a byte to emit. -/
def emitByte (x : Word) : Byte := x.truncate 8

/-- The one-, two- and three-byte forms of R112, for a code unit outside 0xD800 to 0xDFFF. -/
def unitBytes (u : CodeUnit) : List Byte :=
  let x : Word := u.zeroExtend 32
  if x.toNat < 0x0080 then [emitByte x]
  else if x.toNat < 0x0800 then [emitByte (0xC0#32 ||| (x >>> 6)), emitByte (0x80#32 ||| (x &&& 0x3F#32))]
  else
    [emitByte (0xE0#32 ||| (x >>> 12)), emitByte (0x80#32 ||| ((x >>> 6) &&& 0x3F#32)),
     emitByte (0x80#32 ||| (x &&& 0x3F#32))]

/-- The four-byte form of R112, for any half with whatever unit follows it. -/
def pairBytes (u y : CodeUnit) : List Byte :=
  let x : Word := u.zeroExtend 32
  let z : Word := y.zeroExtend 32
  let p : Word := 0x10000#32 + (((x &&& 0x3FF#32) <<< 10) ||| (z &&& 0x3FF#32))
  [emitByte (0xF0#32 ||| (p >>> 18)), emitByte (0x80#32 ||| ((p >>> 12) &&& 0x3F#32)),
   emitByte (0x80#32 ||| ((p >>> 6) &&& 0x3F#32)), emitByte (0x80#32 ||| (p &&& 0x3F#32))]

/-- A unit 0xD800 to 0xDFFF (R112). -/
def isHalf (u : CodeUnit) : Bool := decide (0xD800 ≤ u.toNat) && decide (u.toNat < 0xE000)

/-- `TextToBytes` (R112): a half takes the next unit with it, and 0x0000 at the end of the text. -/
def textToBytes : List CodeUnit → List Byte
  | [] => []
  | [u] => if isHalf u then pairBytes u 0 else unitBytes u
  | u :: y :: rest => if isHalf u then pairBytes u y ++ textToBytes rest else unitBytes u ++ textToBytes (y :: rest)

/-- `update(message)` for a text (R111). -/
def updateText (c : Nat) (message : List CodeUnit) : List Instr := update c (textToBytes message)

/-- `HmacEngine(secretKey, …)` for a text (R105, R117). -/
def hmacEngineText (c : Nat) (secretKey : List CodeUnit) (truncated : Bool := false) (sharedScratch : Bool := false) : List Instr :=
  hmacEngine c (textToBytes secretKey) truncated sharedScratch

/-- The sixteen characters of R115. -/
def hexDigits : List Char := ['0', '1', '2', '3', '4', '5', '6', '7', '8', '9', 'a', 'b', 'c', 'd', 'e', 'f']

/-- The character of a nibble (R115). -/
def hexDigit (n : Nat) : Char := hexDigits.getD n '0'

/-- `hex()` of a byte sequence as characters: high nibble first (R115). -/
def hexChars (bs : List Byte) : List Char := bs.flatMap fun b => [hexDigit (b.toNat / 16), hexDigit (b.toNat % 16)]

end Sys2Proof.Machine
end

