-- ==== Sys2Proof/Machine/Work.lean ====
section
/-! DEFINITION. The count of work of rule R146: how many compressions a command runs. No step reads it; a model has no time. -/

namespace Sys2Proof.Machine

/-- The compressions an admitted command's body runs on context `c`; a refused command runs none (R58). -/
def State.workOn (s : State) (c : Nat) (ok : Ctx → Bool) (f : View → View) : Nat :=
  match s.ctxs[c]? with
  | none => 0
  | some x => if ok x then (f (s.view x)).work else 0

/-- How many compressions command `i` runs in state `s` (R146), counted by the same procedures its meaning calls. -/
def compressionsRun (i : Instr) (s : State) : Nat :=
  match i with
  | .nop => 0
  | .init c t sh => s.workOn c Ctx.takesAny fun v => (s.view (v.ctx.asPlain t sh)).engineReset
  | .hinit c t sh => s.workOn c Ctx.takesAny fun v => (s.view (v.ctx.asHmac t sh)).engineReset
  | .keyb c b => s.workOn c Ctx.takesKey fun v => v.keyByte b
  | .keyend c => s.workOn c Ctx.takesKey View.keyEnd
  | .pushb c b => s.workOn c Ctx.takesData fun v => v.pushByte b
  | .final c => s.workOn c Ctx.takesData View.finalize
  | .rdb c i => s.workOn c (Ctx.takesByteRead i) View.finalize
  | .rdw c j => s.workOn c (Ctx.takesWordRead j) View.finalize
  | .rdst c => s.workOn c Ctx.takesAny id
  | .rdcnt c _ => s.workOn c Ctx.takesAny id

end Sys2Proof.Machine
end

