-- ==== Sys2Proof/Safety.lean ====
section
/-! DEFINITION. The terms claims are stated in: the invariant of every reachable state (rule R34), the shared-scratch contract
(rule R141), and what SHA-256, SHA-224 and HMAC are on whole byte sequences (rules R84, R93, R104), written without the engine's
state. -/

namespace Sys2Proof.Machine

/-! ## The invariant of every reachable state -/

/-- R34 (i). -/
abbrev Ctx.KeyPhaseFlags (x : Ctx) : Prop := x.kph = true → x.m = true ∧ x.fin = false ∧ x.latch = false

/-- R34 (ii). -/
abbrev Ctx.PlainFields (x : Ctx) : Prop :=
  x.m = false → x.kph = false ∧ x.latch = false ∧ x.klen = 0 ∧
    x.ipad = Vector.replicate 64 0x00#8 ∧ x.opad = Vector.replicate 64 0x00#8

/-- R34 (iii). -/
abbrev Ctx.SealedLatch (x : Ctx) : Prop := x.fin = true → x.latch = false

/-- R34 (iv). -/
abbrev Ctx.MessageLatch (x : Ctx) : Prop := x.m = true → x.kph = false → x.fin = false → x.latch = true

/-- R34 (v). -/
abbrev Ctx.OffsetCounts (x : Ctx) : Prop := x.off.toNat = x.cntLo.toNat % 64

/-- R34 (vi), and what R34 (vii) says of one state: until it saturates, `KLEN` is the byte count in key phase. -/
abbrev Ctx.KeyLength (x : Ctx) : Prop :=
  x.klen.toNat ≤ 65 ∧ (x.kph = true → x.klen.toNat < 65 → x.count = x.klen.toNat)

/-- The model's own (log entry 4): only a context on the shared block can be tainted. -/
abbrev Ctx.TaintShared (x : Ctx) : Prop := x.tainted = true → x.s = true

/-- R34 (i) to (vi) and the model's clause on taint, for one context. -/
abbrev Ctx.Ok (x : Ctx) : Prop :=
  x.KeyPhaseFlags ∧ x.PlainFields ∧ x.SealedLatch ∧ x.MessageLatch ∧ x.OffsetCounts ∧ x.KeyLength ∧ x.TaintShared

/-- R34 for every context, `NCTX` from 1 to 16 (R6), and the model's own clause (log entry 4): where two live shared contexts
exist, each is tainted. -/
abbrev State.Ok (s : State) : Prop :=
  (1 ≤ s.ctxs.length ∧ s.ctxs.length ≤ 16) ∧ (∀ x ∈ s.ctxs, x.Ok) ∧
    (2 ≤ s.liveSharedCount → ∀ x ∈ s.ctxs, x.liveShared = true → x.tainted = true)

/-! ## What a statement says stays the same -/

/-- The response `(OK, v)` (R57). -/
def okResponse (v : Word) : Response := { err := false, data := v }

/-- The response `(ERR, 0x00000000)` (R57). -/
def errResponse : Response := { err := true, data := 0 }

/-- The state of a command that is refused: only the response is new (R58). -/
abbrev State.Refused (s : State) : State := { s with rsp := some errResponse }

/-- No context but `c` differs, none has come or gone, and the host's further inputs are the same (R66). -/
abbrev State.SameBut (s : State) (c : Nat) (u : State) : Prop :=
  u.stream = s.stream ∧ u.ctxs.length = s.ctxs.length ∧ ∀ d, d ≠ c → u.ctxs[d]? = s.ctxs[d]?

/-- Of the two buffers a context could use as its block, the one it does not use is the same (R38). -/
abbrev State.OtherBufferKept (s : State) (x : Ctx) (u : State) (y : Ctx) : Prop :=
  (y.s = false → u.scr = s.scr) ∧ (y.s = true → y.b = x.b)

/-- The 64-bit byte count, `CNTHI` the high word (R18). -/
abbrev Ctx.count64 (x : Ctx) : BitVec 64 := x.cntHi ++ x.cntLo

/-- A context with its accumulators, block, pads and taint blanked: its control fields. -/
def Ctx.control (x : Ctx) : Ctx :=
  { x with
    h := Vector.replicate 8 0, b := Vector.replicate 16 0
    ipad := Vector.replicate 64 0, opad := Vector.replicate 64 0, tainted := false }

/-- A context without its taint. -/
def Ctx.cleaned (x : Ctx) : Ctx := { x with tainted := false }

/-! ## The shared-scratch contract -/

/-- R141: at most one live shared context. -/
abbrev State.Contract (s : State) : Prop := s.liveSharedCount ≤ 1

/-- No context is tainted: the contract has held since each context was constructed (R142). -/
abbrev State.Untainted (s : State) : Prop := ∀ x ∈ s.ctxs, x.tainted = false

/-- No context OTHER than `c` is a live shared context (R141). -/
abbrev State.NoOtherLiveShared (s : State) (c : Nat) : Prop :=
  ∀ d x, d ≠ c → s.ctxs[d]? = some x → x.liveShared = false

/-- A command with the flag `s` of `INIT` and `HINIT` cleared: what the host would send if every context had its own block. -/
def privately : Instr → Instr
  | .init c t _ => .init c t false
  | .hinit c t _ => .hinit c t false
  | i => i

/-- Context `x` of state `s` of a block that shares its scratch, and context `y` in its place in a block that does not: every field
but `S` and the private block is equal, and while the engine is not sealed the words each uses as its block are equal. -/
abbrev SameEngine (s : State) (x y : Ctx) : Prop :=
  y = { x with s := false, b := y.b } ∧ (x.fin = false → s.blkOf x = y.b)

/-- The states of two blocks driven with the same commands, one sharing its scratch, the other with `S` = 0 throughout (R141). -/
def SharesLike (s u : State) : Prop :=
  s.ctxs.length = u.ctxs.length ∧
    ∀ (c : Nat) (x y : Ctx), s.ctxs[c]? = some x → u.ctxs[c]? = some y → SameEngine s x y

/-! ## The constants' origin (R74, R75) -/

/-- The first 64 primes, 2 to 311. -/
def firstPrimes : List Nat :=
  (List.range 312).filter fun p => decide (2 ≤ p) && (List.range p).all fun d => decide (d < 2) || p % d != 0

/-- `w` is bits `lo` to `lo + 31` after the binary point of the `k`-th root of `p`. -/
def RootBits (k p lo : Nat) (w : Word) : Prop :=
  ∃ n, n ^ k ≤ p * 2 ^ (k * (lo + 32)) ∧ p * 2 ^ (k * (lo + 32)) < (n + 1) ^ k ∧ w.toNat = n % 2 ^ 32

/-! ## Hashes of whole byte sequences -/

/-- The length field: 64 bits of bit length, most-significant byte first (R42(b), R85). -/
def lengthField (n : Nat) : List Byte := (List.range 8).map fun i => BitVec.ofNat 8 (8 * n % 2 ^ 64 / 2 ^ (56 - 8 * i))

/-- A message with its padding: the marker byte, zeros, and the length field, a whole number of 64-byte blocks (R84). -/
def padMessage (m : List Byte) : List Byte :=
  m ++ 0x80#8 :: (List.replicate ((119 - m.length % 64) % 64) 0x00#8 ++ lengthField m.length)

/-- Four bytes as a word, most-significant byte first (R42(a)). -/
def wordOfBytes (b0 b1 b2 b3 : Byte) : Word := b0 ++ b1 ++ b2 ++ b3

/-- Block number `k` of a byte sequence (R42(a)). -/
def messageBlock (bs : List Byte) (k : Nat) : Block :=
  Vector.ofFn fun j =>
    let i := 64 * k + 4 * j.val
    wordOfBytes (bs.getD i 0) (bs.getD (i + 1) 0) (bs.getD (i + 2) 0) (bs.getD (i + 3) 0)

/-- The accumulators after the blocks of a byte sequence, from the initialisation vector of the variant (R75, R78). -/
def foldBlocks (t : Bool) (bs : List Byte) : Vector Word 8 :=
  (List.range (bs.length / 64)).foldl (fun h k => compressWords h (messageBlock bs k)) (ivOf t)

/-- `Hash_T(m)`: the digest of a byte sequence, SHA-256 or its 224-bit variant (R84, R93). From 2^61 bytes on the length field is the
spec's, modulo 2^64 (R85; 93_implementation_defined.md U5), and the standard defines no digest. -/
def shaDigest (t : Bool) (m : List Byte) : List Byte :=
  (List.range (dlenOf t)).map (hashByte (foldBlocks t (padMessage m)))

/-- `K0` of R104. -/
def hmacKey (t : Bool) (key : List Byte) : List Byte := if 64 < key.length then shaDigest t key else key

/-- `K64` exclusive-or a constant byte (R104). -/
def hmacPad (t : Bool) (key : List Byte) (const : Byte) : List Byte :=
  (List.range 64).map fun i => (hmacKey t key).getD i 0 ^^^ const

/-- `Hash_T(opad ‖ Hash_T(ipad ‖ msg))` (R104). -/
def hmacDigest (t : Bool) (key msg : List Byte) : List Byte :=
  shaDigest t (hmacPad t key 0x5c#8 ++ shaDigest t (hmacPad t key 0x36#8 ++ msg))

end Sys2Proof.Machine
end

