-- ==== Sys2Proof/Certificates/Slice0/Obligations.lean ====
section
/-! DEFINITION. The statements for the provers. Where a statement has the premise `x.tainted = false` (context `c` has not been a
live shared context beside another one since its construction), that is the contract of rule R141 as a premise, which
93_implementation_defined.md U1 asks for; what holds without it is stated without it. -/

open Sys2Proof
open Sys2Proof.Machine

/-! ## The whole machine -/

/-- R122: the block raises no synchronous exception: no command traps, faults, aborts or halts it. -/
def Obligations.NoCommandTrapsOrHalts : Prop :=
  (∀ (i : Instr) (s : State), ∃ u, exec i s = .next u) ∧ ∀ s : State, ∃ u, step s = .next u

/-- When the next event is a word that decodes to `i`, the step is `exec i` with the event taken from the inputs. -/
def Obligations.StepRunsDecodedCommand : Prop :=
  ∀ (s : State) (w : Cmd) (rest : List PortEvent) (i : Instr),
    s.stream = .cmd w :: rest → decode w = .ok i → step s = exec i { s with stream := rest }

/-- R134, the idle block: with nothing at the inputs a step changes nothing (log entry 3). -/
def Obligations.IdleStepKeepsEverything : Prop := ∀ s : State, s.stream = [] → step s = .next s

/-- R123 and R58: a word gets the response ERR exactly for the causes E1 to E6, and then nothing but the response changes. -/
def Obligations.ErrExactlyForListedCauses : Prop :=
  ∀ (s : State) (w : Cmd) (rest : List PortEvent), s.stream = .cmd w :: rest →
    ∃ u r, step s = .next u ∧ u.rsp = some r ∧
      (r.err = true → r.data = 0 ∧ u = { s with stream := rest, rsp := some r }) ∧
      (r.err = true ↔
        0xB ≤ opField w ∨
        (∃ q, opcodeRows[opField w]? = some q ∧ w &&& q.mask ≠ q.pattern) ∨
        ∃ i, decode w = .ok i ∧
          ((∃ c, i.ctx? = some c ∧ s.ctxs.length ≤ c) ∨
           (∃ c x, s.ctxs[c]? = some x ∧ (i = .keyend c ∨ ∃ b, i = .keyb c b) ∧ (x.m = false ∨ x.kph = false)) ∨
           (∃ c x, s.ctxs[c]? = some x ∧
             (i = .final c ∨ (∃ b, i = .pushb c b) ∨ (∃ j, i = .rdb c j) ∨ ∃ j, i = .rdw c j) ∧ x.kph = true) ∨
           (∃ c x j, s.ctxs[c]? = some x ∧
             ((i = .rdb c j ∧ x.dlen ≤ j) ∨ (i = .rdw c j ∧ x.dlen ≤ 4 * j)))))

/-- R66: a command other than NOP that names no existing context responds ERR; a command acts on the context it names, on SCR if
that context has S = 1, and on nothing else. (`tainted` is the model's own field, log entry 4.) -/
def Obligations.CommandActsOnItsContextOnly : Prop :=
  (∀ (i : Instr) (s : State) (c : Nat), i.ctx? = some c → s.ctxs[c]? = none → exec i s = .next s.Refused) ∧
  ∀ (i : Instr) (s u : State), exec i s = .next u →
    u.stream = s.stream ∧ u.ctxs.length = s.ctxs.length ∧
    (∀ d, i.ctx? ≠ some d → (u.ctxs[d]?).map Ctx.cleaned = (s.ctxs[d]?).map Ctx.cleaned) ∧
    (i.ctx? = none → u.scr = s.scr) ∧
    (∀ c x y, i.ctx? = some c → s.ctxs[c]? = some x → u.ctxs[c]? = some y → s.OtherBufferKept x u y)

/-- The invariant of R34 (i) to (vi), with NCTX from 1 to 16 and the model's clause on taint, is kept by every step. -/
def Obligations.StepKeepsStateInvariant : Prop := ∀ s u : State, s.Ok → step s = .next u → u.Ok

/-- The same invariant holds after reset, for every number of contexts R6 allows. -/
def Obligations.ResetMeetsStateInvariant : Prop := (∀ n, 1 ≤ n → n ≤ 16 → (State.resetOf n).Ok) ∧ State.reset.Ok

/-- R98: a sealed context answers without changing, until INIT or HINIT names it, and a command gets the same response in every
state in which the context is as it is now, so as often as it is asked, whatever was answered or done to other contexts in between;
what a digest read gets is the byte or the word of the accumulators. Commands to other contexts do not end this. -/
def Obligations.SealedContextRepeats : Prop :=
  ∀ (s : State) (c : Nat) (x : Ctx), s.Ok → s.ctxs[c]? = some x → x.fin = true →
    (∀ i : Instr, (i.ctx? = none ∨ i.ctx? = some c) → (∀ t sh, i ≠ .init c t sh ∧ i ≠ .hinit c t sh) →
      ∃ r, (∀ u : State, u.ctxs[c]? = some x → exec i u = .next { u with rsp := some r }) ∧
        (∀ j, i = .rdb c j → j < x.dlen → r = okResponse ((hashByte x.h j).zeroExtend 32)) ∧
        (∀ j, i = .rdw c j → 4 * j < x.dlen → r = okResponse (x.h.getD j 0))) ∧
    (∀ (i : Instr) (d : Nat) (u : State), i.ctx? = some d → d ≠ c → exec i s = .next u → u.ctxs[c]? = some x)

/-- R146: the compressions each command runs. -/
def Obligations.CompressionsPerCommand : Prop :=
  ∀ (s : State) (c : Nat) (x : Ctx) (b : Byte) (j : Nat) (n t sh : Bool), s.Ok → s.ctxs[c]? = some x →
    (compressionsRun .nop s = 0 ∧ compressionsRun (.rdst c) s = 0 ∧ compressionsRun (.rdcnt c n) s = 0 ∧
      compressionsRun (.init c t sh) s = 0 ∧ compressionsRun (.hinit c t sh) s = 0) ∧
    (x.fin = true → compressionsRun (.pushb c b) s = 0 ∧ compressionsRun (.final c) s = 0 ∧
      compressionsRun (.rdb c j) s = 0 ∧ compressionsRun (.rdw c j) s = 0) ∧
    (x.fin = false → x.kph = false → compressionsRun (.pushb c b) s = if x.off = 63 then 1 else 0) ∧
    (x.kph = true → compressionsRun (.keyb c b) s = if x.off = 63 then 1 else 0) ∧
    (x.fin = false → x.kph = false →
      compressionsRun (.final c) s = (if x.m then 2 else 0) + (if 56 ≤ x.off.toNat then 2 else 1)) ∧
    (x.fin = false → x.kph = false → j < x.dlen →
      compressionsRun (.rdb c j) s = (if x.m then 2 else 0) + (if 56 ≤ x.off.toNat then 2 else 1)) ∧
    (x.fin = false → x.kph = false → 4 * j < x.dlen →
      compressionsRun (.rdw c j) s = (if x.m then 2 else 0) + (if 56 ≤ x.off.toNat then 2 else 1)) ∧
    (x.kph = true → compressionsRun (.keyend c) s
      = if x.klen.toNat ≤ 64 then 1 else if 56 ≤ x.off.toNat then 3 else 2)

/-! ## Reset -/

/-- R35: after reset every piece of state of every context, and SCR, has the stated value, which is what `INIT c, 0, 0` leaves of
any context. (`K` is a constant, R36: `ConstantsAreRootsOfPrimes`.) -/
def Obligations.ResetGivesStatedValues : Prop :=
  (∀ (s : State) (c : Nat) (x : Ctx), s.ctxs[c]? = some x →
    ∃ u, exec (.init c false false) s = .next u ∧ u.ctxs[c]? = (State.resetOf (c + 1)).ctxs[c]?) ∧
  ∀ n : Nat, (State.resetOf n).scr = Vector.replicate 16 0 ∧ (State.resetOf n).ctxs.length = n ∧
    ∀ (c : Nat) (x : Ctx), (State.resetOf n).ctxs[c]? = some x →
      x.h = #v[0x6a09e667, 0xbb67ae85, 0x3c6ef372, 0xa54ff53a, 0x510e527f, 0x9b05688c, 0x1f83d9ab, 0x5be0cd19] ∧
      x.b = Vector.replicate 16 0 ∧ x.off = 0 ∧ x.cntLo = 0 ∧ x.cntHi = 0 ∧ x.fin = false ∧ x.t = false ∧ x.s = false ∧
      x.m = false ∧ x.kph = false ∧ x.latch = false ∧ x.klen = 0 ∧
      x.ipad = Vector.replicate 64 0 ∧ x.opad = Vector.replicate 64 0 ∧ x.status = 0

/-- The input `rst` puts every piece of state to its reset value, whatever it was (R135). Two clauses are the model's: that the kept
response is erased (`u.rsp = none`) is log entry 3's DESIGN CHOICE, and that what the host does afterwards stays
(`u.stream = rest`) is log entry 5's DEDUCED reading. -/
def Obligations.RstInputResetsEverything : Prop :=
  ∀ (s : State) (rest : List PortEvent), s.stream = .rst :: rest →
    ∃ u, step s = .next u ∧ u.rsp = none ∧ u.stream = rest ∧
      u.scr = (State.resetOf s.ctxs.length).scr ∧ u.ctxs = (State.resetOf s.ctxs.length).ctxs

/-! ## Encoding -/

/-- The words of the examples in R64 and of spec/95_test_vectors.md decode to the commands written beside them there. -/
def Obligations.ExampleWordsDecode : Prop :=
  decode 0x0000#16 = .ok .nop ∧ decode 0x1101#16 = .ok (.init 1 true false) ∧ decode 0x2002#16 = .ok (.hinit 0 false true) ∧
  decode 0x304A#16 = .ok (.keyb 0 0x4a#8) ∧ decode 0x4000#16 = .ok (.keyend 0) ∧ decode 0x5061#16 = .ok (.pushb 0 0x61#8) ∧
  decode 0x6000#16 = .ok (.final 0) ∧ decode 0x701F#16 = .ok (.rdb 0 31) ∧ decode 0x8106#16 = .ok (.rdw 1 6) ∧
  decode 0x9100#16 = .ok (.rdst 1) ∧ decode 0xA001#16 = .ok (.rdcnt 0 true) ∧
  decode 0xB000#16 = .error .reservedOpcode ∧ decode 0x0100#16 = .error .reservedBits ∧ decode 0x7020#16 = .error .reservedBits

/-- Every command that fits its encoding is read back from its word. -/
def Obligations.DecodeOfEncode : Prop := ∀ i : Instr, i.wf = true → decode (encode i) = .ok i

/-- Every word the decoder accepts is the word of the command it gives, and that command fits its encoding. -/
def Obligations.EncodeOfDecode : Prop := ∀ (w : Cmd) (i : Instr), decode w = .ok i → i.wf = true ∧ encode i = w

/-- R56: the opcode map; a word spells the command of a row exactly when (w & mask) = match, and at most one row matches. -/
def Obligations.WordsSpellExactlyTheirRow : Prop :=
  opcodeRows.map (fun r => (r.mnemonic, r.pattern, r.mask)) =
    [("NOP", 0x0000#16, 0xFFFF#16), ("INIT", 0x1000#16, 0xF0FC#16), ("HINIT", 0x2000#16, 0xF0FC#16),
     ("KEYB", 0x3000#16, 0xF000#16), ("KEYEND", 0x4000#16, 0xF0FF#16), ("PUSHB", 0x5000#16, 0xF000#16),
     ("FINAL", 0x6000#16, 0xF0FF#16), ("RDB", 0x7000#16, 0xF0E0#16), ("RDW", 0x8000#16, 0xF0F8#16),
     ("RDST", 0x9000#16, 0xF0FF#16), ("RDCNT", 0xA000#16, 0xF0FE#16)] ∧
  ∀ w : Cmd,
    (∀ r ∈ opcodeRows, (w &&& r.mask = r.pattern ↔ ∃ i, decode w = .ok i ∧ mnemonicOf i = r.mnemonic.toList)) ∧
    ((∃ i, decode w = .ok i) → ∃ r ∈ opcodeRows, w &&& r.mask = r.pattern) ∧
    ∀ r ∈ opcodeRows, ∀ q ∈ opcodeRows, w &&& r.mask = r.pattern → w &&& q.mask = q.pattern → r = q

/-- R60 but for its count of the words: which words pass the static checks, and that every other word responds ERR and changes
nothing. -/
def Obligations.ReservedWordsRespondErr : Prop :=
  (∀ w : Cmd, (∃ i, decode w = .ok i) ↔
    w = 0x0000#16 ∨ ((opField w = 0x1 ∨ opField w = 0x2) ∧ (argField w).toNat < 4) ∨ opField w = 0x3 ∨ opField w = 0x5 ∨
    ((opField w = 0x4 ∨ opField w = 0x6 ∨ opField w = 0x9) ∧ (argField w).toNat = 0) ∨
    (opField w = 0x7 ∧ (argField w).toNat < 32) ∨ (opField w = 0x8 ∧ (argField w).toNat < 8) ∨
    (opField w = 0xA ∧ (argField w).toNat < 2)) ∧
  ∀ (s : State) (w : Cmd) (rest : List PortEvent), s.stream = .cmd w :: rest → (∀ i, decode w ≠ .ok i) →
    step s = .next { s with stream := rest, rsp := some errResponse }

/-- The sums of R64 give every command the word its fields give it (R51 to R55). -/
def Obligations.AssemblerGivesEncodedWord : Prop :=
  ∀ i : Instr, i.wf = true → assemble (mnemonicOf i) (operandList i) = some (encode i).toNat

/-! ## Bit functions, schedule, rounds, constants -/

/-- R67: bit `i` of ROTR(x, n) is bit (i + n) mod 32 of x, and SHR(x, n) is floor(x / 2^n). -/
def Obligations.RotateAndShiftMoveBits : Prop :=
  ∀ (x : Word) (n : Nat), 0 < n → n < 32 →
    (∀ i < 32, (rotr x n).getLsbD i = x.getLsbD ((i + n) % 32)) ∧ (shr x n).toNat = x.toNat / 2 ^ n

/-- R68 to R71: each bit of the four mixing functions, as an exclusive or of three bits of x (a bit shifted in from above is 0). -/
def Obligations.MixingFunctionsBitwise : Prop :=
  ∀ (x : Word) (i : Nat), i < 32 →
    (ssig0 x).getLsbD i = (x.getLsbD ((i + 7) % 32) ^^ x.getLsbD ((i + 18) % 32) ^^ x.getLsbD (i + 3)) ∧
    (ssig1 x).getLsbD i = (x.getLsbD ((i + 17) % 32) ^^ x.getLsbD ((i + 19) % 32) ^^ x.getLsbD (i + 10)) ∧
    (bsig0 x).getLsbD i = (x.getLsbD ((i + 2) % 32) ^^ x.getLsbD ((i + 13) % 32) ^^ x.getLsbD ((i + 22) % 32)) ∧
    (bsig1 x).getLsbD i = (x.getLsbD ((i + 6) % 32) ^^ x.getLsbD ((i + 11) % 32) ^^ x.getLsbD ((i + 25) % 32))

/-- R72 and R73: each bit of Ch is the bit of y where x has 1 and of z where x has 0; each bit of Maj is the value at least two of
the three inputs have. -/
def Obligations.ChoiceAndMajorityBitwise : Prop :=
  ∀ (x y z : Word) (i : Nat), i < 32 →
    (choice x y z).getLsbD i = (if x.getLsbD i then y.getLsbD i else z.getLsbD i) ∧
    (majority x y z).getLsbD i = decide (2 ≤ (x.getLsbD i).toNat + (y.getLsbD i).toNat + (z.getLsbD i).toNat)

/-- R76: the schedule is the sixteen block words and then 48 words, each from the four earlier ones the rule names. -/
def Obligations.ScheduleFollowsRecurrence : Prop :=
  ∀ x : Block, (schedule x).length = 64 ∧
    (∀ (t : Nat) (h : t < 16), (schedule x)[t]? = some x[t]) ∧
    (∀ t, 16 ≤ t → t < 64 →
      (schedule x)[t]? = some (ssig1 ((schedule x).getD (t - 2) 0) + (schedule x).getD (t - 7) 0
        + ssig0 ((schedule x).getD (t - 15) 0) + (schedule x).getD (t - 16) 0))

/-- R77 and R78: compressing is 64 rounds by the equations of R77 from H[0..7], then each accumulator plus the working variable of
its position; nothing else of the context or its block changes. -/
def Obligations.CompressionIsSixtyFourRounds : Prop :=
  ∀ v : View, v.ctx.tainted = false →
    ∃ r : Nat → Working,
      r 0 = ⟨v.ctx.h[0], v.ctx.h[1], v.ctx.h[2], v.ctx.h[3], v.ctx.h[4], v.ctx.h[5], v.ctx.h[6], v.ctx.h[7]⟩ ∧
      (∀ t < 64, ∃ t1 t2 : Word,
        t1 = (r t).h + bsig1 (r t).e + choice (r t).e (r t).f (r t).g + kTable.getD t 0 + (schedule v.blk).getD t 0 ∧
        t2 = bsig0 (r t).a + majority (r t).a (r t).b (r t).c ∧
        r (t + 1) = ⟨t1 + t2, (r t).a, (r t).b, (r t).c, (r t).d + t1, (r t).e, (r t).f, (r t).g⟩) ∧
      v.compress =
        { v with
          work := v.work + 1
          ctx := { v.ctx with
            h := #v[v.ctx.h[0] + (r 64).a, v.ctx.h[1] + (r 64).b, v.ctx.h[2] + (r 64).c, v.ctx.h[3] + (r 64).d,
              v.ctx.h[4] + (r 64).e, v.ctx.h[5] + (r 64).f, v.ctx.h[6] + (r 64).g, v.ctx.h[7] + (r 64).h] } }

/-- R74 and R75: K is the first 32 bits of the fractional parts of the cube roots of the first 64 primes, IV256 those of the
square roots of the first 8, IV224 the second 32 bits of the square roots of the 9th to 16th. -/
def Obligations.ConstantsAreRootsOfPrimes : Prop :=
  firstPrimes.length = 64 ∧ kTable.length = 64 ∧ (∀ t : Bool, ivOf t = if t then iv224 else iv256) ∧
  (∀ t < 64, RootBits 3 (firstPrimes.getD t 0) 0 (kTable.getD t 0)) ∧
  (∀ i < 8, RootBits 2 (firstPrimes.getD i 0) 0 (iv256.getD i 0)) ∧
  (∀ i < 8, RootBits 2 (firstPrimes.getD (8 + i) 0) 32 (iv224.getD i 0))

/-! ## Blocks and counters -/

/-- R41: BlkByteWrite replaces byte i and leaves every other byte, and every other word, as it was. -/
def Obligations.BlockByteWriteReadsBack : Prop :=
  ∀ (v : View) (i : Nat) (b : Byte), v.ctx.tainted = false → i < 64 →
    (v.blkByteWrite i b).ctx = v.ctx ∧
    (∀ j < 64, blockByte (v.blkByteWrite i b).blk j = if j = i then b else blockByte v.blk j) ∧
    (∀ j < 16, j ≠ i / 4 → (v.blkByteWrite i b).blkRead j = v.blkRead j)

/-- R83: counting a byte adds one to the 64-bit byte count, modulo 2^64, and writes no other field. -/
def Obligations.CountByteCarriesIntoHighWord : Prop :=
  ∀ x : Ctx, x.countByte.count64 = x.count64 + 1 ∧ x.countByte.count = (x.count + 1) % 2 ^ 64 ∧
    x.countByte = { x with cntLo := x.countByte.cntLo, cntHi := x.countByte.cntHi }

/-- R85: the two words of the length field are the high and the low word of (8 * byte count) mod 2^64. -/
def Obligations.LengthFieldIsBitLength : Prop :=
  ∀ x : Ctx, x.bitLenHi.toNat = 8 * x.count % 2 ^ 64 / 2 ^ 32 ∧ x.bitLenLo.toNat = 8 * x.count % 2 ^ 32

/-! ## The engine's commands -/

/-- R87: NOP responds OK and reads and writes no state. -/
def Obligations.NopRespondsOkOnly : Prop := ∀ s : State, exec .nop s = .next { s with rsp := some (okResponse 0) }

/-- R88: INIT constructs a plain engine. What holds where another live shared context exists too is stated without the premise;
the block is zero where none does, or where the new context has its own block. -/
def Obligations.InitConstructsPlainEngine : Prop :=
  ∀ (s : State) (c : Nat) (t sh : Bool),
    (s.ctxs[c]? = none → exec (.init c t sh) s = .next s.Refused) ∧
    ∀ x, s.ctxs[c]? = some x →
      ∃ u y, exec (.init c t sh) s = .next u ∧ u.ctxs[c]? = some y ∧ u.rsp = some (okResponse 0) ∧ u.stream = s.stream ∧
        y = { h := if t then iv224 else iv256, b := y.b, off := 0, cntLo := 0, cntHi := 0, fin := false, t := t, s := sh,
              m := false, kph := false, latch := false, klen := 0, ipad := Vector.replicate 64 0x00#8,
              opad := Vector.replicate 64 0x00#8, tainted := y.tainted } ∧
        s.OtherBufferKept x u y ∧
        (sh = false ∨ s.NoOtherLiveShared c →
          y.tainted = false ∧ u.blkOf y = Vector.replicate 16 0 ∧ s.SameBut c u ∧ u.draws = s.draws)

/-- R100: HINIT starts the key phase of an HMAC engine with the pads of the empty key. -/
def Obligations.HinitStartsKeyPhase : Prop :=
  ∀ (s : State) (c : Nat) (t sh : Bool),
    (s.ctxs[c]? = none → exec (.hinit c t sh) s = .next s.Refused) ∧
    ∀ x, s.ctxs[c]? = some x →
      ∃ u y, exec (.hinit c t sh) s = .next u ∧ u.ctxs[c]? = some y ∧ u.rsp = some (okResponse 0) ∧ u.stream = s.stream ∧
        y = { h := if t then iv224 else iv256, b := y.b, off := 0, cntLo := 0, cntHi := 0, fin := false, t := t, s := sh,
              m := true, kph := true, latch := false, klen := 0, ipad := Vector.replicate 64 0x36#8,
              opad := Vector.replicate 64 0x5c#8, tainted := y.tainted } ∧
        s.OtherBufferKept x u y ∧
        (sh = false ∨ s.NoOtherLiveShared c →
          y.tainted = false ∧ u.blkOf y = Vector.replicate 16 0 ∧ s.SameBut c u ∧ u.draws = s.draws)

/-- R82, R83, R89: PUSHB. -/
def Obligations.PushbTakesOneByte : Prop :=
  ∀ (s : State) (c : Nat) (b : Byte),
    (s.ctxs[c]? = none → exec (.pushb c b) s = .next s.Refused) ∧
    ∀ x, s.ctxs[c]? = some x →
      (x.kph = true → exec (.pushb c b) s = .next s.Refused) ∧
      (x.kph = false → x.fin = true → exec (.pushb c b) s = .next { s with rsp := some (okResponse 0) }) ∧
      (x.kph = false → x.fin = false →
        ∃ u y, exec (.pushb c b) s = .next u ∧ u.ctxs[c]? = some y ∧ u.rsp = some (okResponse 0) ∧ s.SameBut c u ∧
          s.OtherBufferKept x u y ∧
          y = { x with h := y.h, b := y.b, off := x.off + 1, cntLo := y.cntLo, cntHi := y.cntHi } ∧
          y.count64 = x.count64 + 1 ∧ (x.off ≠ 63 → y.h = x.h) ∧
          (x.tainted = false →
            u.draws = s.draws ∧
            (∀ i < 64, blockByte (u.blkOf y) i = if i = x.off.toNat then b else blockByte (s.blkOf x) i) ∧
            (x.off = 63 → y.h = compressWords x.h (u.blkOf y))))

/-- R84, R85: FINAL of an engine that owes no outer HMAC pass pads the block, appends the length, compresses once or twice, and
seals; of a sealed one it changes nothing. -/
def Obligations.FinalPadsAndSealsEngine : Prop :=
  ∀ (s : State) (c : Nat) (x : Ctx), s.ctxs[c]? = some x → x.kph = false → (x.m && x.latch) = false →
    (x.fin = true → exec (.final c) s = .next { s with rsp := some (okResponse 0) }) ∧
    (x.fin = false →
      ∃ u y, exec (.final c) s = .next u ∧ u.ctxs[c]? = some y ∧ u.rsp = some (okResponse 0) ∧ s.SameBut c u ∧
        s.OtherBufferKept x u y ∧ y = { x with h := y.h, b := y.b, fin := true } ∧
        (x.tainted = false →
          u.draws = s.draws ∧
          ∃ p : Block,
            (∀ i < 64, blockByte p i =
              if i < x.off.toNat then blockByte (s.blkOf x) i else if i = x.off.toNat then 0x80#8 else 0x00#8) ∧
            (∀ i < 56, blockByte (u.blkOf y) i = if x.off.toNat < 56 then blockByte p i else 0x00#8) ∧
            (u.blkOf y)[14].toNat * 2 ^ 32 + (u.blkOf y)[15].toNat = 8 * x.count % 2 ^ 64 ∧
            y.h = if x.off.toNat < 56 then compressWords x.h (u.blkOf y)
                  else compressWords (compressWords x.h p) (u.blkOf y)))

/-- R90, the refused forms, and "Idempotent: a second `FINAL` changes nothing and responds OK". -/
def Obligations.FinalRefusedOrIdempotent : Prop :=
  ∀ (s : State) (c : Nat),
    (s.ctxs[c]? = none → exec (.final c) s = .next s.Refused) ∧
    (∀ x, s.ctxs[c]? = some x → x.kph = true → exec (.final c) s = .next s.Refused) ∧
    (∀ u, exec (.final c) s = .next u → exec (.final c) u = .next u)

/-! ## Reads -/

/-- R93, R94: RDB finalizes as FINAL does and returns byte i of the accumulators, most-significant byte first; an index beyond the
digest is refused and does not finalize. -/
def Obligations.RdbReturnsDigestByte : Prop :=
  ∀ (s : State) (c i : Nat),
    (s.ctxs[c]? = none → exec (.rdb c i) s = .next s.Refused) ∧
    ∀ x, s.ctxs[c]? = some x →
      (x.kph = true → exec (.rdb c i) s = .next s.Refused) ∧
      ((if x.t then 28 else 32) ≤ i → exec (.rdb c i) s = .next s.Refused) ∧
      (x.kph = false → i < (if x.t then 28 else 32) →
        ∃ u y v, exec (.final c) s = .next u ∧ u.ctxs[c]? = some y ∧
          exec (.rdb c i) s = .next { u with rsp := some (okResponse v) } ∧
          v.toNat = (y.h.getD (i / 4) 0).toNat / 2 ^ (24 - 8 * (i % 4)) % 256)

/-- R95: RDW finalizes as FINAL does and returns accumulator word j; an index beyond the digest is refused and does not
finalize. -/
def Obligations.RdwReturnsDigestWord : Prop :=
  ∀ (s : State) (c j : Nat),
    (s.ctxs[c]? = none → exec (.rdw c j) s = .next s.Refused) ∧
    ∀ x, s.ctxs[c]? = some x →
      (x.kph = true → exec (.rdw c j) s = .next s.Refused) ∧
      ((if x.t then 28 else 32) ≤ 4 * j → exec (.rdw c j) s = .next s.Refused) ∧
      (x.kph = false → 4 * j < (if x.t then 28 else 32) →
        ∃ u y, exec (.final c) s = .next u ∧ u.ctxs[c]? = some y ∧
          exec (.rdw c j) s = .next { u with rsp := some (okResponse (y.h.getD j 0)) })

/-- R42 (d): RDW(j) returns the word whose bytes, most significant first, are RDB(4j) to RDB(4j+3). -/
def Obligations.WordReadIsFourByteReads : Prop :=
  ∀ (s : State) (c j : Nat) (x : Ctx), s.ctxs[c]? = some x → x.kph = false → 4 * j < x.dlen →
    ∃ (u : State) (b0 b1 b2 b3 : Word),
      exec (.rdb c (4 * j)) s = .next { u with rsp := some (okResponse b0) } ∧
      exec (.rdb c (4 * j + 1)) s = .next { u with rsp := some (okResponse b1) } ∧
      exec (.rdb c (4 * j + 2)) s = .next { u with rsp := some (okResponse b2) } ∧
      exec (.rdb c (4 * j + 3)) s = .next { u with rsp := some (okResponse b3) } ∧
      exec (.rdw c j) s =
        .next { u with rsp := some (okResponse ((b0 <<< 24) ||| (b1 <<< 16) ||| (b2 <<< 8) ||| b3)) }

/-- R31, R96: RDST returns the status word, each field in its place, and changes nothing else. -/
def Obligations.RdstReturnsStatusFields : Prop :=
  ∀ (s : State) (c : Nat),
    (s.ctxs[c]? = none → exec (.rdst c) s = .next s.Refused) ∧
    ∀ x, s.ctxs[c]? = some x →
      ∃ v : Word, exec (.rdst c) s = .next { s with rsp := some (okResponse v) } ∧
        v.toNat = x.fin.toNat + 2 * x.t.toNat + 4 * x.s.toNat + 8 * x.m.toNat + 16 * x.kph.toNat + 32 * x.latch.toNat
          + 2 ^ 8 * x.off.toNat + 2 ^ 16 * x.klen.toNat

/-- R97: RDCNT returns the low or the high byte counter and changes nothing else. -/
def Obligations.RdcntReturnsCounter : Prop :=
  ∀ (s : State) (c : Nat),
    (∀ n, s.ctxs[c]? = none → exec (.rdcnt c n) s = .next s.Refused) ∧
    ∀ x, s.ctxs[c]? = some x →
      exec (.rdcnt c false) s = .next { s with rsp := some (okResponse x.cntLo) } ∧
      exec (.rdcnt c true) s = .next { s with rsp := some (okResponse x.cntHi) }

/-! ## The HMAC wrapper -/

/-- R101: KEYB. (In key phase FIN is 0: R34 (i), part of `StepKeepsStateInvariant`.) -/
def Obligations.KeybTakesOneKeyByte : Prop :=
  ∀ (s : State) (c : Nat) (b : Byte),
    (s.ctxs[c]? = none → exec (.keyb c b) s = .next s.Refused) ∧
    ∀ x, s.ctxs[c]? = some x →
      (x.m = false ∨ x.kph = false → exec (.keyb c b) s = .next s.Refused) ∧
      (x.m = true → x.kph = true → x.fin = false →
        ∃ u y, exec (.keyb c b) s = .next u ∧ u.ctxs[c]? = some y ∧ u.rsp = some (okResponse 0) ∧ s.SameBut c u ∧
          s.OtherBufferKept x u y ∧
          y = { x with h := y.h, b := y.b, off := x.off + 1, cntLo := y.cntLo, cntHi := y.cntHi,
                       klen := if x.klen.toNat < 65 then x.klen + 1 else x.klen, ipad := y.ipad, opad := y.opad } ∧
          (∀ (i : Nat) (h : i < 64),
            y.ipad[i] = (if i = x.klen.toNat then b ^^^ 0x36#8 else x.ipad[i]) ∧
            y.opad[i] = (if i = x.klen.toNat then b ^^^ 0x5c#8 else x.opad[i])) ∧
          y.count64 = x.count64 + 1 ∧ (x.off ≠ 63 → y.h = x.h) ∧
          (x.tainted = false →
            u.draws = s.draws ∧
            (∀ i < 64, blockByte (u.blkOf y) i = if i = x.off.toNat then b else blockByte (s.blkOf x) i) ∧
            (x.off = 63 → y.h = compressWords x.h (u.blkOf y))))

/-- R102: KEYEND. The hash of a long key is what FINAL makes of the same context as a plain engine. (In key phase FIN is 0: R34
(i), part of `StepKeepsStateInvariant`.) -/
def Obligations.KeyendCompletesPads : Prop :=
  ∀ (s : State) (c : Nat),
    (s.ctxs[c]? = none → exec (.keyend c) s = .next s.Refused) ∧
    ∀ x, s.ctxs[c]? = some x →
      (x.m = false ∨ x.kph = false → exec (.keyend c) s = .next s.Refused) ∧
      (x.m = true → x.kph = true → x.fin = false →
        ∃ u y, exec (.keyend c) s = .next u ∧ u.ctxs[c]? = some y ∧ u.rsp = some (okResponse 0) ∧ s.SameBut c u ∧
          s.OtherBufferKept x u y ∧
          y = { x with h := y.h, b := y.b, off := 0, cntLo := 64, cntHi := 0, fin := false, kph := false, latch := true,
                       ipad := y.ipad, opad := y.opad } ∧
          (x.klen.toNat ≤ 64 → y.ipad = x.ipad ∧ y.opad = x.opad) ∧
          (x.tainted = false →
            u.draws = s.draws ∧
            (64 < x.klen.toNat →
              ∃ w z, exec (.final c) { s with ctxs := s.ctxs.set c { x with m := false, kph := false } } = .next w ∧
                w.ctxs[c]? = some z ∧
                ∀ (i : Nat) (h : i < 64),
                  y.ipad[i] = (if i < x.dlen then hashByte z.h i else 0x00#8) ^^^ 0x36#8 ∧
                  y.opad[i] = (if i < x.dlen then hashByte z.h i else 0x00#8) ^^^ 0x5c#8) ∧
            (∀ (i : Nat) (h : i < 64), blockByte (u.blkOf y) i = y.ipad[i]) ∧
            y.h = compressWords (if x.t then iv224 else iv256) (u.blkOf y)))

/-- R86, R103: the first FINAL of an HMAC engine completes the inner hash, then hashes outer pad and inner digest from a fresh
engine. The inner digest is what FINAL makes of the same context as a plain engine. -/
def Obligations.FinalRunsOuterPassOnce : Prop :=
  ∀ (s : State) (c : Nat) (x : Ctx), s.ctxs[c]? = some x → x.kph = false → x.fin = false → x.m = true → x.latch = true →
    ∃ u y, exec (.final c) s = .next u ∧ u.ctxs[c]? = some y ∧ u.rsp = some (okResponse 0) ∧ s.SameBut c u ∧
      s.OtherBufferKept x u y ∧
      y = { x with h := y.h, b := y.b, off := if x.t then 28 else 32, cntLo := if x.t then 92 else 96, cntHi := 0,
                   fin := true, latch := false } ∧
      (x.tainted = false →
        u.draws = s.draws ∧
        ∃ w z, exec (.final c) { s with ctxs := s.ctxs.set c { x with m := false } } = .next w ∧ w.ctxs[c]? = some z ∧
          y.h = foldBlocks x.t (padMessage (x.opad.toList ++ (List.range x.dlen).map (hashByte z.h))) ∧
          (∀ i < 56, blockByte (u.blkOf y) i =
            if i < x.dlen then hashByte z.h i else if i = x.dlen then 0x80#8 else 0x00#8) ∧
          (u.blkOf y)[14] = 0 ∧ (u.blkOf y)[15] = if x.t then 0x2E0 else 0x300)

/-- R34 (vii), R101: after HINIT and any sequence of key bytes the counters hold their number modulo 2^64, KLEN their number up to
65, and the pads the first 64 of them, zero-padded. -/
def Obligations.KeyPhaseCountsAndKeepsKeyBytes : Prop :=
  ∀ (s : State) (c : Nat) (t sh : Bool) (key : List Byte), c < s.ctxs.length → (sh = false ∨ s.NoOtherLiveShared c) →
    ∃ u rs y, drive (.hinit c t sh :: key.map (.keyb c)) s = some (u, rs) ∧ u.ctxs[c]? = some y ∧
      (∀ r ∈ rs, r = okResponse 0) ∧ y.m = true ∧ y.kph = true ∧ y.fin = false ∧
      y.count = key.length % 2 ^ 64 ∧ y.klen.toNat = min key.length 65 ∧
      ∀ (i : Nat) (h : i < 64), y.ipad[i] = key.getD i 0 ^^^ 0x36#8 ∧ y.opad[i] = key.getD i 0 ^^^ 0x5c#8

/-- R46: in key phase no response to any command on the context depends on the accumulators, the block or the pads, which is where
the key bytes are. -/
def Obligations.KeyPhaseResponsesHideKey : Prop :=
  ∀ (s u : State) (c : Nat) (x y : Ctx) (i : Instr),
    s.ctxs[c]? = some x → u.ctxs[c]? = some y → x.m = true → x.kph = true →
    y = { x with h := y.h, b := y.b, ipad := y.ipad, opad := y.opad, tainted := y.tainted } → i.ctx? = some c →
    ∃ s' u', exec i s = .next s' ∧ exec i u = .next u' ∧ s'.rsp = u'.rsp

/-! ## What whole command sequences compute -/

/-- A plain engine fed any byte sequence gives the digest of the padded sequence: SHA-256, or its 224-bit variant. From 2^61 bytes
on, `shaDigest` has the spec's length field, the bit length modulo 2^64 (R85; 93_implementation_defined.md U5), and is not the
standard's digest, which the standard does not define there. -/
def Obligations.HashCommandsComputeShaDigest : Prop :=
  ∀ (s : State) (c : Nat) (t sh : Bool) (m : List Byte), c < s.ctxs.length → (sh = false ∨ s.NoOtherLiveShared c) →
    ∃ u rs, drive (hashEngine c t sh ++ update c m ++ digestCall c t) s = some (u, rs) ∧
      rs.length = 1 + m.length + dlenOf t ∧ (∀ r ∈ rs, r.err = false) ∧
      bytesOf (rs.drop (1 + m.length)) = shaDigest t m

/-- R104: an HMAC engine given any key and any message gives Hash_T(opad ‖ Hash_T(ipad ‖ msg)). `Hash_T` of 2^61 bytes or more is
the spec's (U5), as in `HashCommandsComputeShaDigest`. -/
def Obligations.HmacCommandsComputeClosedForm : Prop :=
  ∀ (s : State) (c : Nat) (t sh : Bool) (key msg : List Byte), c < s.ctxs.length → (sh = false ∨ s.NoOtherLiveShared c) →
    ∃ u rs, drive (hmacEngine c key t sh ++ update c msg ++ digestCall c t) s = some (u, rs) ∧
      rs.length = 2 + key.length + msg.length + dlenOf t ∧ (∀ r ∈ rs, r.err = false) ∧
      bytesOf (rs.drop (2 + key.length + msg.length)) = hmacDigest t key msg

/-- R91 (b): what the block held from the fill offset on reaches no digest. -/
def Obligations.StaleBlockBytesNeverMatter : Prop :=
  ∀ (s u : State) (c : Nat) (x y : Ctx), s.ctxs[c]? = some x → u.ctxs[c]? = some y →
    x.tainted = false → x.fin = false → x.kph = false → y = { x with b := y.b } →
    (∀ i < x.off.toNat, blockByte (s.blkOf x) i = blockByte (u.blkOf y) i) →
    (∀ b : Byte, ∃ s' u' x' y',
      exec (.pushb c b) s = .next s' ∧ exec (.pushb c b) u = .next u' ∧ s'.ctxs[c]? = some x' ∧ u'.ctxs[c]? = some y' ∧
      y' = { x' with b := y'.b } ∧ ∀ i < x'.off.toNat, blockByte (s'.blkOf x') i = blockByte (u'.blkOf y') i) ∧
    ∀ j : Nat, ∃ s' u', exec (.rdw c j) s = .next s' ∧ exec (.rdw c j) u = .next u' ∧ s'.rsp = u'.rsp

/-- R47 (b): commands to different contexts commute when neither uses the shared block. -/
def Obligations.CommandsOnPrivateContextsCommute : Prop :=
  ∀ (s : State) (i j : Instr) (a b : Nat), s.Ok → i.ctx? = some a → j.ctx? = some b → a ≠ b →
    (∀ x, s.ctxs[a]? = some x → x.s = false) → (∀ x, s.ctxs[b]? = some x → x.s = false) →
    privately i = i → privately j = j →
    ∃ u v u' v', exec i s = .next u ∧ exec j u = .next v ∧ exec j s = .next u' ∧ exec i u' = .next v' ∧
      u.rsp = v'.rsp ∧ v.rsp = u'.rsp ∧ { v with rsp := none } = { v' with rsp := none }

/-- R141: under the contract a block that shares its scratch answers every command as one that does not, but for the bit S that
RDST shows. -/
def Obligations.SharedScratchBehavesLikePrivate : Prop :=
  ∀ (s u : State) (i : Instr), s.Ok → s.Untainted → SharesLike s u →
    ∃ s' u', exec i s = .next s' ∧ exec (privately i) u = .next u' ∧
      (s'.Contract →
        s'.Untainted ∧ SharesLike s' u' ∧
        ((∀ c, i ≠ .rdst c) → s'.rsp = u'.rsp) ∧
        (∀ c, i = .rdst c →
          s'.rsp.map (fun r => (r.err, r.data &&& ~~~(0x4#32))) = u'.rsp.map (fun r => (r.err, r.data))))

/-- R142, the model's reading (log entry 4): the command that makes a second live shared context responds OK and marks both. -/
def Obligations.SecondLiveSharedContextIsMarked : Prop :=
  ∀ (s : State) (c d : Nat) (t : Bool) (x z : Ctx),
    s.ctxs[c]? = some x → s.ctxs[d]? = some z → c ≠ d → z.liveShared = true →
    (∃ u y, exec (.init c t true) s = .next u ∧ u.rsp = some (okResponse 0) ∧ u.ctxs[c]? = some y ∧ y.tainted = true ∧
      u.ctxs[d]? = some { z with tainted := true }) ∧
    (∃ u y, exec (.hinit c t true) s = .next u ∧ u.rsp = some (okResponse 0) ∧ u.ctxs[c]? = some y ∧ y.tainted = true ∧
      u.ctxs[d]? = some { z with tainted := true })

/-- R142, what a breach of the contract leaves specified: whether a command is accepted, and every control field, are those of the
same state with no context tainted; and no other context's accumulators, block or pads change. -/
def Obligations.BreachLeavesControlSpecified : Prop :=
  ∀ (s : State) (i : Instr),
    ∃ u v, exec i s = .next u ∧ exec i { s with ctxs := s.ctxs.map Ctx.cleaned } = .next v ∧
      u.rsp.map (·.err) = v.rsp.map (·.err) ∧
      ((∃ c, i = .rdst c) ∨ (∃ c n, i = .rdcnt c n) → u.rsp = v.rsp) ∧
      u.ctxs.map Ctx.control = v.ctxs.map Ctx.control ∧
      (∀ d x, i.ctx? ≠ some d → s.ctxs[d]? = some x → ∃ y, u.ctxs[d]? = some y ∧ y = { x with tainted := y.tainted })

/-! ## The host's conversions -/

/-- R112: the bytes of every code unit outside 0xD800 to 0xDFFF, of every pair, and of a half at the end of the text. -/
def Obligations.TextToBytesByClasses : Prop :=
  textToBytes [] = [] ∧
  (∀ (u : CodeUnit) (rest : List CodeUnit), u.toNat < 0xD800 ∨ 0xE000 ≤ u.toNat →
    (textToBytes (u :: rest)).map BitVec.toNat =
      (if u.toNat < 0x80 then [u.toNat]
       else if u.toNat < 0x800 then [0xC0 + u.toNat / 64, 0x80 + u.toNat % 64]
       else [0xE0 + u.toNat / 4096, 0x80 + u.toNat / 64 % 64, 0x80 + u.toNat % 64])
      ++ (textToBytes rest).map BitVec.toNat) ∧
  (∀ (u y : CodeUnit) (rest : List CodeUnit), 0xD800 ≤ u.toNat → u.toNat < 0xE000 →
    ∃ p, p = 0x10000 + (u.toNat % 1024 * 1024 + y.toNat % 1024) ∧
      (textToBytes (u :: y :: rest)).map BitVec.toNat =
        [0xF0 + p / 262144, 0x80 + p / 4096 % 64, 0x80 + p / 64 % 64, 0x80 + p % 64] ++ (textToBytes rest).map BitVec.toNat) ∧
  (∀ u : CodeUnit, 0xD800 ≤ u.toNat → u.toNat < 0xE000 → textToBytes [u] = textToBytes [u, 0])

/-- R115: hex() is two characters a byte, high nibble first, bytes in order. -/
def Obligations.HexRendersEachByteTwice : Prop :=
  ∀ (bs : List Byte), (hexChars bs).length = 2 * bs.length ∧
    ∀ (k : Nat) (b : Byte), bs[k]? = some b →
      (hexChars bs)[2 * k]? = "0123456789abcdef".toList[b.toNat / 16]? ∧
      (hexChars bs)[2 * k + 1]? = "0123456789abcdef".toList[b.toNat % 16]?
end

