-- ==== Sys2Proof/Laws/Decode.lean ====
section
/-! SUPPORT. What the decoder can answer, and what the encoder puts in each field. -/

namespace Sys2Proof

/-- No two rows of the opcode map have a word in common (R56: "The masks are disjoint by `op`"). -/
theorem opcodeRows_disjoint :
    opcodeRows.Pairwise fun r q => r.pattern &&& 0xF000#16 ≠ q.pattern &&& 0xF000#16 := by decide

/-- Every row fixes the opcode field, and to its place in the map (R56). -/
theorem opcodeRows_fix_op :
    ∀ n < 11, ∃ r, opcodeRows[n]? = some r ∧ r.mask &&& 0xF000#16 = 0xF000#16 ∧ opField r.pattern = n := by decide

/-- The decoder answers in one of three ways (R59 steps 1 and 2). -/
theorem decode_cases (w : Cmd) :
    decode w = .error .reservedOpcode ∨ decode w = .error .reservedBits ∨
      ∃ r i, opcodeRows[opField w]? = some r ∧ operandsOf (opField w) w = some i ∧ r.spells w = true ∧ decode w = .ok i := by
  unfold decode
  split
  next r i hr hi =>
    split
    next hs => exact .inr (.inr ⟨r, i, hr, hi, hs, rfl⟩)
    next => exact .inr (.inl rfl)
  next => exact .inl rfl

/-- The three fields of `fields` read back (R51). -/
theorem fields_op (op : BitVec 4) (c : Nat) (a : Byte) : opField (fields op c a) = op.toNat := by
  have : (fields op c a).extractLsb' 12 4 = op := by
    ext i hi
    simp only [fields, BitVec.getElem_extractLsb', BitVec.getLsbD_append]
    have h1 : ¬ 12 + i < 8 := by omega
    have h2 : ¬ 12 + i - 8 < 4 := by omega
    have h3 : 12 + i - 8 - 4 = i := by omega
    simp [h1, h2, h3, BitVec.getLsbD_eq_getElem hi]
  rw [opField, this]

theorem fields_ctx (op : BitVec 4) (c : Nat) (a : Byte) (h : c < 16) : ctxField (fields op c a) = c := by
  have : (fields op c a).extractLsb' 8 4 = BitVec.ofNat 4 c := by
    ext i hi
    simp only [fields, BitVec.getElem_extractLsb', BitVec.getLsbD_append]
    have h1 : ¬ 8 + i < 8 := by omega
    have h2 : 8 + i - 8 = i := by omega
    simp [h1, h2, hi]
  rw [ctxField, this]
  simp only [BitVec.toNat_ofNat]
  omega

theorem fields_arg (op : BitVec 4) (c : Nat) (a : Byte) : argField (fields op c a) = a := by
  have : (fields op c a).extractLsb' 0 8 = a := by
    ext i hi
    simp only [fields, BitVec.getElem_extractLsb', BitVec.getLsbD_append]
    have h2 : 0 + i = i := by omega
    simp [h2, hi]
  rw [argField, this]

end Sys2Proof
end

