-- ==== Sys2Proof/Laws/State.lean ====
section
/-! SUPPORT. One lemma per field per update of the state, the view and the context, each true by rfl, so that no later proof
unfolds a record update; and the shape of the state after reset. -/

namespace Sys2Proof.Machine

section responses
variable (s : State) (v : Word)

@[simp] theorem State.respondOk_scr : (s.respondOk v).scr = s.scr := rfl
@[simp] theorem State.respondOk_ctxs : (s.respondOk v).ctxs = s.ctxs := rfl
@[simp] theorem State.respondOk_rsp : (s.respondOk v).rsp = some { err := false, data := v } := rfl
@[simp] theorem State.respondOk_stream : (s.respondOk v).stream = s.stream := rfl
@[simp] theorem State.respondOk_draws : (s.respondOk v).draws = s.draws := rfl
@[simp] theorem State.respondErr_scr : s.respondErr.scr = s.scr := rfl
@[simp] theorem State.respondErr_ctxs : s.respondErr.ctxs = s.ctxs := rfl
@[simp] theorem State.respondErr_rsp : s.respondErr.rsp = some { err := true, data := 0 } := rfl
@[simp] theorem State.respondErr_stream : s.respondErr.stream = s.stream := rfl
@[simp] theorem State.respondErr_draws : s.respondErr.draws = s.draws := rfl
end responses

section inputs
variable (s : State) (w : Cmd)

@[simp] theorem State.taken_scr : s.taken.scr = s.scr := rfl
@[simp] theorem State.taken_ctxs : s.taken.ctxs = s.ctxs := rfl
@[simp] theorem State.taken_rsp : s.taken.rsp = s.rsp := rfl
@[simp] theorem State.taken_stream : s.taken.stream = s.stream.tail := rfl
@[simp] theorem State.taken_draws : s.taken.draws = s.draws := rfl
@[simp] theorem State.present_scr : (s.present w).scr = s.scr := rfl
@[simp] theorem State.present_ctxs : (s.present w).ctxs = s.ctxs := rfl
@[simp] theorem State.present_rsp : (s.present w).rsp = s.rsp := rfl
@[simp] theorem State.present_stream : (s.present w).stream = .cmd w :: s.stream := rfl
@[simp] theorem State.present_draws : (s.present w).draws = s.draws := rfl
@[simp] theorem State.taken_present : (s.present w).taken = s := rfl
@[simp] theorem State.restart_scr : s.restart.scr = Vector.replicate 16 0 := rfl
@[simp] theorem State.restart_ctxs : s.restart.ctxs = List.replicate s.ctxs.length Ctx.reset := rfl
@[simp] theorem State.restart_rsp : s.restart.rsp = none := rfl
@[simp] theorem State.restart_stream : s.restart.stream = s.stream := rfl
@[simp] theorem State.restart_draws : s.restart.draws = s.draws := rfl
end inputs

section views
variable (s : State) (x : Ctx)

@[simp] theorem State.view_ctx : (s.view x).ctx = x := rfl
@[simp] theorem State.view_blk : (s.view x).blk = s.blkOf x := rfl
@[simp] theorem State.view_draws : (s.view x).draws = s.draws := rfl
@[simp] theorem State.view_work : (s.view x).work = 0 := rfl
end views

section construction
variable (x : Ctx) (t sh : Bool)

@[simp] theorem Ctx.asPlain_h : (x.asPlain t sh).h = x.h := rfl
@[simp] theorem Ctx.asPlain_b : (x.asPlain t sh).b = x.b := rfl
@[simp] theorem Ctx.asPlain_t : (x.asPlain t sh).t = t := rfl
@[simp] theorem Ctx.asPlain_s : (x.asPlain t sh).s = sh := rfl
@[simp] theorem Ctx.asPlain_m : (x.asPlain t sh).m = false := rfl
@[simp] theorem Ctx.asPlain_kph : (x.asPlain t sh).kph = false := rfl
@[simp] theorem Ctx.asPlain_latch : (x.asPlain t sh).latch = false := rfl
@[simp] theorem Ctx.asPlain_klen : (x.asPlain t sh).klen = 0 := rfl
@[simp] theorem Ctx.asPlain_tainted : (x.asPlain t sh).tainted = false := rfl
@[simp] theorem Ctx.asHmac_h : (x.asHmac t sh).h = x.h := rfl
@[simp] theorem Ctx.asHmac_b : (x.asHmac t sh).b = x.b := rfl
@[simp] theorem Ctx.asHmac_t : (x.asHmac t sh).t = t := rfl
@[simp] theorem Ctx.asHmac_s : (x.asHmac t sh).s = sh := rfl
@[simp] theorem Ctx.asHmac_m : (x.asHmac t sh).m = true := rfl
@[simp] theorem Ctx.asHmac_kph : (x.asHmac t sh).kph = true := rfl
@[simp] theorem Ctx.asHmac_latch : (x.asHmac t sh).latch = false := rfl
@[simp] theorem Ctx.asHmac_klen : (x.asHmac t sh).klen = 0 := rfl
@[simp] theorem Ctx.asHmac_tainted : (x.asHmac t sh).tainted = false := rfl
end construction

/-- Every context after reset is `Ctx.reset` (R35). -/
theorem State.resetOf_ctx {n c : Nat} (h : c < n) : (State.resetOf n).ctxs[c]? = some Ctx.reset := by
  simp [State.resetOf, h]

theorem State.resetOf_length (n : Nat) : (State.resetOf n).ctxs.length = n := by simp [State.resetOf]

end Sys2Proof.Machine
end

