-- ==== Sys2Proof/Laws/Ops.lean ====
section
/-! SUPPORT. One lemma per shared operation that says once everything it can do: what it does in an untainted context, and what it
leaves alone in every context. Later proofs cite these and unfold no operation. -/

namespace Sys2Proof.Machine

/-! ## Free values: an operation in an untainted context draws none -/

theorem View.putHash_clean {v : View} (h : v.ctx.tainted = false) (w : Vector Word 8) :
    v.putHash w = { v with ctx := { v.ctx with h := w } } := by simp [View.putHash, h]

theorem View.putBlk_clean {v : View} (h : v.ctx.tainted = false) (x : Block) : v.putBlk x = { v with blk := x } := by
  simp [View.putBlk, h]

/-- Whatever the accumulators become, every other field of the context and the block stay. -/
theorem View.putHash_frame (v : View) (w : Vector Word 8) :
    ∃ h d, v.putHash w = { v with ctx := { v.ctx with h := h }, draws := d } := by
  unfold View.putHash
  split
  · exact ⟨_, _, rfl⟩
  · exact ⟨_, _, rfl⟩

/-- Whatever the block becomes, the context stays. -/
theorem View.putBlk_frame (v : View) (x : Block) : ∃ b d, v.putBlk x = { v with blk := b, draws := d } := by
  unfold View.putBlk
  split
  · exact ⟨_, _, rfl⟩
  · exact ⟨_, _, rfl⟩

/-! ## Block access -/

@[simp] theorem View.blkWrite_ctx (v : View) (j : Nat) (w : Word) : (v.blkWrite j w).ctx = v.ctx := by
  obtain ⟨b, d, h⟩ := v.putBlk_frame (v.blk.setIfInBounds j w)
  simp [View.blkWrite, h]

@[simp] theorem View.blkWrite_work (v : View) (j : Nat) (w : Word) : (v.blkWrite j w).work = v.work := by
  obtain ⟨b, d, h⟩ := v.putBlk_frame (v.blk.setIfInBounds j w)
  simp [View.blkWrite, h]

@[simp] theorem View.blkByteWrite_ctx (v : View) (i : Nat) (b : Byte) : (v.blkByteWrite i b).ctx = v.ctx := by
  obtain ⟨y, d, h⟩ := v.putBlk_frame (blockPutByte v.blk i b)
  simp [View.blkByteWrite, h]

@[simp] theorem View.blkByteWrite_work (v : View) (i : Nat) (b : Byte) : (v.blkByteWrite i b).work = v.work := by
  obtain ⟨y, d, h⟩ := v.putBlk_frame (blockPutByte v.blk i b)
  simp [View.blkByteWrite, h]

theorem View.blkWrite_clean {v : View} (h : v.ctx.tainted = false) (j : Nat) (w : Word) :
    v.blkWrite j w = { v with blk := v.blk.setIfInBounds j w } := View.putBlk_clean h _

theorem View.blkByteWrite_clean {v : View} (h : v.ctx.tainted = false) (i : Nat) (b : Byte) :
    v.blkByteWrite i b = { v with blk := blockPutByte v.blk i b } := View.putBlk_clean h _

/-- A fold of word writes over the block keeps the context, and in an untainted context it is a fold over the block alone. -/
theorem View.foldl_blkWrite (l : List (Nat × Word)) :
    ∀ v : View, (l.foldl (fun u p => u.blkWrite p.1 p.2) v).ctx = v.ctx
      ∧ (l.foldl (fun u p => u.blkWrite p.1 p.2) v).work = v.work
      ∧ (v.ctx.tainted = false → l.foldl (fun u p => u.blkWrite p.1 p.2) v
          = { v with blk := l.foldl (fun x p => x.setIfInBounds p.1 p.2) v.blk }) := by
  induction l with
  | nil => intro v; exact ⟨rfl, rfl, fun _ => rfl⟩
  | cons p l ih =>
    intro v
    obtain ⟨h1, h2, h3⟩ := ih (v.blkWrite p.1 p.2)
    refine ⟨by simpa using h1, by simpa using h2, fun h => ?_⟩
    have := h3 (by simpa using h)
    rw [List.foldl_cons, this, View.blkWrite_clean h]
    rfl

/-- The same for byte writes. -/
theorem View.foldl_blkByteWrite (l : List (Nat × Byte)) :
    ∀ v : View, (l.foldl (fun u p => u.blkByteWrite p.1 p.2) v).ctx = v.ctx
      ∧ (l.foldl (fun u p => u.blkByteWrite p.1 p.2) v).work = v.work
      ∧ (v.ctx.tainted = false → l.foldl (fun u p => u.blkByteWrite p.1 p.2) v
          = { v with blk := l.foldl (fun x p => blockPutByte x p.1 p.2) v.blk }) := by
  induction l with
  | nil => intro v; exact ⟨rfl, rfl, fun _ => rfl⟩
  | cons p l ih =>
    intro v
    obtain ⟨h1, h2, h3⟩ := ih (v.blkByteWrite p.1 p.2)
    refine ⟨by simpa using h1, by simpa using h2, fun h => ?_⟩
    have := h3 (by simpa using h)
    rw [List.foldl_cons, this, View.blkByteWrite_clean h]
    rfl

theorem View.blkZero_eq (v : View) :
    v.blkZero = ((List.range 16).map fun j => (j, (0 : Word))).foldl (fun u p => u.blkWrite p.1 p.2) v := by
  simp [View.blkZero, List.foldl_map]

@[simp] theorem View.blkZero_ctx (v : View) : v.blkZero.ctx = v.ctx := by
  rw [View.blkZero_eq]; exact (View.foldl_blkWrite _ v).1

@[simp] theorem View.blkZero_work (v : View) : v.blkZero.work = v.work := by
  rw [View.blkZero_eq]; exact (View.foldl_blkWrite _ v).2.1

/-- Word writes of zero leave zero in every position written, and in every position that held zero. -/
theorem foldl_zero_words (l : List Nat) (i : Nat) (hi : i < 16) :
    ∀ x : Block, i ∈ l ∨ x[i] = 0 →
      ((l.map fun j => (j, (0 : Word))).foldl (fun (y : Block) p => y.setIfInBounds p.1 p.2) x)[i] = 0 := by
  induction l with
  | nil => intro x hx; simpa using hx
  | cons j l ih =>
    intro x hx
    refine ih _ ?_
    by_cases hij : j = i
    · right; simp [hij]
    · rcases hx with hx | hx
      · rcases List.mem_cons.mp hx with e | e
        · exact absurd e.symm hij
        · exact .inl e
      · right; rw [Vector.getElem_setIfInBounds_ne hi hij]; exact hx

/-- Sixteen zero words, whatever the block held (R81, R84). -/
theorem View.blkZero_clean {v : View} (h : v.ctx.tainted = false) :
    v.blkZero = { v with blk := Vector.replicate 16 0 } := by
  have key : ((List.range 16).map fun j => (j, (0 : Word))).foldl (fun (y : Block) p => y.setIfInBounds p.1 p.2) v.blk
      = Vector.replicate 16 0 := by
    apply Vector.ext
    intro i hi
    rw [foldl_zero_words _ i hi _ (.inl (List.mem_range.mpr hi)), Vector.getElem_replicate]
  rw [View.blkZero_eq, (View.foldl_blkWrite _ v).2.2 h, key]

theorem View.blkZeroFrom_eq (v : View) (i : Nat) :
    v.blkZeroFrom i
      = ((List.range' i (64 - i)).map fun j => (j, (0 : Byte))).foldl (fun u p => u.blkByteWrite p.1 p.2) v := by
  simp [View.blkZeroFrom, List.foldl_map]

@[simp] theorem View.blkZeroFrom_ctx (v : View) (i : Nat) : (v.blkZeroFrom i).ctx = v.ctx := by
  rw [View.blkZeroFrom_eq]; exact (View.foldl_blkByteWrite _ v).1

@[simp] theorem View.blkZeroFrom_work (v : View) (i : Nat) : (v.blkZeroFrom i).work = v.work := by
  rw [View.blkZeroFrom_eq]; exact (View.foldl_blkByteWrite _ v).2.1

theorem View.blkZeroFrom_clean {v : View} (h : v.ctx.tainted = false) (i : Nat) :
    v.blkZeroFrom i
      = { v with blk := (List.range' i (64 - i)).foldl (fun x j => blockPutByte x j 0) v.blk } := by
  rw [View.blkZeroFrom_eq, (View.foldl_blkByteWrite _ v).2.2 h]
  simp [List.foldl_map]

/-! ## Engine procedures -/

theorem View.compress_clean {v : View} (h : v.ctx.tainted = false) :
    v.compress = { v with ctx := { v.ctx with h := compressWords v.ctx.h v.blk }, work := v.work + 1 } := by
  simp [View.compress, View.putHash_clean h]

/-- A compression changes the accumulators only, in a tainted context too (R78). -/
theorem View.compress_frame (v : View) :
    ∃ h d, v.compress = { v with ctx := { v.ctx with h := h }, draws := d, work := v.work + 1 } := by
  obtain ⟨h, d, e⟩ := v.putHash_frame (compressWords v.ctx.h v.blk)
  exact ⟨h, d, by simp [View.compress, e]⟩

/-- `EngineReset` of an untainted context (R81). -/
theorem View.engineReset_clean {v : View} (h : v.ctx.tainted = false) :
    v.engineReset =
      { v with
        ctx := { v.ctx with h := ivOf v.ctx.t, off := 0, cntLo := 0, cntHi := 0, fin := false }
        blk := Vector.replicate 16 0 } := by
  have := View.blkZero_clean (v := { v with ctx := { v.ctx with h := ivOf v.ctx.t } }) h
  simp [View.engineReset, this]

/-- `EngineReset` writes these fields of the context and no other, in a tainted context too (R81). -/
@[simp] theorem View.engineReset_ctx (v : View) :
    v.engineReset.ctx = { v.ctx with h := ivOf v.ctx.t, off := 0, cntLo := 0, cntHi := 0, fin := false } := by
  simp [View.engineReset]

@[simp] theorem View.engineReset_work (v : View) : v.engineReset.work = v.work := by simp [View.engineReset]

/-- `CountByte` writes the two counters and nothing else (R83). -/
theorem Ctx.countByte_frame (x : Ctx) : ∃ lo hi, x.countByte = { x with cntLo := lo, cntHi := hi } := by
  unfold Ctx.countByte
  split
  · exact ⟨_, _, rfl⟩
  · exact ⟨_, x.cntHi, rfl⟩

/-- A sealed engine takes no byte (R82). -/
theorem View.pushByte_sealed {v : View} (h : v.ctx.fin = true) (b : Byte) : v.pushByte b = v := by
  simp [View.pushByte, h]

theorem View.pushBytes_sealed {v : View} (h : v.ctx.fin = true) (bs : List Byte) : v.pushBytes bs = v := by
  induction bs with
  | nil => rfl
  | cons b bs ih =>
    have : v.pushBytes (b :: bs) = (v.pushByte b).pushBytes bs := rfl
    rw [this, View.pushByte_sealed h, ih]

/-- What one byte can change in a context: the accumulators, the offset and the counters (R82). -/
theorem View.pushByte_ctx (v : View) (b : Byte) :
    ∃ h lo hi off, (v.pushByte b).ctx = { v.ctx with h := h, cntLo := lo, cntHi := hi, off := off } := by
  unfold View.pushByte
  split
  · exact ⟨_, _, _, _, rfl⟩
  · obtain ⟨lo, hi, hc⟩ := v.ctx.countByte_frame
    split
    · obtain ⟨h, d, e⟩ := View.compress_frame
        { v.blkByteWrite v.ctx.off.toNat b with ctx := (v.blkByteWrite v.ctx.off.toNat b).ctx.countByte }
      refine ⟨h, lo, hi, 0, ?_⟩
      simp only [e]
      simp [hc]
    · refine ⟨v.ctx.h, lo, hi, v.ctx.off + 1, ?_⟩
      simp [hc]

/-- What a sequence of bytes can change in a context: the same fields. -/
theorem View.pushBytes_ctx (bs : List Byte) :
    ∀ v : View, ∃ h lo hi off, (v.pushBytes bs).ctx = { v.ctx with h := h, cntLo := lo, cntHi := hi, off := off } := by
  induction bs with
  | nil => intro v; exact ⟨_, _, _, _, rfl⟩
  | cons b bs ih =>
    intro v
    obtain ⟨h, lo, hi, off, e⟩ := ih (v.pushByte b)
    obtain ⟨h', lo', hi', off', e'⟩ := v.pushByte_ctx b
    exact ⟨h, lo, hi, off, by rw [show v.pushBytes (b :: bs) = (v.pushByte b).pushBytes bs from rfl, e, e']⟩

@[simp] theorem View.padMarker_ctx (v : View) : v.padMarker.ctx = v.ctx := by simp [View.padMarker]

/-- The length field and the last compression change the accumulators only. -/
theorem View.padLength_ctx (v : View) : ∃ h, v.padLength.ctx = { v.ctx with h := h } := by
  obtain ⟨h, d, e⟩ := ((v.blkWrite 14 v.ctx.bitLenHi).blkWrite 15 v.ctx.bitLenLo).compress_frame
  exact ⟨h, by simp [View.padLength, e]⟩

/-- A sealed engine is not finalized again (R84). -/
theorem View.baseFinalize_sealed {v : View} (h : v.ctx.fin = true) : v.baseFinalize = v := by
  simp [View.baseFinalize, h]

@[simp] theorem View.raiseFin_ctx (v : View) : v.raiseFin.ctx = { v.ctx with fin := true } := rfl
@[simp] theorem View.dropLatch_ctx (v : View) : v.dropLatch.ctx = { v.ctx with latch := false } := rfl

/-- What `BaseFinalize` can change in a context: the accumulators and `FIN`, which it leaves 1 (R84). -/
theorem View.baseFinalize_ctx (v : View) : ∃ h, v.baseFinalize.ctx = { v.ctx with h := h, fin := true } := by
  unfold View.baseFinalize
  split
  next hf => exact ⟨v.ctx.h, by rw [← hf]⟩
  next =>
    dsimp only
    split
    · obtain ⟨h, d, e⟩ := v.raiseFin.padMarker.compress_frame
      obtain ⟨h', e'⟩ := v.raiseFin.padMarker.compress.blkZero.padLength_ctx
      exact ⟨h', by rw [e', View.blkZero_ctx, e, View.padMarker_ctx, View.raiseFin_ctx]⟩
    · obtain ⟨h', e'⟩ := v.raiseFin.padMarker.padLength_ctx
      exact ⟨h', by rw [e', View.padMarker_ctx, View.raiseFin_ctx]⟩

@[simp] theorem View.baseFinalize_fin (v : View) : v.baseFinalize.ctx.fin = true := by
  obtain ⟨h, e⟩ := v.baseFinalize_ctx; simp [e]

/-- What the outer pass can change in a context: the accumulators, the offset and the counters; it leaves `FIN` 1 and `LATCH` 0
(R103). -/
theorem View.hmacOuterPass_ctx (v : View) :
    ∃ h lo hi off, v.hmacOuterPass.ctx
      = { v.ctx with h := h, cntLo := lo, cntHi := hi, off := off, fin := true, latch := false } := by
  unfold View.hmacOuterPass
  dsimp only
  obtain ⟨h, e⟩ := ((v.dropLatch.engineReset.pushBytes v.dropLatch.ctx.opad.toList).pushBytes
    v.dropLatch.ctx.digestBytes).baseFinalize_ctx
  obtain ⟨_, lo, hi, off, e1⟩ := View.pushBytes_ctx v.dropLatch.ctx.digestBytes
    (v.dropLatch.engineReset.pushBytes v.dropLatch.ctx.opad.toList)
  obtain ⟨_, _, _, _, e2⟩ := View.pushBytes_ctx v.dropLatch.ctx.opad.toList v.dropLatch.engineReset
  exact ⟨h, lo, hi, off, by rw [e, e1, e2, View.engineReset_ctx, View.dropLatch_ctx]⟩

/-- After `Finalize` the engine is sealed and owes no outer pass (R86). -/
theorem View.finalize_sealed (v : View) :
    v.finalize.ctx.fin = true ∧ (v.finalize.ctx.m && v.finalize.ctx.latch) = false := by
  unfold View.finalize
  dsimp only
  split
  · obtain ⟨h, lo, hi, off, e⟩ := v.baseFinalize.hmacOuterPass_ctx
    simp [e]
  next hl => exact ⟨v.baseFinalize_fin, by simpa using hl⟩

/-- `Finalize` of a sealed engine that owes no outer pass changes nothing (R86, R107). -/
theorem View.finalize_again {v : View} (hf : v.ctx.fin = true) (hl : (v.ctx.m && v.ctx.latch) = false) : v.finalize = v := by
  simp [View.finalize, View.baseFinalize_sealed hf, hl]

/-! ## Storing a view, and admission -/

@[simp] theorem State.store_stream (s : State) (c : Nat) (v : View) : (s.store c v).stream = s.stream := by
  unfold State.store; split <;> rfl

@[simp] theorem State.store_length (s : State) (c : Nat) (v : View) : (s.store c v).ctxs.length = s.ctxs.length := by
  unfold State.store; split <;> simp

@[simp] theorem State.store_draws (s : State) (c : Nat) (v : View) : (s.store c v).draws = v.draws := by
  unfold State.store; split <;> rfl

/-- No context but the named one changes (R66). -/
theorem State.store_other (s : State) {c d : Nat} (v : View) (h : d ≠ c) : (s.store c v).ctxs[d]? = s.ctxs[d]? := by
  unfold State.store; split <;> simp [List.getElem?_set_ne (Ne.symm h)]

/-- The named context takes the view's context; its private block takes the view's block when `S` = 0 (R38). -/
theorem State.store_self (s : State) {c : Nat} (v : View) (h : c < s.ctxs.length) :
    (s.store c v).ctxs[c]? = some { v.ctx with b := if v.ctx.s then v.ctx.b else v.blk } := by
  unfold State.store
  split
  next hs => rw [List.getElem?_set_self h]
  next hs => rw [List.getElem?_set_self h]

/-- The shared block takes the view's block when `S` = 1, and stays otherwise (R38). -/
theorem State.store_scr (s : State) (c : Nat) (v : View) :
    (s.store c v).scr = if v.ctx.s then v.blk else s.scr := by
  unfold State.store; split <;> simp_all

/-- Storing an unchanged view changes nothing. -/
theorem State.store_view (s : State) {c : Nat} {x : Ctx} (h : s.ctxs[c]? = some x) : s.store c (s.view x) = s := by
  obtain ⟨hc, hx⟩ := List.getElem?_eq_some_iff.mp h
  have e : s.ctxs.set c x = s.ctxs := by rw [← hx, List.set_getElem_self]
  unfold State.store
  simp only [State.view_ctx, State.view_blk, State.view_draws, State.blkOf]
  split
  next hs => rw [e]
  next hs => exact congrArg (fun l => { s with ctxs := l }) e

theorem State.accept_none {s : State} {c : Nat} (h : s.ctxs[c]? = none) (ok : Ctx → Bool) (run : Ctx → State) :
    s.accept c ok run = s.respondErr := by simp [State.accept, h]

theorem State.accept_ok {s : State} {c : Nat} {x : Ctx} (h : s.ctxs[c]? = some x) {ok : Ctx → Bool} (hk : ok x = true)
    (run : Ctx → State) : s.accept c ok run = run x := by simp [State.accept, h, hk]

theorem State.accept_refused {s : State} {c : Nat} {x : Ctx} (h : s.ctxs[c]? = some x) {ok : Ctx → Bool} (hk : ok x = false)
    (run : Ctx → State) : s.accept c ok run = s.respondErr := by simp [State.accept, h, hk]

/-- Admission answers in one of two ways: ERR with nothing changed, or the command's own effect (R59). -/
theorem State.accept_cases (s : State) (c : Nat) (ok : Ctx → Bool) (run : Ctx → State) :
    ((∀ x, s.ctxs[c]? = some x → ok x = false) ∧ s.accept c ok run = s.respondErr) ∨
      ∃ x, s.ctxs[c]? = some x ∧ ok x = true ∧ s.accept c ok run = run x := by
  cases h : s.ctxs[c]? with
  | none => exact .inl ⟨by simp, State.accept_none h ok run⟩
  | some x =>
    cases hk : ok x with
    | false => exact .inl ⟨by simp [hk], State.accept_refused h hk run⟩
    | true => exact .inr ⟨x, rfl, hk, State.accept_ok h hk run⟩

/-! ## Construction -/

/-- With at most one live shared context nothing is noted (R141). -/
theorem State.noteSharing_contract {s : State} (h : s.liveSharedCount ≤ 1) : s.noteSharing = s := by
  simp [State.noteSharing, h]

/-- Noting a breach of the contract changes the taint of live shared contexts, the shared block and the count of draws (R142). -/
theorem State.noteSharing_breach {s : State} (h : ¬ s.liveSharedCount ≤ 1) :
    s.noteSharing =
      { s with
        ctxs := s.ctxs.map fun x => if x.liveShared then { x with tainted := true } else x
        scr := freeBlock s.draws
        draws := s.draws + 1 } := by
  simp [State.noteSharing, h]

@[simp] theorem State.construct_rsp (s : State) (c : Nat) (x : Ctx) :
    (s.construct c x).rsp = some { err := false, data := 0 } := by
  simp [State.construct]

end Sys2Proof.Machine
end

