-- ==== Sys2Proof/Laws/PerInstr.lean ====
section
/-! SUPPORT. Statements made per command. ContextKept: the word of a command that fits its encoding carries the command's context
in bits 11 to 8 (R51). -/

namespace Sys2Proof.Laws.ContextKept

def Statement (i : Instr) : Prop := i.wf = true → ∀ c, i.ctx? = some c → ctxField (encode i) = c

theorem nop : Statement .nop := by intro _ c h; cases h

theorem init (c : Nat) (t sh : Bool) : Statement (.init c t sh) := by
  intro h d e; cases e; exact fields_ctx _ _ _ (by simpa [Instr.wf, ctxFits] using h)

theorem hinit (c : Nat) (t sh : Bool) : Statement (.hinit c t sh) := by
  intro h d e; cases e; exact fields_ctx _ _ _ (by simpa [Instr.wf, ctxFits] using h)

theorem keyb (c : Nat) (b : Byte) : Statement (.keyb c b) := by
  intro h d e; cases e; exact fields_ctx _ _ _ (by simpa [Instr.wf, ctxFits] using h)

theorem keyend (c : Nat) : Statement (.keyend c) := by
  intro h d e; cases e; exact fields_ctx _ _ _ (by simpa [Instr.wf, ctxFits] using h)

theorem pushb (c : Nat) (b : Byte) : Statement (.pushb c b) := by
  intro h d e; cases e; exact fields_ctx _ _ _ (by simpa [Instr.wf, ctxFits] using h)

theorem final (c : Nat) : Statement (.final c) := by
  intro h d e; cases e; exact fields_ctx _ _ _ (by simpa [Instr.wf, ctxFits] using h)

theorem rdb (c i : Nat) : Statement (.rdb c i) := by
  intro h d e; cases e; exact fields_ctx _ _ _ (by simp [Instr.wf, ctxFits] at h; exact h.1)

theorem rdw (c j : Nat) : Statement (.rdw c j) := by
  intro h d e; cases e; exact fields_ctx _ _ _ (by simp [Instr.wf, ctxFits] at h; exact h.1)

theorem rdst (c : Nat) : Statement (.rdst c) := by
  intro h d e; cases e; exact fields_ctx _ _ _ (by simpa [Instr.wf, ctxFits] using h)

theorem rdcnt (c : Nat) (n : Bool) : Statement (.rdcnt c n) := by
  intro h d e; cases e; exact fields_ctx _ _ _ (by simpa [Instr.wf, ctxFits] using h)

end Sys2Proof.Laws.ContextKept
end

