-- ==== Sys2Proof/Laws/Step.lean ====
section
/-! SUPPORT. What one step can do, said once: every later proof about `step` starts from `step_cases`, and every proof about a
command from the shape of its meaning below. -/

namespace Sys2Proof.Machine

/-- One step is one of four things: idle, reset, a reserved word refused, a command executed (R134, R135, R60, R59). -/
theorem step_cases (s : State) :
    (s.stream = [] ∧ step s = .next s) ∨
    (∃ rest, s.stream = .rst :: rest ∧ step s = .next s.taken.restart) ∨
    (∃ w rest e, s.stream = .cmd w :: rest ∧ decode w = .error e ∧ step s = .next s.taken.respondErr) ∨
    (∃ w rest i, s.stream = .cmd w :: rest ∧ decode w = .ok i ∧ step s = exec i s.taken) := by
  unfold step State.fetch
  cases hs : s.stream with
  | nil => exact .inl ⟨rfl, rfl⟩
  | cons ev rest =>
    cases ev with
    | rst => exact .inr (.inl ⟨rest, rfl, rfl⟩)
    | cmd w =>
      cases hd : decode w with
      | error e => exact .inr (.inr (.inl ⟨w, rest, e, rfl, hd, by simp [hd]⟩))
      | ok i => exact .inr (.inr (.inr ⟨w, rest, i, rfl, hd, by simp [hd]⟩))

/-- The next word the host presents is the next one the block takes. -/
theorem step_withFetchWord (s : State) (nbits w : Nat) :
    step (s.withFetchWord nbits w) =
      match decode (tableWord nbits w) with
      | .ok i => exec i s
      | .error _ => .next s.respondErr := by
  have ht : (s.withFetchWord nbits w).taken = s := State.taken_present s _
  unfold step
  rw [ht]
  cases hd : decode (tableWord nbits w) <;> simp [State.fetch, State.withFetchWord, hd]

/-- The shape every command's meaning has: admitted with its own effect, or refused with nothing changed but the response (R59). -/
theorem exec_shape (i : Instr) (s : State) :
    exec i s = .next (s.respondOk 0) ∨
      ∃ c ok run, i.ctx? = some c ∧ exec i s = .next (s.accept c ok run) := by
  cases i with
  | nop => exact .inl rfl
  | init c t sh => exact .inr ⟨c, _, _, rfl, rfl⟩
  | hinit c t sh => exact .inr ⟨c, _, _, rfl, rfl⟩
  | keyb c b => exact .inr ⟨c, _, _, rfl, rfl⟩
  | keyend c => exact .inr ⟨c, _, _, rfl, rfl⟩
  | pushb c b => exact .inr ⟨c, _, _, rfl, rfl⟩
  | final c => exact .inr ⟨c, _, _, rfl, rfl⟩
  | rdb c j => exact .inr ⟨c, _, _, rfl, rfl⟩
  | rdw c j => exact .inr ⟨c, _, _, rfl, rfl⟩
  | rdst c => exact .inr ⟨c, _, _, rfl, rfl⟩
  | rdcnt c n => exact .inr ⟨c, _, _, rfl, rfl⟩

end Sys2Proof.Machine
end

