-- ==== Sys2Proof/Tests/Slice0.lean ====
section
/-! SUPPORT. Tests. Expected values are the spec's (rules R51 to R64, spec/95_test_vectors.md V1 to V52), not the model's own
answers. After them, for every statement with hypotheses, a state and operands that meet them all, clause by clause. -/

namespace Sys2Proof.Tests
open Sys2Proof.Machine
set_option Elab.async false

/-! ## Helpers -/

/-- A block with these contexts, everything else as after reset. -/
def blockOf (xs : List Ctx) : State := { State.resetOf 0 with ctxs := xs }

/-- What `f` gives in the state command `i` leads to. -/
def after {α : Type} (i : Instr) (s : State) (f : State → α) : Option α :=
  match exec i s with
  | .next u => some (f u)
  | .fault _ => none
  | .refused _ => none

/-- What `f` gives in the state the next word leads to. -/
def afterWord {α : Type} (w : Nat) (s : State) (f : State → α) : Option α :=
  match step (s.withFetchWord 16 w) with
  | .next u => some (f u)
  | .fault _ => none
  | .refused _ => none

/-- Context `c` of a state. -/
def ctxOf (c : Nat) (s : State) : Ctx := s.ctxs.getD c Ctx.reset

/-- Words as a block, zeros after them. -/
def words (ws : List Word) : Block := Vector.ofFn fun j => ws.getD j.val 0

/-- Bytes as a pad, `rest` after them. -/
def pad (bs : List Byte) (rest : Byte) : Pad := Vector.ofFn fun j => bs.getD j.val rest

/-- A context that has taken "abc" (V2). -/
def abcCtx (t : Bool) : Ctx :=
  { Ctx.reset with h := ivOf t, b := words [0x61626300], off := 3, cntLo := 3, t := t }

/-- A context in key phase. -/
def keyCtx : Ctx :=
  { Ctx.reset with m := true, kph := true, ipad := pad [] 0x36#8, opad := pad [] 0x5c#8 }

/-- The context of V42 after the four bytes of the key "Jefe". -/
def jefeCtx : Ctx :=
  { keyCtx with
    b := words [0x4a656665], off := 4, cntLo := 4, klen := 4
    ipad := pad [0x7c#8, 0x53#8, 0x50#8, 0x53#8] 0x36#8, opad := pad [0x16#8, 0x39#8, 0x3a#8, 0x39#8] 0x5c#8 }

/-- The context of V42 after the 28 message bytes. -/
def jefeMessageCtx : Ctx :=
  { jefeCtx with
    h := #v[0x655da7fa, 0xcc434b37, 0x5a1cd5cb, 0x0692ee0e, 0xa47a23d3, 0x4c3af449, 0xdba21ae2, 0x78c7500c]
    b := words ([0x77686174, 0x20646f20, 0x79612077, 0x616e7420, 0x666f7220, 0x6e6f7468, 0x696e673f]
      ++ List.replicate 9 0x36363636)
    off := 28, cntLo := 0x5c, kph := false, latch := true }

/-- The context of V46 after the 131 key bytes aa. -/
def longKeyCtx : Ctx :=
  { keyCtx with
    h := #v[0xa554e894, 0x745fb813, 0xe7b7df05, 0x53115ac7, 0x0ed7242b, 0x5dbc9b48, 0xc503ecb8, 0x46ea4f12]
    b := words (0xaaaaaaaa :: List.replicate 15 0xaaaaaaaa), off := 3, cntLo := 0x83, klen := 65
    ipad := pad [] 0x9c#8, opad := pad [] 0xf6#8 }

/-- A live shared context. -/
def sharedCtx : Ctx := { Ctx.reset with s := true }

/-! ## WellFormed refuses an ill-formed command, for each check -/

theorem test_wf_context_too_large : (Instr.pushb 16 0x61#8).wf = false := by decide
theorem test_wf_byte_index_too_large : (Instr.rdb 0 32).wf = false := by decide
theorem test_wf_word_index_too_large : (Instr.rdw 0 8).wf = false := by decide
theorem test_wf_largest_operands : (Instr.rdb 15 31).wf = true ∧ (Instr.rdw 15 7).wf = true := by decide

/-! ## Decoding: each word written bit by bit from R52 to R56, `op ctx arg` -/

theorem test_decode_nop : decode 0b0000_0000_00000000#16 = .ok .nop := by decide
theorem test_decode_init : decode 0b0001_0001_00000010#16 = .ok (.init 1 false true) := by decide
theorem test_decode_hinit : decode 0b0010_1111_00000001#16 = .ok (.hinit 15 true false) := by decide
theorem test_decode_keyb : decode 0b0011_0100_11001010#16 = .ok (.keyb 4 0xca#8) := by decide
theorem test_decode_keyend : decode 0b0100_1000_00000000#16 = .ok (.keyend 8) := by decide
theorem test_decode_pushb : decode 0b0101_0010_01100001#16 = .ok (.pushb 2 0x61#8) := by decide
theorem test_decode_final : decode 0b0110_0011_00000000#16 = .ok (.final 3) := by decide
theorem test_decode_rdb : decode 0b0111_0001_00011011#16 = .ok (.rdb 1 27) := by decide
theorem test_decode_rdw : decode 0b1000_0001_00000110#16 = .ok (.rdw 1 6) := by decide
theorem test_decode_rdst : decode 0b1001_0101_00000000#16 = .ok (.rdst 5) := by decide
theorem test_decode_rdcnt : decode 0b1010_0000_00000001#16 = .ok (.rdcnt 0 true) := by decide

/-- V38, the words refused by the static checks. -/
theorem test_decode_reserved :
    [0xb000#16, 0xffff#16].map decode = [.error .reservedOpcode, .error .reservedOpcode] ∧
    [0x0001#16, 0x0100#16, 0x1004#16, 0x6001#16, 0x7020#16, 0x8008#16, 0x9001#16, 0xa002#16].map decode
      = List.replicate 8 (.error .reservedBits) := by decide

/-! ## Bit functions, schedule, compression (V14 to V27) -/

theorem test_bit_functions :
    ssig0 0x61626380 = 0x940e90ef ∧ ssig1 0x61626380 = 0x7da86405 ∧ bsig0 0x6a09e667 = 0xce20b47e ∧
    bsig1 0x510e527f = 0x3587272b ∧ choice 0x510e527f 0x9b05688c 0x1f83d9ab = 0x1f85c98c ∧
    majority 0x6a09e667 0xbb67ae85 0x3c6ef372 = 0x3a6fe667 := by decide

/-- V22. -/
theorem test_schedule :
    ((schedule (words ([0x61626380] ++ List.replicate 14 0 ++ [0x18]))).getD 17 0 = 0x000f0000) ∧
    ((schedule (words ([0x61626380] ++ List.replicate 14 0 ++ [0x18]))).getD 63 0 = 0x12b1edeb) := by decide +kernel

/-- V26, a block of zeros from eight zeros. -/
theorem test_compress_zeros :
    compressWords (Vector.replicate 8 0) (Vector.replicate 16 0)
      = #v[0x7ca51614, 0x425c3ba8, 0xce54dd2f, 0xc2020ae7, 0xb6e574d1, 0x98136d0f, 0xae7e26cc, 0xbf0be7a6] := by
  decide +kernel

/-! ## Commands, one step each -/

/-- V28. -/
theorem test_nop : afterWord 0x0000 State.reset (·.rsp) = some (some (okResponse 0)) := by decide

/-- V29, R88. -/
theorem test_init : afterWord 0x1001 State.reset (fun u => ((ctxOf 0 u).h[7], (ctxOf 0 u).status)) = some (0xbefa4fa4, 2) := by
  decide +kernel

/-- V50: the second live shared context is accepted. -/
theorem test_init_second_shared :
    afterWord 0x1102 (blockOf [sharedCtx, Ctx.reset])
      (fun u => (u.rsp, (ctxOf 0 u).status, (ctxOf 1 u).status)) = some (some (okResponse 0), 4, 4) := by decide +kernel

/-- V29. -/
theorem test_hinit :
    afterWord 0x2003 State.reset (fun u => ((ctxOf 0 u).status, (ctxOf 0 u).ipad[63], (ctxOf 0 u).opad[0]))
      = some (0x1e, 0x36#8, 0x5c#8) := by decide +kernel

/-- V42, the first key byte. -/
theorem test_keyb :
    afterWord 0x304a (blockOf [keyCtx])
      (fun u => ((ctxOf 0 u).ipad[0], (ctxOf 0 u).opad[0], (ctxOf 0 u).ipad[1], (ctxOf 0 u).b[0], (ctxOf 0 u).status))
      = some (0x7c#8, 0x16#8, 0x36#8, 0x4a000000, 0x00010118) := by decide +kernel

/-- R101: the 65th key byte leaves the pads alone. -/
theorem test_keyb_65th :
    afterWord 0x3040 (blockOf [{ keyCtx with klen := 64, cntLo := 64 }])
      (fun u => ((ctxOf 0 u).klen, decide ((ctxOf 0 u).ipad = keyCtx.ipad))) = some (65, true) := by decide +kernel

/-- V42. -/
theorem test_keyend :
    afterWord 0x4000 (blockOf [jefeCtx]) (fun u => ((ctxOf 0 u).h[0], (ctxOf 0 u).h[7], (ctxOf 0 u).status))
      = some (0x655da7fa, 0x78c7500c, 0x00040028) := by decide +kernel

/-- V46: a long key. -/
theorem test_keyend_long :
    afterWord 0x4000 (blockOf [longKeyCtx])
      (fun u => ((ctxOf 0 u).ipad[3], (ctxOf 0 u).ipad[32], (ctxOf 0 u).opad[0], (ctxOf 0 u).h[0], (ctxOf 0 u).status))
      = some (0x01#8, 0x36#8, 0x19#8, 0xb490466c, 0x00410028) := by decide +kernel

/-- V40, step 2: the byte that carries into the high counter and fills the block. -/
theorem test_pushb_carry :
    afterWord 0x5062 (blockOf [{ Ctx.reset with b := words (List.replicate 15 0 ++ [0x6100]), off := 63, cntLo := 0xffffffff }])
      (fun u => ((ctxOf 0 u).b[15], (ctxOf 0 u).cntLo, (ctxOf 0 u).cntHi, (ctxOf 0 u).off, (ctxOf 0 u).h[0]))
      = some (0x6162, 0, 1, 0, 0xe8401e39) := by decide +kernel

/-- V8. -/
theorem test_pushb_sealed :
    afterWord 0x5064 (blockOf [{ abcCtx false with fin := true }]) (fun u => (u.rsp, decide (ctxOf 0 u = { abcCtx false with fin := true })))
      = some (some (okResponse 0), true) := by decide +kernel

/-- V2. -/
theorem test_final_abc :
    afterWord 0x6000 (blockOf [abcCtx false]) (fun u => ((ctxOf 0 u).h, (ctxOf 0 u).b[0], (ctxOf 0 u).b[15], (ctxOf 0 u).status))
      = some (#v[0xba7816bf, 0x8f01cfea, 0x414140de, 0x5dae2223, 0xb00361a3, 0x96177a9c, 0xb410ff61, 0xf20015ad],
          0x61626380, 0x18, 0x301) := by decide +kernel

/-- V31 and V32, n = 56: the marker leaves no room for the length. -/
theorem test_final_two_blocks :
    afterWord 0x6000 (blockOf [{ Ctx.reset with b := words (List.replicate 14 0x61616161), off := 56, cntLo := 56 }])
      (fun u => ((ctxOf 0 u).h[0], (ctxOf 0 u).h[7], (ctxOf 0 u).b[0], (ctxOf 0 u).b[15], (ctxOf 0 u).status))
      = some (0xb35439a4, 0x6ec6738a, 0, 0x1c0, 0x3801) := by decide +kernel

/-- V35: the first read finalizes. -/
theorem test_rdb_finalizes :
    afterWord 0x7000 State.reset (fun u => (u.rsp, (ctxOf 0 u).status)) = some (some (okResponse 0xe3), 1) := by decide +kernel

/-- V4: the last byte of a truncated digest, and the refusal of the next. -/
theorem test_rdb_truncated :
    afterWord 0x701b (blockOf [abcCtx true]) (·.rsp) = some (some (okResponse 0xa7)) ∧
    afterWord 0x701c (blockOf [abcCtx true]) (fun u => (u.rsp, (ctxOf 0 u).fin)) = some (some errResponse, false) := by
  decide +kernel

/-- V42: the first read of an HMAC engine runs the outer pass. -/
theorem test_rdw_hmac :
    afterWord 0x8000 (blockOf [jefeMessageCtx]) (fun u => (u.rsp, (ctxOf 0 u).b[15], (ctxOf 0 u).cntLo, (ctxOf 0 u).status))
      = some (some (okResponse 0x5bdcc146), 0x300, 0x60, 0x00042009) := by decide +kernel

/-- V36: the hidden eighth word is refused, and the refusal does not finalize. -/
theorem test_rdw_eighth :
    afterWord 0x8007 (blockOf [{ Ctx.reset with t := true }]) (fun u => (u.rsp, (ctxOf 0 u).status)) = some (some errResponse, 2) := by
  decide +kernel

/-- V37. -/
theorem test_rdst : afterWord 0x9000 (blockOf [jefeMessageCtx]) (·.rsp) = some (some (okResponse 0x00041c28)) := by decide +kernel

/-- V40, step 4, with the two counters told apart. -/
theorem test_rdcnt :
    afterWord 0xa000 (blockOf [{ Ctx.reset with cntLo := 5, cntHi := 1 }]) (·.rsp) = some (some (okResponse 5)) ∧
    afterWord 0xa001 (blockOf [{ Ctx.reset with cntLo := 5, cntHi := 1 }]) (·.rsp) = some (some (okResponse 1)) := by decide

/-- V38, causes E1 to E4. -/
theorem test_refused_words :
    [0xb000, 0x0100, 0x1200, 0x3061, 0x4000].map (fun w => afterWord w State.reset (·.rsp))
      = List.replicate 5 (some (some errResponse)) := by decide

/-- V39, cause E5. -/
theorem test_refused_in_key_phase :
    [0x5061, 0x6000, 0x7000, 0x8000].map (fun w => afterWord w (blockOf [keyCtx]) (·.rsp))
      = List.replicate 4 (some (some errResponse)) := by decide

/-- V44. -/
theorem test_length_field :
    ({ Ctx.reset with cntLo := 0x20000000 } : Ctx).bitLenHi = 1 ∧
    ({ Ctx.reset with cntHi := 0x20000001, cntLo := 0x80000000 } : Ctx).bitLenHi = 0xc ∧
    ({ Ctx.reset with cntHi := 0x20000001, cntLo := 0x80000000 } : Ctx).bitLenLo = 0 := by decide

/-- V49, program P4: a shared context uses the shared block. -/
theorem test_shared_block :
    afterWord 0x5061 (blockOf [sharedCtx]) (fun u => (u.scr[0], (ctxOf 0 u).b[0])) = some (0x61000000, 0) := by decide +kernel

/-! ## The host's side (V51, V52, R64) -/

theorem test_text_to_bytes :
    textToBytes [0x0061#16, 0xdfff#16, 0x0062#16, 0x0063#16] = [0x61#8, 0xf4#8, 0x8f#8, 0xb1#8, 0xa2#8, 0x63#8] ∧
    textToBytes [0x07ff#16, 0x0800#16] = [0xdf#8, 0xbf#8, 0xe0#8, 0xa0#8, 0x80#8] ∧
    textToBytes [0xd800#16] = [0xf0#8, 0x90#8, 0x80#8, 0x80#8] := by decide

theorem test_hex : hexChars [0xba#8, 0x78#8] = ['b', 'a', '7', '8'] := by decide

theorem test_assembler :
    assembleLine "PUSHB 0, 0x61 ; a".toList = some 0x5061 ∧ assembleLine "INIT 1, 1, 0".toList = some 0x1101 ∧
    assembleLine "RDB 0, 31".toList = some 0x701F ∧ assembleLine "HINIT 0, 0, 1".toList = some 0x2002 := by decide +kernel

/-- The model's choice, log entry 6: a space inside an operand gives no word, spaces around one are read. -/
theorem test_assembler_spaces :
    assembleLine "RDST 1 1".toList = none ∧ assembleLine "PUSHB 0, 6 1".toList = none ∧
    assembleLine "  PUSHB   0 ,  97  ".toList = some 0x5061 := by decide +kernel

/-! ## Witnesses: a state and operands that meet every hypothesis of a statement together -/

theorem one_context_no_other (x : Ctx) : (blockOf [x]).NoOtherLiveShared 0 := by
  intro d y hd hy
  cases d with
  | zero => exact absurd rfl hd
  | succ d => simp [blockOf] at hy

theorem witness_StepRunsDecodedCommand :
    (State.reset.withFetchWord 16 0x5061).stream = .cmd 0x5061#16 :: [] ∧ decode 0x5061#16 = .ok (.pushb 0 0x61#8) := by decide

theorem witness_IdleStepKeepsEverything : State.reset.stream = [] := by decide

theorem witness_ErrExactlyForListedCauses :
    (State.reset.withFetchWord 16 0x3061).stream = .cmd 0x3061#16 :: [] ∧
    (State.reset.withFetchWord 16 0xb000).stream = .cmd 0xb000#16 :: [] ∧ 0xB ≤ opField 0xb000#16 := by decide

theorem witness_CommandActsOnItsContextOnly :
    (Instr.pushb 2 0x61#8).ctx? = some 2 ∧ State.reset.ctxs[2]? = none ∧
    (Instr.pushb 1 0x61#8).ctx? = some 1 ∧ Instr.nop.ctx? = none ∧ State.reset.ctxs[1]? = some Ctx.reset ∧
    (after (.pushb 1 0x61#8) State.reset (·.rsp)).isSome = true := by decide +kernel

theorem witness_StepKeepsStateInvariant :
    State.reset.Ok ∧ (afterWord 0x5061 State.reset (·.rsp)).isSome = true := by decide +kernel

/-- The last byte and the last word of the digest, a state the context is sealed in, and another one with the same context 0 that
keeps a response and differs in context 1. -/
theorem witness_SealedContextRepeats :
    (blockOf [{ abcCtx false with fin := true }, Ctx.reset]).Ok ∧
    (blockOf [{ abcCtx false with fin := true }, Ctx.reset]).ctxs[0]? = some { abcCtx false with fin := true } ∧
    ({ blockOf [{ abcCtx false with fin := true }, keyCtx] with rsp := some errResponse } : State).ctxs[0]?
      = some { abcCtx false with fin := true } ∧
    (Instr.rdb 0 31).ctx? = some 0 ∧ 31 < ({ abcCtx false with fin := true } : Ctx).dlen ∧
    (Instr.rdw 0 7).ctx? = some 0 ∧ 4 * 7 < ({ abcCtx false with fin := true } : Ctx).dlen ∧
    (Instr.pushb 1 0x61#8).ctx? = some 1 ∧
    (after (.pushb 1 0x61#8) (blockOf [{ abcCtx false with fin := true }, Ctx.reset]) (·.rsp)).isSome = true := by decide +kernel

/-- The clauses of `CompressionsPerCommand`: sealed; plain with room, without room, full; message phase; key phase with a short key,
a full block, a long key. -/
theorem witness_CompressionsPerCommand :
    (blockOf [{ abcCtx false with fin := true }, { Ctx.reset with off := 55, cntLo := 55 }, { Ctx.reset with off := 56, cntLo := 56 },
      { Ctx.reset with off := 63, cntLo := 63 }, jefeMessageCtx, jefeCtx, { keyCtx with klen := 63, off := 63, cntLo := 63 },
      longKeyCtx, { longKeyCtx with off := 56, cntLo := 0xb8 }]).Ok ∧
    (31 < Ctx.reset.dlen ∧ 4 * 7 < Ctx.reset.dlen) := by decide +kernel

theorem witness_ResetGivesStatedValues :
    (State.resetOf 16).ctxs[15]? = some Ctx.reset ∧ (blockOf [longKeyCtx]).ctxs[0]? = some longKeyCtx := by decide +kernel

theorem witness_RstInputResetsEverything : ({ blockOf [sharedCtx] with stream := [.rst] } : State).stream = .rst :: [] := by decide

theorem witness_DecodeOfEncode : (Instr.rdb 15 31).wf = true ∧ (Instr.rdw 15 7).wf = true ∧ (Instr.hinit 15 true true).wf = true := by
  decide

theorem witness_EncodeOfDecode : decode 0x701f#16 = .ok (.rdb 0 31) ∧ decode 0x0000#16 = .ok .nop := by decide

theorem witness_WordsSpellExactlyTheirRow : ∃ r ∈ opcodeRows, 0x5061#16 &&& r.mask = r.pattern := by decide

theorem witness_ReservedWordsRespondErr :
    (State.reset.withFetchWord 16 0x0100).stream = .cmd 0x0100#16 :: [] ∧ decode 0x0100#16 = .error .reservedBits := by decide

theorem witness_AssemblerGivesEncodedWord : (Instr.pushb 0 0xff#8).wf = true := by decide

theorem witness_CompressionIsSixtyFourRounds : ((blockOf [abcCtx false]).view (abcCtx false)).ctx.tainted = false := by decide

theorem witness_BlockByteWriteReadsBack :
    ((blockOf [abcCtx false]).view (abcCtx false)).ctx.tainted = false ∧ (63 : Nat) < 64 ∧ 0 < 64 := by decide

/-- Both values of the premise on sharing: a private engine beside a live shared one, and a shared one with no other. -/
theorem witness_InitConstructsPlainEngine :
    (blockOf [Ctx.reset]).ctxs[1]? = none ∧ (blockOf [Ctx.reset, sharedCtx]).ctxs[0]? = some Ctx.reset ∧
    (blockOf [sharedCtx]).NoOtherLiveShared 0 ∧ (blockOf [sharedCtx]).ctxs[0]? = some sharedCtx :=
  ⟨by decide +kernel, by decide +kernel, one_context_no_other _, by decide +kernel⟩

theorem witness_HinitStartsKeyPhase :
    (blockOf [keyCtx]).ctxs[1]? = none ∧ (blockOf [keyCtx]).ctxs[0]? = some keyCtx ∧ (blockOf [keyCtx]).NoOtherLiveShared 0 :=
  ⟨by decide +kernel, by decide +kernel, one_context_no_other _⟩

/-- No context; key phase; sealed; open with the block not full, full, and tainted. -/
theorem witness_PushbTakesOneByte :
    (blockOf []).ctxs[0]? = none ∧ keyCtx.kph = true ∧
    (({ abcCtx false with fin := true } : Ctx).kph = false ∧ ({ abcCtx false with fin := true } : Ctx).fin = true) ∧
    ((abcCtx false).kph = false ∧ (abcCtx false).fin = false ∧ (abcCtx false).tainted = false ∧ (abcCtx false).off ≠ 63) ∧
    (({ Ctx.reset with off := 63, cntLo := 63 } : Ctx).kph = false ∧ ({ Ctx.reset with off := 63, cntLo := 63 } : Ctx).tainted = false) ∧
    (({ sharedCtx with tainted := true } : Ctx).kph = false ∧ ({ sharedCtx with tainted := true } : Ctx).fin = false) := by
  decide +kernel

/-- Offsets on both sides of 56, at 0 and at 63; a sealed engine; a sealed HMAC engine. -/
theorem witness_FinalPadsAndSealsEngine :
    (∀ n ∈ [0#6, 55#6, 56#6, 63#6], (blockOf [{ Ctx.reset with off := n }]).ctxs[0]? = some { Ctx.reset with off := n }) ∧
    Ctx.reset.kph = false ∧ (Ctx.reset.m && Ctx.reset.latch) = false ∧ Ctx.reset.fin = false ∧ Ctx.reset.tainted = false ∧
    (({ jefeMessageCtx with fin := true, latch := false } : Ctx).m && ({ jefeMessageCtx with fin := true, latch := false } : Ctx).latch)
      = false := by decide +kernel

theorem witness_FinalRefusedOrIdempotent :
    (blockOf [keyCtx]).ctxs[1]? = none ∧ keyCtx.kph = true ∧ (after (.final 0) (blockOf [abcCtx true]) (·.rsp)).isSome = true := by
  decide +kernel

/-- The last index inside and the first outside the digest, for both variants. -/
theorem witness_RdbReturnsDigestByte :
    (blockOf [keyCtx]).ctxs[1]? = none ∧ keyCtx.kph = true ∧ (abcCtx true).kph = false ∧
    (27 < (if (abcCtx true).t then 28 else 32) ∧ (if (abcCtx true).t then 28 else 32) ≤ 28) ∧
    (31 < (if (abcCtx false).t then 28 else 32) ∧ (if (abcCtx false).t then 28 else 32) ≤ 32) := by decide +kernel

theorem witness_RdwReturnsDigestWord :
    (blockOf [keyCtx]).ctxs[1]? = none ∧ keyCtx.kph = true ∧ (abcCtx true).kph = false ∧
    (4 * 6 < (if (abcCtx true).t then 28 else 32) ∧ (if (abcCtx true).t then 28 else 32) ≤ 4 * 7) ∧
    (4 * 7 < (if (abcCtx false).t then 28 else 32) ∧ (if (abcCtx false).t then 28 else 32) ≤ 4 * 8) := by decide +kernel

theorem witness_WordReadIsFourByteReads :
    (blockOf [jefeMessageCtx]).ctxs[0]? = some jefeMessageCtx ∧ jefeMessageCtx.kph = false ∧ 4 * 7 < jefeMessageCtx.dlen := by
  decide +kernel

theorem witness_RdstReturnsStatusFields :
    (blockOf [longKeyCtx]).ctxs[1]? = none ∧ (blockOf [longKeyCtx]).ctxs[0]? = some longKeyCtx := by decide +kernel

theorem witness_RdcntReturnsCounter :
    (blockOf [longKeyCtx]).ctxs[1]? = none ∧ (blockOf [longKeyCtx]).ctxs[0]? = some longKeyCtx := by decide +kernel

/-- No context; outside key phase; key bytes number 1, 64, 65 and a later one; the block full; a tainted context. -/
theorem witness_KeybTakesOneKeyByte :
    (blockOf []).ctxs[0]? = none ∧ (Ctx.reset.m = false ∨ Ctx.reset.kph = false) ∧
    (∀ n ∈ [0#7, 63#7, 64#7, 65#7], (blockOf [{ keyCtx with klen := n }]).ctxs[0]? = some { keyCtx with klen := n } ∧
      ({ keyCtx with klen := n } : Ctx).m = true ∧ ({ keyCtx with klen := n } : Ctx).kph = true ∧
      ({ keyCtx with klen := n } : Ctx).fin = false ∧ ({ keyCtx with klen := n } : Ctx).tainted = false) ∧
    (({ keyCtx with off := 63 } : Ctx).m = true ∧ ({ keyCtx with off := 63 } : Ctx).kph = true ∧ ({ keyCtx with off := 63 } : Ctx).fin = false) ∧
    (({ keyCtx with s := true, tainted := true } : Ctx).m = true ∧ ({ keyCtx with s := true, tainted := true } : Ctx).kph = true) := by
  decide +kernel

/-- Key lengths 0, 64 and more than 64, untainted and tainted. -/
theorem witness_KeyendCompletesPads :
    (blockOf []).ctxs[0]? = none ∧ (Ctx.reset.m = false ∨ Ctx.reset.kph = false) ∧
    (blockOf [keyCtx]).ctxs[0]? = some keyCtx ∧ (keyCtx.m = true ∧ keyCtx.kph = true ∧ keyCtx.fin = false ∧ keyCtx.tainted = false) ∧
    ({ keyCtx with klen := 64 } : Ctx).klen.toNat ≤ 64 ∧
    (longKeyCtx.m = true ∧ longKeyCtx.kph = true ∧ longKeyCtx.fin = false ∧ longKeyCtx.tainted = false ∧ 64 < longKeyCtx.klen.toNat) ∧
    ({ longKeyCtx with s := true, tainted := true } : Ctx).kph = true := by decide +kernel

theorem witness_FinalRunsOuterPassOnce :
    (blockOf [jefeMessageCtx]).ctxs[0]? = some jefeMessageCtx ∧ jefeMessageCtx.kph = false ∧ jefeMessageCtx.fin = false ∧
    jefeMessageCtx.m = true ∧ jefeMessageCtx.latch = true ∧ jefeMessageCtx.tainted = false := by decide +kernel

theorem witness_KeyPhaseCountsAndKeepsKeyBytes :
    0 < (blockOf [Ctx.reset]).ctxs.length ∧ (blockOf [Ctx.reset]).NoOtherLiveShared 0 :=
  ⟨by decide +kernel, one_context_no_other _⟩

theorem witness_KeyPhaseResponsesHideKey :
    (blockOf [jefeCtx]).ctxs[0]? = some jefeCtx ∧ jefeCtx.m = true ∧ jefeCtx.kph = true ∧
    (let y : Ctx := { jefeCtx with b := words [], ipad := pad [] 0#8, opad := pad [] 0#8 }
     (blockOf [y]).ctxs[0]? = some y ∧
       y = { jefeCtx with h := y.h, b := y.b, ipad := y.ipad, opad := y.opad, tainted := y.tainted }) ∧
    (Instr.rdst 0).ctx? = some 0 := by decide +kernel

theorem witness_HashCommandsComputeShaDigest :
    0 < (blockOf [sharedCtx]).ctxs.length ∧ (blockOf [sharedCtx]).NoOtherLiveShared 0 :=
  ⟨by decide +kernel, one_context_no_other _⟩

theorem witness_HmacCommandsComputeClosedForm :
    0 < (blockOf [sharedCtx]).ctxs.length ∧ (blockOf [sharedCtx]).NoOtherLiveShared 0 :=
  ⟨by decide +kernel, one_context_no_other _⟩

/-- The block of "abc" from the fill offset on, zero in one and not in the other. -/
theorem witness_StaleBlockBytesNeverMatter :
    (let y : Ctx := { abcCtx false with b := words [0x616263ff, 0xffffffff] }
     (blockOf [abcCtx false]).ctxs[0]? = some (abcCtx false) ∧ (blockOf [y]).ctxs[0]? = some y ∧
     (abcCtx false).tainted = false ∧ (abcCtx false).fin = false ∧ (abcCtx false).kph = false ∧ y = { abcCtx false with b := y.b } ∧
     (∀ i < (abcCtx false).off.toNat,
       blockByte ((blockOf [abcCtx false]).blkOf (abcCtx false)) i = blockByte ((blockOf [y]).blkOf y) i)) := by decide +kernel

theorem witness_CommandsOnPrivateContextsCommute :
    State.reset.Ok ∧ (Instr.pushb 0 0x61#8).ctx? = some 0 ∧ (Instr.final 1).ctx? = some 1 ∧
    State.reset.ctxs[0]? = some Ctx.reset ∧ State.reset.ctxs[1]? = some Ctx.reset ∧ Ctx.reset.s = false ∧
    privately (.pushb 0 0x61#8) = .pushb 0 0x61#8 ∧ privately (.final 1) = .final 1 := by decide +kernel

/-- A live shared context beside a private one, against two private ones. -/
theorem witness_SharedScratchBehavesLikePrivate :
    (blockOf [sharedCtx, Ctx.reset]).Ok ∧ (blockOf [sharedCtx, Ctx.reset]).Untainted ∧
    SharesLike (blockOf [sharedCtx, Ctx.reset]) (blockOf [Ctx.reset, Ctx.reset]) ∧
    after (.pushb 0 0x61#8) (blockOf [sharedCtx, Ctx.reset]) State.liveSharedCount = some 1 := by
  refine ⟨by decide +kernel, by decide +kernel, ⟨by decide +kernel, ?_⟩, by decide +kernel⟩
  intro c x y hx hy
  match c with
  | 0 =>
    have ex : x = sharedCtx := by simpa [blockOf, eq_comm] using hx
    have ey : y = Ctx.reset := by simpa [blockOf, eq_comm] using hy
    subst ex ey
    exact ⟨by decide +kernel, fun _ => by decide +kernel⟩
  | 1 =>
    have ex : x = Ctx.reset := by simpa [blockOf, eq_comm] using hx
    have ey : y = Ctx.reset := by simpa [blockOf, eq_comm] using hy
    subst ex ey
    exact ⟨by decide +kernel, fun _ => by decide +kernel⟩
  | n + 2 => simp [blockOf] at hx

theorem witness_SecondLiveSharedContextIsMarked :
    (blockOf [Ctx.reset, sharedCtx]).ctxs[0]? = some Ctx.reset ∧ (blockOf [Ctx.reset, sharedCtx]).ctxs[1]? = some sharedCtx ∧
    (0 : Nat) ≠ 1 ∧ sharedCtx.liveShared = true := by decide +kernel

theorem witness_BreachLeavesControlSpecified :
    (blockOf [{ sharedCtx with tainted := true }, Ctx.reset]).ctxs[1]? = some Ctx.reset ∧
    (Instr.pushb 0 0x61#8).ctx? ≠ some 1 := by decide +kernel

theorem witness_TextToBytesByClasses :
    ([0x7f#16, 0x80#16, 0x7ff#16, 0x800#16, 0xd7ff#16, 0xe000#16, 0xffff#16].all fun u =>
      decide (u.toNat < 0xD800 ∨ 0xE000 ≤ u.toNat)) = true ∧
    ([0xd800#16, 0xdfff#16].all fun u => decide (0xD800 ≤ u.toNat ∧ u.toNat < 0xE000)) = true := by decide

theorem witness_HexRendersEachByteTwice : [0xba#8, 0x78#8][1]? = some 0x78#8 := by decide

theorem witness_RotateAndShiftMoveBits : 0 < 25 ∧ 25 < 32 := by decide

end Sys2Proof.Tests
end

section
/-! ## The state and the status word (spec/10_state.md)

Laws that say once what each operation does to a context's control fields, and from them the statements of this family. -/

namespace Sys2Proof.Machine

/-! ### Counters and bytes (R82, R83) -/

/-- The low counter goes up by one modulo 2^32; the high one takes the carry (R83). -/
theorem Ctx.countByte_eq (x : Ctx) :
    x.countByte =
      { x with cntLo := x.cntLo + 1, cntHi := if x.cntLo = 0xFFFFFFFF#32 then x.cntHi + 1 else x.cntHi } := by
  unfold Ctx.countByte
  split
  next hmax => rw [hmax]; rfl
  next => rfl

/-- `CountByte` adds one to the 64-bit byte count (R83). -/
theorem Ctx.countByte_count (x : Ctx) : x.countByte.count = (x.count + 1) % 2 ^ 64 := by
  have hlo := x.cntLo.isLt
  have hhi := x.cntHi.isLt
  rw [Ctx.countByte_eq]
  split
  next hmax =>
    simp only [Ctx.count, hmax, BitVec.toNat_add, BitVec.ofNat_eq_ofNat, BitVec.toNat_ofNat]
    omega
  next hmax =>
    have hne : x.cntLo.toNat ≠ 0xFFFFFFFF := fun e => hmax (BitVec.eq_of_toNat_eq e)
    simp only [Ctx.count, BitVec.toNat_add, BitVec.ofNat_eq_ofNat, BitVec.toNat_ofNat]
    omega

/-- A byte pushed into an open engine counts itself and moves the fill offset on modulo 64; of the rest of the context it
can change the accumulators only (R82). -/
theorem View.pushByte_ctx_open {v : View} (hf : v.ctx.fin = false) (b : Byte) :
    ∃ h, (v.pushByte b).ctx = { v.ctx.countByte with h := h, off := v.ctx.off + 1 } := by
  unfold View.pushByte
  rw [if_neg (by simp [hf])]
  dsimp only
  split
  next hlast =>
    obtain ⟨h, d, e⟩ := View.compress_frame
      { v.blkByteWrite v.ctx.off.toNat b with ctx := (v.blkByteWrite v.ctx.off.toNat b).ctx.countByte }
    exact ⟨h, by rw [e, hlast]; simp [Ctx.countByte_eq]⟩
  next => exact ⟨v.ctx.h, by simp [Ctx.countByte_eq]⟩

/-- Pushing a byte keeps R34 (v): the offset wraps at 64 and the low counter at a multiple of 64. -/
theorem View.pushByte_offsetCounts {v : View} (hv : v.ctx.OffsetCounts) (b : Byte) : (v.pushByte b).ctx.OffsetCounts := by
  cases hf : v.ctx.fin with
  | true => rwa [View.pushByte_sealed hf]
  | false =>
    obtain ⟨h, e⟩ := View.pushByte_ctx_open hf b
    have hlo := v.ctx.cntLo.isLt
    simp only [Ctx.OffsetCounts] at hv
    simp only [Ctx.OffsetCounts, e, Ctx.countByte_eq, BitVec.toNat_add, BitVec.ofNat_eq_ofNat, BitVec.toNat_ofNat, hv]
    omega

theorem View.pushBytes_offsetCounts (bs : List Byte) :
    ∀ {v : View}, v.ctx.OffsetCounts → (v.pushBytes bs).ctx.OffsetCounts := by
  induction bs with
  | nil => intro v hv; exact hv
  | cons b bs ih => intro v hv; exact ih (View.pushByte_offsetCounts hv b)

/-! ### Finalizing (R84, R86, R103) -/

theorem View.engineReset_offsetCounts (v : View) : v.engineReset.ctx.OffsetCounts := by
  rw [View.engineReset_ctx]; rfl

theorem View.baseFinalize_offsetCounts {v : View} (hv : v.ctx.OffsetCounts) : v.baseFinalize.ctx.OffsetCounts := by
  obtain ⟨h, e⟩ := v.baseFinalize_ctx
  rw [e]; exact hv

/-- The outer pass starts from a reset engine, so R34 (v) holds after it whatever was before. -/
theorem View.hmacOuterPass_offsetCounts (v : View) : v.hmacOuterPass.ctx.OffsetCounts :=
  View.baseFinalize_offsetCounts <| View.pushBytes_offsetCounts _ <| View.pushBytes_offsetCounts _ <|
    View.engineReset_offsetCounts _

theorem View.finalize_offsetCounts {v : View} (hv : v.ctx.OffsetCounts) : v.finalize.ctx.OffsetCounts := by
  unfold View.finalize
  dsimp only
  split
  · exact View.hmacOuterPass_offsetCounts _
  · exact View.baseFinalize_offsetCounts hv

/-- What `Finalize` can change in a context: the accumulators, the offset and the counters; it leaves `FIN` 1, and `LATCH` 0
in an HMAC engine (R86). -/
theorem View.finalize_ctx (v : View) :
    ∃ h lo hi off, v.finalize.ctx =
      { v.ctx with h := h, cntLo := lo, cntHi := hi, off := off, fin := true, latch := v.ctx.latch && !v.ctx.m } := by
  obtain ⟨h, e⟩ := v.baseFinalize_ctx
  unfold View.finalize
  dsimp only
  rw [e]
  split
  next howes =>
    obtain ⟨hm : v.ctx.m = true, -⟩ := Bool.and_eq_true_iff.mp howes
    obtain ⟨h', lo, hi, off, e'⟩ := v.baseFinalize.hmacOuterPass_ctx
    have hl : (v.ctx.latch && !v.ctx.m) = false := by simp [hm]
    exact ⟨h', lo, hi, off, by rw [e', e, hl]⟩
  next hpaid =>
    replace hpaid : ¬(v.ctx.m && v.ctx.latch) = true := hpaid
    have hl : (v.ctx.latch && !v.ctx.m) = v.ctx.latch := by
      cases hm : v.ctx.m with
      | false => simp
      | true => simp_all
    exact ⟨h, v.ctx.cntLo, v.ctx.cntHi, v.ctx.off, by rw [e, hl]⟩

/-! ### Key bytes (R101, R102) -/

/-- A key byte goes to position `KLEN` of each pad, and from 64 on to none (R101). -/
theorem Ctx.padByte_eq (x : Ctx) (b : Byte) :
    x.padByte b =
      { x with
        ipad := x.ipad.setIfInBounds x.klen.toNat (b ^^^ 0x36#8)
        opad := x.opad.setIfInBounds x.klen.toNat (b ^^^ 0x5c#8) } := by
  unfold Ctx.padByte
  split
  next => rfl
  next hfull =>
    have hout : 64 ≤ x.klen.toNat := Nat.not_lt.mp hfull
    rw [Vector.setIfInBounds_eq_of_size_le hout, Vector.setIfInBounds_eq_of_size_le hout]

theorem Ctx.countKeyByte_eq (x : Ctx) :
    x.countKeyByte = { x with klen := if x.klen.toNat < 65 then x.klen + 1 else x.klen } := by
  unfold Ctx.countKeyByte
  split <;> rfl

/-- `KLEN` counts key bytes up to 65 (R26). -/
theorem Ctx.countKeyByte_klen {x : Ctx} (h : x.klen.toNat ≤ 65) :
    x.countKeyByte.klen.toNat = min (x.klen.toNat + 1) 65 := by
  rw [Ctx.countKeyByte_eq]
  dsimp only
  split
  · simp only [BitVec.toNat_add, BitVec.ofNat_eq_ofNat, BitVec.toNat_ofNat]
    omega
  · omega

/-- A key byte in an open engine: one more byte counted by the counters and by `KLEN`, and one byte of each pad (R101). -/
theorem View.keyByte_ctx {v : View} (hf : v.ctx.fin = false) (b : Byte) :
    ∃ h, (v.keyByte b).ctx =
      { v.ctx with
        h := h, off := v.ctx.off + 1, cntLo := v.ctx.countByte.cntLo, cntHi := v.ctx.countByte.cntHi
        klen := v.ctx.countKeyByte.klen, ipad := (v.ctx.padByte b).ipad, opad := (v.ctx.padByte b).opad } := by
  obtain ⟨h, e⟩ := View.pushByte_ctx_open (v := { v with ctx := (v.ctx.padByte b).countKeyByte })
    (by rwa [Ctx.padByte_eq, Ctx.countKeyByte_eq]) b
  refine ⟨h, e.trans ?_⟩
  simp only [Ctx.padByte_eq, Ctx.countKeyByte_eq, Ctx.countByte_eq]

theorem View.keyByte_offsetCounts {v : View} (hv : v.ctx.OffsetCounts) (b : Byte) : (v.keyByte b).ctx.OffsetCounts :=
  View.pushByte_offsetCounts (v := { v with ctx := (v.ctx.padByte b).countKeyByte })
    (by rwa [Ctx.padByte_eq, Ctx.countKeyByte_eq]) b

/-- Shortening a long key changes the accumulators, `FIN` and the pads only (R102). -/
theorem View.shortenKey_ctx (v : View) :
    ∃ h fin ip op, v.shortenKey.ctx = { v.ctx with h := h, fin := fin, ipad := ip, opad := op } := by
  unfold View.shortenKey
  split
  · obtain ⟨h, e⟩ := v.baseFinalize_ctx
    exact ⟨h, true, _, _, by dsimp only [Ctx.setPads]; rw [e]⟩
  · exact ⟨_, _, _, _, rfl⟩

/-- After `KEYEND` the engine is open, out of key phase, and owes its outer pass; `KLEN` stays (R102). -/
theorem View.keyEnd_ctx (v : View) :
    ∃ h lo hi off ip op, v.keyEnd.ctx =
      { v.ctx with
        h := h, cntLo := lo, cntHi := hi, off := off, fin := false, kph := false, latch := true, ipad := ip, opad := op } := by
  obtain ⟨_, _, ip, op, e⟩ := v.shortenKey_ctx
  obtain ⟨h, lo, hi, off, e'⟩ := View.pushBytes_ctx v.shortenKey.engineReset.ctx.ipad.toList v.shortenKey.engineReset
  refine ⟨h, lo, hi, off, ip, op, ?_⟩
  unfold View.keyEnd
  dsimp only
  rw [e', View.engineReset_ctx, e]

theorem View.keyEnd_offsetCounts (v : View) : v.keyEnd.ctx.OffsetCounts :=
  View.pushBytes_offsetCounts _ (v := v.shortenKey.engineReset) (View.engineReset_offsetCounts _)

/-! ### Admission (R59) -/

theorem Ctx.takesKey_iff (x : Ctx) : x.takesKey = true ↔ x.m = true ∧ x.kph = true := by simp [Ctx.takesKey]

theorem Ctx.takesData_iff (x : Ctx) : x.takesData = true ↔ x.kph = false := by simp [Ctx.takesData]

theorem Ctx.takesByteRead_iff (x : Ctx) (i : Nat) : x.takesByteRead i = true ↔ x.kph = false ∧ i < x.dlen := by
  simp [Ctx.takesByteRead, Ctx.takesData]

theorem Ctx.takesWordRead_iff (x : Ctx) (j : Nat) : x.takesWordRead j = true ↔ x.kph = false ∧ 4 * j < x.dlen := by
  simp [Ctx.takesWordRead, Ctx.takesData]

/-! ### The invariant, one context at a time (R34) -/

/-- Context `y` may take the place of `x` in a state that meets the invariant: it meets R34 itself, and is a live shared
context only as far as `x` was one, with the same taint. -/
abbrev Ctx.MayBecome (x y : Ctx) : Prop :=
  y.Ok ∧ (y.liveShared = true → x.liveShared = true ∧ y.tainted = x.tainted)

theorem Ctx.liveShared_iff (x : Ctx) : x.liveShared = true ↔ x.s = true ∧ x.fin = false := by
  simp [Ctx.liveShared]

theorem View.pushByte_mayBecome {v : View} (hv : v.ctx.Ok) (hk : v.ctx.kph = false) (b : Byte) :
    v.ctx.MayBecome (v.pushByte b).ctx := by
  obtain ⟨hphase, hplain, hsealed, hmessage, hoff, ⟨hmax, -⟩, htaint⟩ := hv
  have hoff' := View.pushByte_offsetCounts hoff b
  obtain ⟨h, lo, hi, off, e⟩ := v.pushByte_ctx b
  rw [e] at hoff' ⊢
  exact ⟨⟨hphase, hplain, hsealed, hmessage, hoff', ⟨hmax, fun hk' => by simp [hk] at hk'⟩, htaint⟩,
    fun hlive => ⟨hlive, rfl⟩⟩

theorem View.finalize_mayBecome {v : View} (hv : v.ctx.Ok) (hk : v.ctx.kph = false) :
    v.ctx.MayBecome v.finalize.ctx := by
  obtain ⟨hphase, hplain, hsealed, hmessage, hoff, ⟨hmax, -⟩, htaint⟩ := hv
  have hoff' := View.finalize_offsetCounts hoff
  have hlatch : (v.ctx.latch && !v.ctx.m) = false := by
    cases hm : v.ctx.m with
    | true => simp
    | false =>
      obtain ⟨-, hl, -⟩ := hplain hm
      simp [hl]
  obtain ⟨h, lo, hi, off, e⟩ := v.finalize_ctx
  rw [hlatch] at e
  rw [e] at hoff' ⊢
  refine ⟨⟨?_, ?_, fun _ => rfl, ?_, hoff', ⟨hmax, ?_⟩, htaint⟩, ?_⟩
  · intro hk'; simp [hk] at hk'
  · intro hm
    obtain ⟨_, _, hrest⟩ := hplain hm
    exact ⟨hk, rfl, hrest⟩
  · simp [Ctx.MessageLatch]
  · intro hk'; simp [hk] at hk'
  · simp [Ctx.liveShared]

theorem View.keyByte_mayBecome {v : View} (hv : v.ctx.Ok) (hm : v.ctx.m = true) (hk : v.ctx.kph = true) (b : Byte) :
    v.ctx.MayBecome (v.keyByte b).ctx := by
  obtain ⟨hphase, -, hsealed, -, hoff, ⟨hmax, hlen⟩, htaint⟩ := hv
  obtain ⟨-, hf, hl⟩ := hphase hk
  have hklen := Ctx.countKeyByte_klen hmax
  have hoff' := View.keyByte_offsetCounts hoff b
  have hcount : v.ctx.countKeyByte.klen.toNat < 65 → v.ctx.countByte.count = v.ctx.countKeyByte.klen.toNat := by
    intro hlt
    have := hlen hk (by omega)
    rw [Ctx.countByte_count]
    omega
  obtain ⟨h, e⟩ := View.keyByte_ctx hf b
  rw [e] at hoff' ⊢
  refine ⟨⟨fun _ => ⟨hm, hf, hl⟩, ?_, hsealed, ?_, hoff', ⟨by dsimp only; omega, fun _ => hcount⟩, htaint⟩,
    fun hlive => ⟨hlive, rfl⟩⟩
  · intro hm'; simp [hm] at hm'
  · intro _ hk'; simp [hk] at hk'

theorem View.keyEnd_mayBecome {v : View} (hv : v.ctx.Ok) (hm : v.ctx.m = true) (hk : v.ctx.kph = true) :
    v.ctx.MayBecome v.keyEnd.ctx := by
  obtain ⟨hphase, -, -, -, -, ⟨hmax, -⟩, htaint⟩ := hv
  obtain ⟨-, hf, -⟩ := hphase hk
  have hoff' := v.keyEnd_offsetCounts
  obtain ⟨h, lo, hi, off, ip, op, e⟩ := v.keyEnd_ctx
  rw [e] at hoff' ⊢
  refine ⟨⟨by simp [Ctx.KeyPhaseFlags], ?_, by simp [Ctx.SealedLatch], fun _ _ _ => rfl, hoff', ⟨hmax, by simp⟩, htaint⟩, ?_⟩
  · intro hm'; simp [hm] at hm'
  · simp [Ctx.liveShared_iff, hf]

/-- A context that has just been constructed as a plain engine meets R34 (R88). -/
theorem Ctx.asPlain_engineReset_ok (s : State) (x : Ctx) (t sh : Bool) :
    (s.view (x.asPlain t sh)).engineReset.ctx.Ok := by
  rw [View.engineReset_ctx]
  exact ⟨by simp [Ctx.KeyPhaseFlags], fun _ => ⟨rfl, rfl, rfl, rfl, rfl⟩, fun _ => rfl, by simp [Ctx.MessageLatch],
    rfl, by simp [Ctx.KeyLength], by simp [Ctx.TaintShared]⟩

/-- A context that has just entered key phase meets R34 (R100). -/
theorem Ctx.asHmac_engineReset_ok (s : State) (x : Ctx) (t sh : Bool) :
    (s.view (x.asHmac t sh)).engineReset.ctx.Ok := by
  rw [View.engineReset_ctx]
  exact ⟨fun _ => ⟨rfl, rfl, rfl⟩, by simp [Ctx.PlainFields], fun _ => rfl, by simp [Ctx.MessageLatch],
    rfl, by simp [Ctx.KeyLength, Ctx.count], by simp [Ctx.TaintShared]⟩

theorem Ctx.reset_ok : Ctx.reset.Ok := by decide

/-! ### The invariant of the state (R34) -/

/-- The contexts after a view is stored: the named one replaced, with the view's block as its own when `S` = 0 (R38). -/
theorem State.store_ctxs (s : State) (c : Nat) (v : View) :
    (s.store c v).ctxs = s.ctxs.set c { v.ctx with b := if v.ctx.s then v.ctx.b else v.blk } := by
  unfold State.store
  split <;> rfl

/-- A change of one context into one it may become keeps the invariant: no live shared context is new. -/
theorem State.Ok.set {s u : State} (hs : s.Ok) {c : Nat} {x y : Ctx} (hx : s.ctxs[c]? = some x) (hu : u.ctxs = s.ctxs.set c y)
    (hxy : x.MayBecome y) : u.Ok := by
  obtain ⟨hlen, hall, hshare⟩ := hs
  obtain ⟨hy, hlive⟩ := hxy
  obtain ⟨hc, rfl⟩ := List.getElem?_eq_some_iff.mp hx
  have hcount : u.liveSharedCount ≤ s.liveSharedCount := by
    unfold State.liveSharedCount
    rw [hu, List.countP_set hc]
    by_cases hl : y.liveShared = true
    · have : 0 < s.ctxs.countP Ctx.liveShared := List.countP_pos_iff.mpr ⟨_, List.getElem_mem hc, (hlive hl).1⟩
      simp only [hl, (hlive hl).1, if_true]
      omega
    · rw [if_neg hl]
      omega
  refine ⟨by rwa [hu, List.length_set], fun z hz => ?_, fun htwo z hz hzl => ?_⟩
  · rw [hu] at hz
    rcases List.mem_or_eq_of_mem_set hz with hz | rfl
    · exact hall z hz
    · exact hy
  · rw [hu] at hz
    rcases List.mem_or_eq_of_mem_set hz with hz | rfl
    · exact hshare (by omega) z hz hzl
    · rw [(hlive hzl).2]
      exact hshare (by omega) _ (List.getElem_mem hc) (hlive hzl).1

theorem State.Ok.act {s : State} (hs : s.Ok) {c : Nat} {x : Ctx} (hx : s.ctxs[c]? = some x) {f : View → View}
    (hf : x.MayBecome (f (s.view x)).ctx) (out : Ctx → Word) : (s.act c x f out).Ok :=
  hs.set hx (State.store_ctxs s c _) hf

/-- Marking every live shared context once there are two establishes the clause on taint (R142). -/
theorem State.noteSharing_ok {s : State} (hlen : 1 ≤ s.ctxs.length ∧ s.ctxs.length ≤ 16) (hall : ∀ x ∈ s.ctxs, x.Ok) :
    s.noteSharing.Ok := by
  by_cases hone : s.liveSharedCount ≤ 1
  · rw [State.noteSharing_contract hone]
    exact ⟨hlen, hall, fun htwo => by omega⟩
  · rw [State.noteSharing_breach hone]
    refine ⟨by simpa using hlen, fun y hy => ?_, fun _ y hy hlive => ?_⟩
    · obtain ⟨x, hx, rfl⟩ := List.mem_map.mp hy
      split
      next hl =>
        obtain ⟨h1, h2, h3, h4, h5, h6, -⟩ := hall x hx
        exact ⟨h1, h2, h3, h4, h5, h6, fun _ => (x.liveShared_iff.mp hl).1⟩
      next => exact hall x hx
    · obtain ⟨x, hx, rfl⟩ := List.mem_map.mp hy
      split at hlive
      next hl => simp [hl]
      next hl => exact absurd hlive hl

theorem State.Ok.construct {s : State} (hs : s.Ok) {c : Nat} {x y : Ctx} (hx : s.ctxs[c]? = some x)
    (hy : (s.view y).engineReset.ctx.Ok) : (s.construct c y).Ok := by
  have hstore := State.store_ctxs s c (s.view y).engineReset
  unfold State.construct
  cases hsh : y.s with
  | false =>
    refine hs.set hx hstore ⟨hy, fun hlive => ?_⟩
    simp [Ctx.liveShared, hsh] at hlive
  | true =>
    obtain ⟨hlen, hall, -⟩ := hs
    refine State.noteSharing_ok (by simpa using hlen) fun z hz => ?_
    rw [hstore] at hz
    rcases List.mem_or_eq_of_mem_set hz with hz | rfl
    · exact hall z hz
    · exact hy

theorem State.Ok.accept {s : State} (hs : s.Ok) {c : Nat} {ok : Ctx → Bool} {run : Ctx → State}
    (hrun : ∀ x, s.ctxs[c]? = some x → x.Ok → ok x = true → (run x).Ok) : (s.accept c ok run).Ok := by
  rcases s.accept_cases c ok run with ⟨-, e⟩ | ⟨x, hx, hk, e⟩
  · rw [e]; exact hs
  · have ⟨_, hall, _⟩ := hs
    rw [e]; exact hrun x hx (hall x (List.mem_of_getElem? hx)) hk

/-- Every command keeps the invariant. -/
theorem State.Ok.exec {s u : State} (hs : s.Ok) (i : Instr) (h : exec i s = .next u) : u.Ok := by
  cases i with
  | nop => cases h; exact hs
  | init c t sh => cases h; exact hs.accept fun x hx _ _ => hs.construct hx (x.asPlain_engineReset_ok s t sh)
  | hinit c t sh => cases h; exact hs.accept fun x hx _ _ => hs.construct hx (x.asHmac_engineReset_ok s t sh)
  | keyb c b =>
    cases h
    refine hs.accept fun x hx hok htakes => hs.act hx ?_ _
    obtain ⟨hm, hk⟩ := x.takesKey_iff.mp htakes
    exact View.keyByte_mayBecome (v := s.view x) hok hm hk b
  | keyend c =>
    cases h
    refine hs.accept fun x hx hok htakes => hs.act hx ?_ _
    obtain ⟨hm, hk⟩ := x.takesKey_iff.mp htakes
    exact View.keyEnd_mayBecome (v := s.view x) hok hm hk
  | pushb c b =>
    cases h
    exact hs.accept fun x hx hok htakes =>
      hs.act hx (View.pushByte_mayBecome (v := s.view x) hok (x.takesData_iff.mp htakes) b) _
  | final c =>
    cases h
    exact hs.accept fun x hx hok htakes =>
      hs.act hx (View.finalize_mayBecome (v := s.view x) hok (x.takesData_iff.mp htakes)) _
  | rdb c j =>
    cases h
    exact hs.accept fun x hx hok htakes =>
      hs.act hx (View.finalize_mayBecome (v := s.view x) hok (x.takesByteRead_iff j |>.mp htakes).1) _
  | rdw c j =>
    cases h
    exact hs.accept fun x hx hok htakes =>
      hs.act hx (View.finalize_mayBecome (v := s.view x) hok (x.takesWordRead_iff j |>.mp htakes).1) _
  | rdst c => cases h; exact hs.accept fun _ _ _ _ => hs
  | rdcnt c n => cases h; exact hs.accept fun _ _ _ _ => hs

/-- The input `rst` establishes the per-context clauses, and no context is shared after it. -/
theorem State.Ok.restart {s : State} (hs : s.Ok) : s.restart.Ok := by
  obtain ⟨hlen, -, -⟩ := hs
  refine ⟨by simpa using hlen, fun x hx => ?_, fun _ x hx hlive => ?_⟩
  · rw [List.eq_of_mem_replicate hx]; exact Ctx.reset_ok
  · rw [List.eq_of_mem_replicate hx] at hlive; cases hlive

/-- Settles O6: each command changes one context into one it may become, or constructs one and notes what is shared. -/
theorem stepKeepsStateInvariant : Obligations.StepKeepsStateInvariant := by
  intro s u hs hstep
  rcases step_cases s with ⟨-, e⟩ | ⟨_, -, e⟩ | ⟨_, _, _, -, -, e⟩ | ⟨_, _, i, -, -, e⟩
  · cases e.symm.trans hstep; exact hs
  · cases e.symm.trans hstep; exact State.Ok.restart (s := s.taken) hs
  · cases e.symm.trans hstep; exact hs
  · exact State.Ok.exec (s := s.taken) hs i (e.symm.trans hstep)

/-! ### Commands that are admitted (R59) -/

section admitted
variable {s : State} {c : Nat} {x : Ctx} (hx : s.ctxs[c]? = some x)
include hx

theorem exec_init (t sh : Bool) : exec (.init c t sh) s = .next (s.construct c (x.asPlain t sh)) :=
  congrArg Host.Outcome.next (State.accept_ok hx rfl _)

theorem exec_hinit (t sh : Bool) : exec (.hinit c t sh) s = .next (s.construct c (x.asHmac t sh)) :=
  congrArg Host.Outcome.next (State.accept_ok hx rfl _)

theorem exec_keyb (hm : x.m = true) (hk : x.kph = true) (b : Byte) :
    exec (.keyb c b) s = .next (s.act c x (fun v => v.keyByte b) (fun _ => 0)) :=
  congrArg Host.Outcome.next (State.accept_ok hx (x.takesKey_iff.mpr ⟨hm, hk⟩) _)

theorem exec_rdst : exec (.rdst c) s = .next (s.respondOk x.status) :=
  congrArg Host.Outcome.next (State.accept_ok hx rfl _)

end admitted

/-! ### The status word (R31) -/

/-- A field that lies above every bit of `w` adds its value at its position. -/
theorem toNat_or_fieldAt {k p : Nat} {w : Word} (f : BitVec k) (hw : w.toNat < 2 ^ p) (hfit : p + k ≤ 32) :
    (w ||| (f.zeroExtend 32 <<< p)).toNat = w.toNat + 2 ^ p * f.toNat := by
  have hlt : 2 ^ p * f.toNat < 2 ^ 32 :=
    calc 2 ^ p * f.toNat < 2 ^ p * 2 ^ k := Nat.mul_lt_mul_of_pos_left f.isLt (Nat.two_pow_pos p)
      _ = 2 ^ (p + k) := (Nat.pow_add 2 p k).symm
      _ ≤ 2 ^ 32 := Nat.pow_le_pow_right (by decide) hfit
  have hf : f.toNat < 2 ^ 32 := f.isLt.trans_le (Nat.pow_le_pow_right (by decide) (by omega))
  have hfield : (f.zeroExtend 32 <<< p).toNat = 2 ^ p * f.toNat := by
    rw [BitVec.toNat_shiftLeft, BitVec.toNat_setWidth, Nat.mod_eq_of_lt hf, Nat.shiftLeft_eq, Nat.mul_comm,
      Nat.mod_eq_of_lt hlt]
  rw [BitVec.toNat_or, hfield, Nat.lor_comm, ← Nat.two_pow_add_eq_or_of_lt hw, Nat.add_comm]

/-- The six control bits in bits 0 to 5. -/
theorem toNat_flags : ∀ f0 f1 f2 f3 f4 f5 : Bool,
    (flagAt 0 f0 ||| flagAt 1 f1 ||| flagAt 2 f2 ||| flagAt 3 f3 ||| flagAt 4 f4 ||| flagAt 5 f5).toNat =
      f0.toNat + 2 * f1.toNat + 4 * f2.toNat + 8 * f3.toNat + 16 * f4.toNat + 32 * f5.toNat := by decide

/-- The status word is the sum of its fields, each at its position. -/
theorem Ctx.status_toNat (x : Ctx) :
    x.status.toNat = x.fin.toNat + 2 * x.t.toNat + 4 * x.s.toNat + 8 * x.m.toNat + 16 * x.kph.toNat + 32 * x.latch.toNat
      + 2 ^ 8 * x.off.toNat + 2 ^ 16 * x.klen.toNat := by
  have hflags := toNat_flags x.fin x.t x.s x.m x.kph x.latch
  have h0 := x.fin.toNat_le
  have h1 := x.t.toNat_le
  have h2 := x.s.toNat_le
  have h3 := x.m.toNat_le
  have h4 := x.kph.toNat_le
  have h5 := x.latch.toNat_le
  have hoff := toNat_or_fieldAt (p := 8) x.off (by rw [hflags]; omega) (by decide)
  have := x.off.isLt
  unfold Ctx.status
  rw [toNat_or_fieldAt x.klen (by rw [hoff, hflags]; omega) (by decide), hoff, hflags]

/-- Settles O36: the response is the status word, which is the sum of its fields. -/
theorem rdstReturnsStatusFields : Obligations.RdstReturnsStatusFields := by
  intro s c
  exact ⟨fun hnone => congrArg Host.Outcome.next (State.accept_none hnone _ _),
    fun x hx => ⟨x.status, exec_rdst hx, x.status_toNat⟩⟩

/-! ### Construction and the values after reset (R35, R88) -/

/-- Constructing a context on its own block leaves it a reset engine with a zero block (R81). -/
theorem State.construct_ownBlock {s : State} {c : Nat} {x : Ctx} (hc : c < s.ctxs.length) (hsh : x.s = false)
    (hclean : x.tainted = false) :
    (s.construct c x).ctxs[c]? = some
      { x with h := ivOf x.t, b := Vector.replicate 16 0, off := 0, cntLo := 0, cntHi := 0, fin := false } := by
  have hreset := View.engineReset_clean (v := s.view x) hclean
  have hstore := State.store_self s (s.view x).engineReset hc
  rw [hreset] at hstore
  simpa [State.construct, hsh, hreset] using hstore

/-- Noting a breach of the contract changes no field of a context but the taint (R142). -/
theorem State.noteSharing_getElem? {s : State} {c : Nat} {x : Ctx} (hx : s.ctxs[c]? = some x) :
    ∃ tainted, s.noteSharing.ctxs[c]? = some { x with tainted := tainted } := by
  by_cases hone : s.liveSharedCount ≤ 1
  · exact ⟨x.tainted, by rw [State.noteSharing_contract hone, hx]⟩
  · rw [State.noteSharing_breach hone]
    cases hl : x.liveShared with
    | true => exact ⟨true, by simp [hx, hl]⟩
    | false => exact ⟨x.tainted, by simp [hx, hl]⟩

/-- Constructing a context resets its engine; on the shared block it may come out marked as tainted (R81, R142). -/
theorem State.construct_self {s : State} {c : Nat} (x : Ctx) (hc : c < s.ctxs.length) :
    ∃ b tainted, (s.construct c x).ctxs[c]? = some
      { x with h := ivOf x.t, b := b, off := 0, cntLo := 0, cntHi := 0, fin := false, tainted := tainted } := by
  have hstore := State.store_self s (s.view x).engineReset hc
  rw [View.engineReset_ctx] at hstore
  unfold State.construct
  dsimp only
  split
  · obtain ⟨tainted, e⟩ := State.noteSharing_getElem? hstore
    exact ⟨_, tainted, e⟩
  · exact ⟨_, x.tainted, hstore⟩

/-- Settles O10: `INIT c, 0, 0` reaches `Ctx.reset`, and its fields are the rows of R35's table. -/
theorem resetGivesStatedValues : Obligations.ResetGivesStatedValues := by
  refine ⟨fun s c x hx => ⟨_, exec_init hx false false, ?_⟩, fun n => ⟨rfl, State.resetOf_length n, ?_⟩⟩
  · obtain ⟨hc, -⟩ := List.getElem?_eq_some_iff.mp hx
    rw [State.construct_ownBlock hc rfl rfl, State.resetOf_ctx (Nat.lt_succ_self c)]
    rfl
  · intro c x hx
    obtain rfl : x = Ctx.reset := List.eq_of_mem_replicate (List.mem_of_getElem? hx)
    exact ⟨rfl, rfl, rfl, rfl, rfl, rfl, rfl, rfl, rfl, rfl, rfl, rfl, rfl, rfl, by decide⟩

/-! ### The key phase (R34 (vii), R101) -/

/-- What a context holds once the bytes of `key` have come in key phase: R34 (vii), and the pads of R101. -/
abbrev Ctx.HoldsKey (x : Ctx) (key : List Byte) : Prop :=
  x.m = true ∧ x.kph = true ∧ x.fin = false ∧ x.count = key.length % 2 ^ 64 ∧ x.klen.toNat = min key.length 65 ∧
    ∀ (i : Nat) (h : i < 64), x.ipad[i] = key.getD i 0 ^^^ 0x36#8 ∧ x.opad[i] = key.getD i 0 ^^^ 0x5c#8

/-- Among the first 64, one more byte is new only at the position the count so far points to. -/
theorem getD_concat_of_lt {key : List Byte} {b : Byte} {i : Nat} (hi : i < 64) :
    (key ++ [b]).getD i 0 = if i = min key.length 65 then b else key.getD i 0 := by
  rcases Nat.lt_trichotomy i key.length with hlt | rfl | hgt
  · rw [if_neg (by omega), List.getD_append _ _ _ _ hlt]
  · rw [if_pos (by omega), List.getD_append_right _ _ _ _ le_rfl, Nat.sub_self, List.getD_cons_zero]
  · rw [if_neg (by omega), List.getD_eq_default _ _ (by simp; omega), List.getD_eq_default _ _ (by omega)]

/-- `KEYB` appends its byte to the key a context holds. -/
theorem View.keyByte_holdsKey {v : View} {key : List Byte} (hv : v.ctx.HoldsKey key) (b : Byte) :
    (v.keyByte b).ctx.HoldsKey (key ++ [b]) := by
  obtain ⟨hm, hk, hf, hcount, hklen, hpads⟩ := hv
  obtain ⟨h, e⟩ := View.keyByte_ctx hf b
  have hcount' : v.ctx.countByte.count = (key ++ [b]).length % 2 ^ 64 := by
    rw [Ctx.countByte_count, hcount, Nat.mod_add_mod, List.length_append, List.length_singleton]
  have hklen' : v.ctx.countKeyByte.klen.toNat = min (key ++ [b]).length 65 := by
    rw [Ctx.countKeyByte_klen (by omega), List.length_append, List.length_singleton]
    omega
  rw [e]
  refine ⟨hm, hk, hf, hcount', hklen', fun i hi => ?_⟩
  obtain ⟨hip, hop⟩ := hpads i hi
  simp only [Ctx.padByte_eq, Vector.getElem_setIfInBounds hi, hklen, hip, hop, getD_concat_of_lt hi, eq_comm (b := i)]
  constructor <;> split <;> rfl

/-- A context that has just entered key phase holds the empty key (R100). -/
theorem Ctx.asHmac_holdsKey (x : Ctx) (t sh tainted : Bool) (b : Block) :
    Ctx.HoldsKey { x.asHmac t sh with
      h := ivOf t, b := b, off := 0, cntLo := 0, cntHi := 0, fin := false, tainted := tainted } [] := by
  refine ⟨rfl, rfl, rfl, by simp [Ctx.count], rfl, fun i hi => ?_⟩
  simp [Ctx.asHmac]

/-- The first command's response, then the responses to the others (R57). -/
theorem drive_cons {i : Instr} {rest : List Instr} {s u w : State} {r : Response} {rs : List Response}
    (hi : exec i s = .next u) (hr : u.rsp = some r) (hrest : drive rest u = some (w, rs)) :
    drive (i :: rest) s = some (w, r :: rs) := by
  simp [drive, hi, hr, hrest]

/-- A sequence of key bytes, sent after the bytes `key`, is answered with (OK, 0) throughout and appended. -/
theorem drive_keyBytes {c : Nat} (more : List Byte) :
    ∀ {s : State} {x : Ctx} {key : List Byte}, s.ctxs[c]? = some x → x.HoldsKey key →
      ∃ u rs y, drive (more.map (.keyb c)) s = some (u, rs) ∧ u.ctxs[c]? = some y ∧ (∀ r ∈ rs, r = okResponse 0) ∧
        y.HoldsKey (key ++ more) := by
  induction more with
  | nil => intro s x key hx hkey; exact ⟨s, [], x, rfl, hx, by simp, by simpa using hkey⟩
  | cons b more ih =>
    intro s x key hx hkey
    obtain ⟨hc, -⟩ := List.getElem?_eq_some_iff.mp hx
    have hself := State.store_self s ((s.view x).keyByte b) hc
    obtain ⟨u, rs, y, hdrive, hy, hrs, hkey'⟩ := ih (s := s.act c x (fun v => v.keyByte b) (fun _ => 0)) hself
      (View.keyByte_holdsKey (v := s.view x) hkey b)
    obtain ⟨hm, hk, -⟩ := hkey
    exact ⟨u, okResponse 0 :: rs, y, drive_cons (exec_keyb hx hm hk b) rfl hdrive, hy,
      List.forall_mem_cons.mpr ⟨rfl, hrs⟩, by simpa using hkey'⟩

/-- Settles O41, by induction on the key bytes from the empty key that `HINIT` leaves. -/
theorem keyPhaseCountsAndKeepsKeyBytes : Obligations.KeyPhaseCountsAndKeepsKeyBytes := by
  intro s c t sh key hc _
  obtain ⟨b, tainted, hself⟩ := State.construct_self (s.ctxs[c].asHmac t sh) hc
  obtain ⟨u, rs, y, hdrive, hy, hrs, hkey⟩ := drive_keyBytes key hself (Ctx.asHmac_holdsKey _ _ _ _ _)
  have hhinit := drive_cons (exec_hinit (List.getElem?_eq_getElem hc) t sh) (State.construct_rsp _ _ _) hdrive
  exact ⟨u, okResponse 0 :: rs, y, hhinit, hy, List.forall_mem_cons.mpr ⟨rfl, hrs⟩, hkey⟩

end Sys2Proof.Machine
end

section
/-! ## Memory (spec/20_memory.md)

Laws of byte and word access, of what is answered in key phase, and of commands on contexts with their own blocks; from them
the statements of this family. -/

namespace Sys2Proof.Machine

/-! ### Bytes of words and blocks (R41, R42) -/

theorem getLsbD_wordByte (w : Word) (k p : Nat) :
    (wordByte w k).getLsbD p = (decide (p < 8) && w.getLsbD (24 - 8 * k + p)) := by
  simp [wordByte]

/-- The byte's bits stand at its position, and every other bit of the word stays (R41). -/
theorem getLsbD_putByte (w : Word) (sh : Nat) (b : Byte) {p : Nat} (hp : p < 32) :
    (putByte w sh b).getLsbD p = if sh ≤ p ∧ p < sh + 8 then b.getLsbD (p - sh) else w.getLsbD p := by
  have hmask : (0xFF#32).getLsbD (p - sh) = decide (p - sh < 8) :=
    (by decide : ∀ n < 32, (0xFF#32).getLsbD n = decide (n < 8)) _ (by omega)
  simp only [putByte, BitVec.getLsbD_or, BitVec.getLsbD_and, BitVec.getLsbD_not, BitVec.getLsbD_shiftLeft,
    BitVec.getLsbD_setWidth, hmask, hp]
  split
  next hin =>
    obtain ⟨hlow, hhigh⟩ := hin
    simp [show ¬ p < sh by omega, show p - sh < 8 by omega, show p - sh < 32 by omega]
  next hout =>
    rcases Nat.lt_or_ge p sh with hlow | hhigh
    · simp [hlow]
    · simp [show ¬ p - sh < 8 by omega, BitVec.getLsbD_of_ge b (p - sh) (by omega)]

/-- A word reads back the byte put at position `k`, and its old byte at every other position (R41, R42). -/
theorem wordByte_putByte (w : Word) (b : Byte) {k m : Nat} (hk : k < 4) (hm : m < 4) :
    wordByte (putByte w (24 - 8 * k) b) m = if m = k then b else wordByte w m := by
  apply BitVec.eq_of_getLsbD_eq
  intro p hp
  rw [getLsbD_wordByte, getLsbD_putByte w _ b (by omega)]
  by_cases hmk : m = k
  · rw [if_pos hmk, if_pos (by omega)]
    simp [hp, hmk]
  · rw [if_neg hmk, if_neg (by omega), getLsbD_wordByte]

/-- A word write replaces the one word it names (R40). -/
theorem getD_setIfInBounds {x : Block} {k : Nat} (hk : k < 16) (w : Word) (j : Nat) :
    (x.setIfInBounds k w).getD j 0 = if j = k then w else x.getD j 0 := by
  simp only [Vector.getD, Vector.toArray_setIfInBounds, Array.getD_eq_getD_getElem?, Array.getElem?_setIfInBounds,
    Vector.size_toArray, hk, if_true, eq_comm (a := k)]
  split <;> rfl

/-- A block reads back the byte put at index `i`, and its old byte at every other index (R41). -/
theorem blockByte_blockPutByte (x : Block) (b : Byte) {i : Nat} (hi : i < 64) (j : Nat) :
    blockByte (blockPutByte x i b) j = if j = i then b else blockByte x j := by
  unfold blockByte blockPutByte
  rw [getD_setIfInBounds (by omega)]
  split
  next hword =>
    have hsame : j % 4 = i % 4 ↔ j = i := by omega
    rw [wordByte_putByte _ b (Nat.mod_lt _ (by decide)) (Nat.mod_lt _ (by decide)), hword]
    simp only [hsame]
  next hword => rw [if_neg (by omega)]

/-- Settles O24: in an untainted context the block becomes `blockPutByte` of it. -/
theorem blockByteWriteReadsBack : Obligations.BlockByteWriteReadsBack := by
  intro v i b hclean hi
  refine ⟨v.blkByteWrite_ctx i b, fun j _ => ?_, fun j _ hne => ?_⟩
  · rw [View.blkByteWrite_clean hclean, blockByte_blockPutByte v.blk b hi j]
  · rw [View.blkByteWrite_clean hclean]
    exact (getD_setIfInBounds (by omega) _ j).trans (if_neg hne)

/-! ### Digest bytes and words (R42 (d), R93) -/

/-- A byte of a word, put back at its position, has the word's own bits there and 0 elsewhere (R42). -/
theorem getLsbD_wordByte_shiftLeft (w : Word) {k p : Nat} (hk : k < 4) (hp : p < 32) :
    ((wordByte w k).zeroExtend 32 <<< (24 - 8 * k)).getLsbD p = (decide (p / 8 = 3 - k) && w.getLsbD p) := by
  rw [BitVec.getLsbD_shiftLeft, BitVec.getLsbD_setWidth, getLsbD_wordByte]
  by_cases hplace : p / 8 = 3 - k
  · have hpos : 24 - 8 * k + (p - (24 - 8 * k)) = p := by omega
    simp [hplace, hp, hpos, show ¬ p < 24 - 8 * k by omega, show p - (24 - 8 * k) < 8 by omega,
      show p - (24 - 8 * k) < 32 by omega]
  · rcases Nat.lt_or_ge p (24 - 8 * k) with hbelow | habove
    · simp [hplace, hbelow]
    · simp [hplace, show ¬ p - (24 - 8 * k) < 8 by omega]

/-- A word is its four bytes, the most significant first (R42). -/
theorem word_eq_bytes (w : Word) :
    ((wordByte w 0).zeroExtend 32 <<< 24) ||| ((wordByte w 1).zeroExtend 32 <<< 16)
      ||| ((wordByte w 2).zeroExtend 32 <<< 8) ||| (wordByte w 3).zeroExtend 32 = w := by
  apply BitVec.eq_of_getLsbD_eq
  intro p hp
  have h0 := getLsbD_wordByte_shiftLeft w (k := 0) (by decide) hp
  have h1 := getLsbD_wordByte_shiftLeft w (k := 1) (by decide) hp
  have h2 := getLsbD_wordByte_shiftLeft w (k := 2) (by decide) hp
  have h3 := getLsbD_wordByte_shiftLeft w (k := 3) (by decide) hp
  rw [BitVec.shiftLeft_zero] at h3
  rw [BitVec.getLsbD_or, BitVec.getLsbD_or, BitVec.getLsbD_or, h0, h1, h2, h3]
  rcases (by omega : p / 8 = 0 ∨ p / 8 = 1 ∨ p / 8 = 2 ∨ p / 8 = 3) with h | h | h | h <;> simp [h]

/-- Byte `k` of accumulator word `j` is digest byte `4 * j + k` (R42 (c)). -/
theorem hashByte_wordIndex (h : Vector Word 8) (j : Nat) {k : Nat} (hk : k < 4) :
    hashByte h (4 * j + k) = wordByte (h.getD j 0) k := by
  have hword : (4 * j + k) / 4 = j := by omega
  have hbyte : (4 * j + k) % 4 = k := by omega
  rw [hashByte, hword, hbyte]

theorem Ctx.digestBytes_getD {x : Ctx} {i : Nat} (hi : i < x.dlen) : x.digestBytes.getD i 0 = hashByte x.h i := by
  simp [Ctx.digestBytes, hi]

/-- A word that begins inside the digest ends inside it: `DLEN` is 28 or 32 (R6). -/
theorem Ctx.dlen_wordEnd {x : Ctx} {j k : Nat} (hk : k < 4) (hj : 4 * j < x.dlen) : 4 * j + k < x.dlen := by
  have hlen : x.dlen = 28 ∨ x.dlen = 32 := by cases ht : x.t <;> simp [Ctx.dlen, dlenOf, ht]
  omega

@[simp] theorem View.finalize_dlen (v : View) : v.finalize.ctx.dlen = v.ctx.dlen := by
  obtain ⟨h, lo, hi, off, e⟩ := v.finalize_ctx
  rw [e]
  rfl

section reads
variable {s : State} {c : Nat} {x : Ctx} (hx : s.ctxs[c]? = some x) (hk : x.kph = false)
include hx hk

/-- `RDW` of a word inside the digest finalizes and responds the accumulator word (R95). -/
theorem exec_rdw {j : Nat} (hj : 4 * j < x.dlen) :
    exec (.rdw c j) s = .next (s.act c x View.finalize fun y => y.h.getD j 0) :=
  congrArg Host.Outcome.next (State.accept_ok hx (x.takesWordRead_iff j |>.mpr ⟨hk, hj⟩) _)

/-- `RDB` of a byte inside the digest finalizes and responds that byte of the accumulators (R94). -/
theorem exec_rdb {i : Nat} (hi : i < x.dlen) :
    exec (.rdb c i) s = .next (s.act c x View.finalize fun y => (hashByte y.h i).zeroExtend 32) := by
  have hdigest : (s.view x).finalize.ctx.digestBytes.getD i 0 = hashByte (s.view x).finalize.ctx.h i :=
    Ctx.digestBytes_getD (by rwa [View.finalize_dlen])
  have hok := State.accept_ok hx (x.takesByteRead_iff i |>.mpr ⟨hk, hi⟩) fun x =>
    s.act c x View.finalize fun y => (y.digestBytes.getD i 0).zeroExtend 32
  refine congrArg Host.Outcome.next (hok.trans ?_)
  unfold State.act
  dsimp only
  rw [hdigest]

/-- `RDB` of byte `k` of word `j` responds that byte of accumulator word `j` (R42 (c), R94). -/
theorem exec_rdb_wordIndex {j k : Nat} (hk4 : k < 4) (hj : 4 * j < x.dlen) :
    exec (.rdb c (4 * j + k)) s =
      .next (s.act c x View.finalize fun y => (wordByte (y.h.getD j 0) k).zeroExtend 32) := by
  rw [exec_rdb hx hk (Ctx.dlen_wordEnd hk4 hj)]
  simp only [hashByte_wordIndex _ j hk4]

end reads

/-- Settles O35: all five reads leave the state `FINAL` leaves, and the word read is the four bytes put together. -/
theorem wordReadIsFourByteReads : Obligations.WordReadIsFourByteReads := by
  intro s c j x hx hk hj
  refine ⟨s.store c (s.view x).finalize, _, _, _, _,
    exec_rdb_wordIndex hx hk (k := 0) (by decide) hj,
    exec_rdb_wordIndex hx hk (k := 1) (by decide) hj,
    exec_rdb_wordIndex hx hk (k := 2) (by decide) hj,
    exec_rdb_wordIndex hx hk (k := 3) (by decide) hj, ?_⟩
  rw [word_eq_bytes]
  exact exec_rdw hx hk hj

/-! ### What is answered in key phase (R46, R59) -/

/-- The response to a command on context `x` in key phase. -/
def Ctx.keyPhaseResponse (x : Ctx) : Instr → Response
  | .pushb _ _ | .final _ | .rdb _ _ | .rdw _ _ => errResponse
  | .rdst _ => okResponse x.status
  | .rdcnt _ n => okResponse (if n then x.cntHi else x.cntLo)
  | .nop | .init _ _ _ | .hinit _ _ _ | .keyb _ _ | .keyend _ => okResponse 0

/-- In key phase the data commands and the digest reads are refused; the others answer from the control fields (R59). -/
theorem exec_keyPhase {s : State} {c : Nat} {x : Ctx} {i : Instr} (hx : s.ctxs[c]? = some x) (hm : x.m = true)
    (hk : x.kph = true) (hc : i.ctx? = some c) : ∃ u, exec i s = .next u ∧ u.rsp = some (x.keyPhaseResponse i) := by
  have hkey : x.takesKey = true := x.takesKey_iff.mpr ⟨hm, hk⟩
  have hdata : x.takesData = false := by simp [Ctx.takesData, hk]
  cases i with
  | nop => cases hc
  | init d t sh => cases hc; exact ⟨_, exec_init hx t sh, State.construct_rsp _ _ _⟩
  | hinit d t sh => cases hc; exact ⟨_, exec_hinit hx t sh, State.construct_rsp _ _ _⟩
  | keyb d b => cases hc; exact ⟨_, exec_keyb hx hm hk b, rfl⟩
  | keyend d => cases hc; exact ⟨_, congrArg Host.Outcome.next (State.accept_ok hx hkey _), rfl⟩
  | pushb d b => cases hc; exact ⟨_, congrArg Host.Outcome.next (State.accept_refused hx hdata _), rfl⟩
  | final d => cases hc; exact ⟨_, congrArg Host.Outcome.next (State.accept_refused hx hdata _), rfl⟩
  | rdb d j =>
    cases hc
    exact ⟨_, congrArg Host.Outcome.next (State.accept_refused hx (by simp [Ctx.takesByteRead, hdata]) _), rfl⟩
  | rdw d j =>
    cases hc
    exact ⟨_, congrArg Host.Outcome.next (State.accept_refused hx (by simp [Ctx.takesWordRead, hdata]) _), rfl⟩
  | rdst d => cases hc; exact ⟨_, exec_rdst hx, rfl⟩
  | rdcnt d n => cases hc; exact ⟨_, congrArg Host.Outcome.next (State.accept_ok hx rfl _), rfl⟩

/-- Settles O42: `keyPhaseResponse` reads none of the fields in which the two contexts may differ. -/
theorem keyPhaseResponsesHideKey : Obligations.KeyPhaseResponsesHideKey := by
  intro s u c x y i hx hy hm hk hsame hc
  obtain ⟨h, b, ip, op, tainted, rfl⟩ :
      ∃ h b ip op tainted, y = { x with h := h, b := b, ipad := ip, opad := op, tainted := tainted } :=
    ⟨_, _, _, _, _, hsame⟩
  obtain ⟨s', hs', hrs⟩ := exec_keyPhase hx hm hk hc
  obtain ⟨u', hu', hru⟩ := exec_keyPhase hy hm hk hc
  have hresponse : Ctx.keyPhaseResponse { x with h := h, b := b, ipad := ip, opad := op, tainted := tainted } i
      = x.keyPhaseResponse i := by cases i <;> rfl
  exact ⟨s', u', hs', hu', by rw [hrs, hru, hresponse]⟩

/-! ### A command on a context with its own block (R38, R47 (b))

In an untainted context no procedure draws a free value, so what a command does to a context with its own block depends on
that context alone. -/

@[simp] theorem Ctx.setPads_s (x : Ctx) (key : List Byte) : (x.setPads key).s = x.s := by simp only [Ctx.setPads]
@[simp] theorem Ctx.setPads_tainted (x : Ctx) (key : List Byte) : (x.setPads key).tainted = x.tainted := by
  simp only [Ctx.setPads]

/-- `w` is `v`, the view of an untainted context with its own block, at `d` draws. -/
structure View.OwnCopy (d : Nat) (v w : View) : Prop where
  own : v.ctx.s = false
  clean : v.ctx.tainted = false
  eq : w = { v with draws := d }

namespace View.OwnCopy
variable {d : Nat} {v w : View}

theorem ctx_eq (h : OwnCopy d v w) : w.ctx = v.ctx := by rw [h.eq]

/-- A change of the context that touches neither `S` nor the taint. -/
theorem mapCtx (h : OwnCopy d v w) (g : Ctx → Ctx) (hs : ∀ x, (g x).s = x.s) (ht : ∀ x, (g x).tainted = x.tainted) :
    OwnCopy d { v with ctx := g v.ctx } { w with ctx := g w.ctx } := by
  obtain ⟨hown, hclean, rfl⟩ := h
  exact ⟨(hs _).trans hown, (ht _).trans hclean, rfl⟩

theorem blkWrite (h : OwnCopy d v w) (j : Nat) (x : Word) : OwnCopy d (v.blkWrite j x) (w.blkWrite j x) := by
  obtain ⟨hown, hclean, rfl⟩ := h
  simp only [View.blkWrite_clean, hclean]
  exact ⟨hown, hclean, rfl⟩

theorem blkByteWrite (h : OwnCopy d v w) (i : Nat) (b : Byte) : OwnCopy d (v.blkByteWrite i b) (w.blkByteWrite i b) := by
  obtain ⟨hown, hclean, rfl⟩ := h
  simp only [View.blkByteWrite_clean, hclean]
  exact ⟨hown, hclean, rfl⟩

theorem blkZero (h : OwnCopy d v w) : OwnCopy d v.blkZero w.blkZero := by
  obtain ⟨hown, hclean, rfl⟩ := h
  simp only [View.blkZero_clean, hclean]
  exact ⟨hown, hclean, rfl⟩

theorem blkZeroFrom (h : OwnCopy d v w) (i : Nat) : OwnCopy d (v.blkZeroFrom i) (w.blkZeroFrom i) := by
  obtain ⟨hown, hclean, rfl⟩ := h
  simp only [View.blkZeroFrom_clean, hclean]
  exact ⟨hown, hclean, rfl⟩

theorem compress (h : OwnCopy d v w) : OwnCopy d v.compress w.compress := by
  obtain ⟨hown, hclean, rfl⟩ := h
  simp only [View.compress_clean, hclean]
  exact ⟨hown, rfl, rfl⟩

theorem engineReset (h : OwnCopy d v w) : OwnCopy d v.engineReset w.engineReset := by
  obtain ⟨hown, hclean, rfl⟩ := h
  simp only [View.engineReset_clean, hclean]
  exact ⟨hown, rfl, rfl⟩

theorem pushByte (h : OwnCopy d v w) (b : Byte) : OwnCopy d (v.pushByte b) (w.pushByte b) := by
  have hcount := (h.blkByteWrite v.ctx.off.toNat b).mapCtx Ctx.countByte (fun x => by rw [x.countByte_eq])
    (fun x => by rw [x.countByte_eq])
  unfold View.pushByte
  rw [h.ctx_eq]
  split
  · exact h
  · extract_lets
    split
    · exact hcount.compress.mapCtx (fun x => { x with off := 0 }) (fun _ => rfl) (fun _ => rfl)
    · exact hcount.mapCtx (fun x => { x with off := x.off + 1 }) (fun _ => rfl) (fun _ => rfl)

theorem pushBytes (bs : List Byte) : ∀ {v w : View}, OwnCopy d v w → OwnCopy d (v.pushBytes bs) (w.pushBytes bs) := by
  induction bs with
  | nil => intro v w h; exact h
  | cons b bs ih => intro v w h; exact ih (h.pushByte b)

theorem padLength (h : OwnCopy d v w) : OwnCopy d v.padLength w.padLength := by
  unfold View.padLength
  rw [h.ctx_eq]
  exact ((h.blkWrite 14 _).blkWrite 15 _).compress

theorem baseFinalize (h : OwnCopy d v w) : OwnCopy d v.baseFinalize w.baseFinalize := by
  have hfin : OwnCopy d v.raiseFin w.raiseFin := h.mapCtx (fun x => { x with fin := true }) (fun _ => rfl) (fun _ => rfl)
  have hmark : OwnCopy d v.raiseFin.padMarker w.raiseFin.padMarker := by
    unfold View.padMarker
    rw [hfin.ctx_eq]
    exact (hfin.blkByteWrite _ _).blkZeroFrom _
  unfold View.baseFinalize
  rw [h.ctx_eq]
  split
  · exact h
  · dsimp only
    split
    · exact hmark.compress.blkZero.padLength
    · exact hmark.padLength

theorem hmacOuterPass (h : OwnCopy d v w) : OwnCopy d v.hmacOuterPass w.hmacOuterPass := by
  have hlatch : OwnCopy d v.dropLatch w.dropLatch := h.mapCtx (fun x => { x with latch := false }) (fun _ => rfl) (fun _ => rfl)
  unfold View.hmacOuterPass
  dsimp only
  rw [hlatch.ctx_eq]
  exact (pushBytes _ (pushBytes _ hlatch.engineReset)).baseFinalize

theorem finalize (h : OwnCopy d v w) : OwnCopy d v.finalize w.finalize := by
  unfold View.finalize
  dsimp only
  rw [h.baseFinalize.ctx_eq]
  split
  · exact h.baseFinalize.hmacOuterPass
  · exact h.baseFinalize

theorem keyByte (h : OwnCopy d v w) (b : Byte) : OwnCopy d (v.keyByte b) (w.keyByte b) :=
  (h.mapCtx (fun x => (x.padByte b).countKeyByte) (fun x => by rw [Ctx.countKeyByte_eq, x.padByte_eq])
    (fun x => by rw [Ctx.countKeyByte_eq, x.padByte_eq])).pushByte b

theorem shortenKey (h : OwnCopy d v w) : OwnCopy d v.shortenKey w.shortenKey := by
  unfold View.shortenKey
  rw [h.ctx_eq]
  split
  · exact h.baseFinalize.mapCtx (fun x => x.setPads x.digestBytes) (fun x => x.setPads_s _) (fun x => x.setPads_tainted _)
  · exact h

theorem keyEnd (h : OwnCopy d v w) : OwnCopy d v.keyEnd w.keyEnd := by
  have hreset := h.shortenKey.engineReset
  unfold View.keyEnd
  dsimp only
  rw [hreset.ctx_eq]
  exact (pushBytes _ hreset).mapCtx (fun x => { x with kph := false, latch := true }) (fun _ => rfl) (fun _ => rfl)

end View.OwnCopy

/-- Context `c` becomes `y` and `r` is answered; nothing else changes. -/
def State.answer (s : State) (c : Nat) (y : Ctx) (r : Response) : State := { s with ctxs := s.ctxs.set c y, rsp := some r }

theorem State.answer_other (s : State) {c d : Nat} (y : Ctx) (r : Response) (h : d ≠ c) :
    (s.answer c y r).ctxs[d]? = s.ctxs[d]? := List.getElem?_set_ne (Ne.symm h)

/-- Answering with the context as it is. -/
theorem State.answer_same {s : State} {c : Nat} {x : Ctx} (h : s.ctxs[c]? = some x) (r : Response) :
    s.answer c x r = { s with rsp := some r } := by
  obtain ⟨hc, rfl⟩ := List.getElem?_eq_some_iff.mp h
  rw [State.answer, List.set_getElem_self]

/-- A refusal as an answer: there is no context to change, or it stays as it is. -/
theorem State.respondErr_eq_answer (s : State) (c : Nat) :
    s.respondErr = s.answer c (s.ctxs.getD c Ctx.reset) errResponse := by
  cases h : s.ctxs[c]? with
  | none =>
    rw [State.answer, List.set_eq_of_length_le (List.getElem?_eq_none_iff.mp h)]
    rfl
  | some x => rw [List.getD_eq_getElem?_getD, h, Option.getD_some, State.answer_same h]; rfl

/-- The view of a context with its own block, before any free value is drawn. -/
def Ctx.ownView (x : Ctx) : View := { ctx := x, blk := x.b, draws := 0, work := 0 }

/-- A context that is untainted and has its own block. -/
abbrev Ctx.Own (x : Ctx) : Prop := x.s = false ∧ x.tainted = false

/-- The effect of a procedure on an untainted context with its own block, computed from the context. -/
theorem State.act_own {x : Ctx} (hx : x.Own) {f : View → View}
    (hf : ∀ {d v w}, View.OwnCopy d v w → View.OwnCopy d (f v) (f w)) (s : State) (c : Nat) (out : Ctx → Word) :
    s.act c x f out =
      s.answer c { (f x.ownView).ctx with b := (f x.ownView).blk } (okResponse (out (f x.ownView).ctx)) := by
  obtain ⟨hs, ht⟩ := hx
  have hview : s.view x = { x.ownView with draws := s.draws } := by simp [State.view, State.blkOf, Ctx.ownView, hs]
  obtain ⟨hown, -, e⟩ := hf ⟨hs, ht, hview⟩
  simp [State.act, State.store, e, hown, State.answer, State.respondOk, okResponse]

/-- Constructing a context on its own block is a reset of its engine (R88, R100). -/
theorem State.construct_eq_act {x : Ctx} (hs : x.s = false) (s : State) (c : Nat) :
    s.construct c x = s.act c x View.engineReset fun _ => 0 := by
  simp [State.construct, State.act, hs]

/-- What a command does to context `c`, and its answer, is the same in every state in which the context is as in `s`. -/
def FixedAnswer (s : State) (c : Nat) (run : State → State) : Prop :=
  ∃ y r, ∀ u : State, u.ctxs[c]? = s.ctxs[c]? → run u = u.answer c y r

/-- Context `c`, if there is one, is untainted and has its own block. -/
abbrev State.OwnBlock (s : State) (c : Nat) : Prop := ∀ x, s.ctxs[c]? = some x → x.Own

/-- Admission reads the context alone (R59). -/
theorem FixedAnswer.accept {s : State} {c : Nat} {ok : Ctx → Bool} {run : State → Ctx → State}
    (hrun : ∀ x, s.ctxs[c]? = some x → FixedAnswer s c fun u => run u x) :
    FixedAnswer s c fun u => u.accept c ok (run u) := by
  rcases s.accept_cases c ok (run s) with ⟨hno, -⟩ | ⟨x, hx, hok, -⟩
  · refine ⟨s.ctxs.getD c Ctx.reset, errResponse, fun u hu => ?_⟩
    rcases u.accept_cases c ok (run u) with ⟨-, e⟩ | ⟨x, hx, hok, -⟩
    · dsimp only
      rw [e, u.respondErr_eq_answer c, List.getD_eq_getElem?_getD, hu, List.getD_eq_getElem?_getD]
    · exact absurd hok (by simp [hno x (hu ▸ hx)])
  · obtain ⟨y, r, h⟩ := hrun x hx
    exact ⟨y, r, fun u hu => (State.accept_ok (hu.trans hx) hok _).trans (h u hu)⟩

theorem FixedAnswer.act {s : State} {c : Nat} {x : Ctx} (hx : x.Own) {f : View → View}
    (hf : ∀ {d v w}, View.OwnCopy d v w → View.OwnCopy d (f v) (f w)) (out : Ctx → Word) :
    FixedAnswer s c fun u => u.act c x f out :=
  ⟨_, _, fun u _ => State.act_own hx hf u c out⟩

theorem FixedAnswer.construct {s : State} {c : Nat} {x : Ctx} (hx : x.Own) : FixedAnswer s c fun u => u.construct c x :=
  ⟨_, _, fun u _ => (State.construct_eq_act hx.1 u c).trans (State.act_own hx View.OwnCopy.engineReset u c _)⟩

theorem FixedAnswer.respondOk {s : State} {c : Nat} {x : Ctx} (hx : s.ctxs[c]? = some x) (v : Word) :
    FixedAnswer s c fun u => u.respondOk v :=
  ⟨x, okResponse v, fun _ hu => (State.answer_same (hu.trans hx) _).symm⟩

/-- A command that neither uses the shared block nor asks for it changes its context, and answers, as that context alone
determines. -/
theorem exec_fixedAnswer {s : State} {c : Nat} {i : Instr} (hown : s.OwnBlock c) (hc : i.ctx? = some c)
    (hp : privately i = i) : ∃ y r, ∀ u : State, u.ctxs[c]? = s.ctxs[c]? → exec i u = .next (u.answer c y r) := by
  suffices h : ∃ run : State → State, (∀ u, exec i u = .next (run u)) ∧ FixedAnswer s c run by
    obtain ⟨run, hexec, y, r, hfixed⟩ := h
    exact ⟨y, r, fun u hu => (hexec u).trans (congrArg _ (hfixed u hu))⟩
  cases i with
  | nop => cases hc
  | init d t sh =>
    cases hc
    obtain rfl : false = sh := by simpa [privately] using hp
    exact ⟨_, fun _ => rfl, .accept fun x _ => .construct ⟨rfl, rfl⟩⟩
  | hinit d t sh =>
    cases hc
    obtain rfl : false = sh := by simpa [privately] using hp
    exact ⟨_, fun _ => rfl, .accept fun x _ => .construct ⟨rfl, rfl⟩⟩
  | keyb d b => cases hc; exact ⟨_, fun _ => rfl, .accept fun x hx => .act (hown x hx) (·.keyByte b) _⟩
  | keyend d => cases hc; exact ⟨_, fun _ => rfl, .accept fun x hx => .act (hown x hx) (·.keyEnd) _⟩
  | pushb d b => cases hc; exact ⟨_, fun _ => rfl, .accept fun x hx => .act (hown x hx) (·.pushByte b) _⟩
  | final d => cases hc; exact ⟨_, fun _ => rfl, .accept fun x hx => .act (hown x hx) (·.finalize) _⟩
  | rdb d j => cases hc; exact ⟨_, fun _ => rfl, .accept fun x hx => .act (hown x hx) (·.finalize) _⟩
  | rdw d j => cases hc; exact ⟨_, fun _ => rfl, .accept fun x hx => .act (hown x hx) (·.finalize) _⟩
  | rdst d => cases hc; exact ⟨_, fun _ => rfl, .accept fun x hx => .respondOk hx _⟩
  | rdcnt d n => cases hc; exact ⟨_, fun _ => rfl, .accept fun x hx => .respondOk hx _⟩

/-- In a state that meets the invariant a context with `S` = 0 is untainted (log entry 4). -/
theorem State.Ok.ownBlock {s : State} (hs : s.Ok) {c : Nat} (hc : ∀ x, s.ctxs[c]? = some x → x.s = false) :
    s.OwnBlock c := by
  intro x hx
  obtain ⟨-, hall, -⟩ := hs
  obtain ⟨-, -, -, -, -, -, htaint⟩ := hall x (List.mem_of_getElem? hx)
  exact ⟨hc x hx, Bool.eq_false_iff.mpr fun ht => absurd (htaint ht) (by simp [hc x hx])⟩

/-- Settles O46: each command's answer is fixed by its own context, which the other command leaves as it is, and the two
replacements of contexts commute. -/
theorem commandsOnPrivateContextsCommute : Obligations.CommandsOnPrivateContextsCommute := by
  intro s i j a b hs hi hj hab ha hb hpi hpj
  obtain ⟨y, r, hexeci⟩ := exec_fixedAnswer (hs.ownBlock ha) hi hpi
  obtain ⟨z, q, hexecj⟩ := exec_fixedAnswer (hs.ownBlock hb) hj hpj
  refine ⟨s.answer a y r, (s.answer a y r).answer b z q, s.answer b z q, (s.answer b z q).answer a y r,
    hexeci s rfl, hexecj _ (s.answer_other y r hab.symm), hexecj s rfl, hexeci _ (s.answer_other z q hab), rfl, rfl, ?_⟩
  simp only [State.answer, List.set_comm y z hab]

end Sys2Proof.Machine
end

section
/-! ## Encoding (spec/30_encoding.md)

What a row of the opcode map says of the fields of a word, which words the decoder accepts, the encoder's word as a sum, and
what a command leaves as it was. -/

namespace Sys2Proof.Machine

/-! ### The fields of a word and the rows of the map (R51, R56) -/

/-- Two words put together in the same places are equal part by part. -/
theorem append_eq_append_iff {m n : Nat} {x x' : BitVec m} {y y' : BitVec n} : x ++ y = x' ++ y' ↔ x = x' ∧ y = y' := by
  refine ⟨fun h => ⟨?_, ?_⟩, fun ⟨hx, hy⟩ => by rw [hx, hy]⟩
  · simpa only [BitVec.extractLsb'_append_eq_left] using congrArg (·.extractLsb' n m) h
  · simpa only [BitVec.extractLsb'_append_eq_right] using congrArg (·.extractLsb' 0 n) h

/-- A word is its three fields put together (R51). -/
theorem append_fields (w : Cmd) : w.extractLsb' 12 4 ++ w.extractLsb' 8 4 ++ argField w = w := by
  unfold argField
  rw [BitVec.extractLsb'_append_extractLsb'_eq_extractLsb' (rfl : 12 = 8 + 4),
    BitVec.extractLsb'_append_extractLsb'_eq_extractLsb' (rfl : 8 = 0 + 8), BitVec.extractLsb'_eq_self]

/-- The bits of an argument byte from bit `k` up are 0 exactly when its value is less than `2^k`. -/
theorem and_highBits_eq_zero_iff (a : Byte) (k : Nat) : a &&& BitVec.allOnes 8 <<< k = 0#8 ↔ a.toNat < 2 ^ k := by
  have hle : a.toNat / 2 ^ k * 2 ^ k < 2 ^ 8 := (Nat.div_mul_le_self _ _).trans_lt a.isLt
  rw [← BitVec.shiftLeft_ushiftRight, ← BitVec.toNat_inj, BitVec.toNat_shiftLeft, BitVec.toNat_ushiftRight, Nat.shiftLeft_eq,
    Nat.shiftRight_eq_div_pow, Nat.mod_eq_of_lt hle]
  simp [Nat.div_eq_zero_iff]

/-- A word matches a row that fixes `op`, leaves the context free, and wants the argument bits from bit `k` up 0, exactly when
its fields say so (R52 to R56). -/
theorem matches_iff (op : BitVec 4) (k : Nat) (w : Cmd) :
    w &&& fields 0xF#4 0 (BitVec.allOnes 8 <<< k) = fields op 0 0#8 ↔ opField w = op.toNat ∧ (argField w).toNat < 2 ^ k := by
  have hop : w.extractLsb' 12 4 &&& 0xF#4 = op ↔ opField w = op.toNat := by
    rw [show (0xF#4) = BitVec.allOnes 4 from rfl, BitVec.and_allOnes, ← BitVec.toNat_inj, opField]
  conv_lhs => rw [← append_fields w]
  unfold fields
  rw [BitVec.and_append, BitVec.and_append, append_eq_append_iff, append_eq_append_iff, hop, and_highBits_eq_zero_iff]
  simp

/-- A word that matches a row has the row's opcode, so the row is the entry of that number (R56). -/
theorem opField_eq_of_matches {w : Cmd} {n : Nat} {r : OpcodeRow} (hr : opcodeRows[n]? = some r)
    (hw : w &&& r.mask = r.pattern) : opField w = n := by
  have hn : n < 11 := (List.getElem?_eq_some_iff.mp hr).1
  obtain ⟨q, hq, hmask, hop⟩ := opcodeRows_fix_op n hn
  obtain rfl : q = r := Option.some.inj (hq.symm.trans hr)
  have hall : q.mask.extractLsb' 12 4 = BitVec.allOnes 4 := by
    rw [← BitVec.and_allOnes (x := q.mask.extractLsb' 12 4)]
    exact BitVec.extractLsb'_and.symm.trans (congrArg (·.extractLsb' 12 4) hmask)
  rw [← hop, ← hw, opField, opField, BitVec.extractLsb'_and, hall, BitVec.and_allOnes]

/-- Two rows that match one word are one row. -/
theorem row_eq_of_matches {w : Cmd} {r q : OpcodeRow} (hr : r ∈ opcodeRows) (hq : q ∈ opcodeRows)
    (hwr : w &&& r.mask = r.pattern) (hwq : w &&& q.mask = q.pattern) : r = q := by
  obtain ⟨n, hn⟩ := List.mem_iff_getElem?.mp hr
  obtain ⟨m, hm⟩ := List.mem_iff_getElem?.mp hq
  obtain rfl := opField_eq_of_matches hn hwr
  obtain rfl := opField_eq_of_matches hm hwq
  exact Option.some.inj (hn.symm.trans hm)

/-- The mnemonic names the row. -/
theorem row_eq_of_mnemonic : ∀ r ∈ opcodeRows, ∀ q ∈ opcodeRows, r.mnemonic = q.mnemonic → r = q := by decide

/-! ### Which words the decoder accepts (R59, R60) -/

/-- Every row has operands, and they make a command with the row's mnemonic (R56). -/
theorem operandsOf_row {n : Nat} {r : OpcodeRow} (hr : opcodeRows[n]? = some r) (w : Cmd) :
    ∃ i, operandsOf n w = some i ∧ mnemonicOf i = r.mnemonic.toList := by
  have hn : n < 11 := (List.getElem?_eq_some_iff.mp hr).1
  interval_cases n <;> cases hr <;> exact ⟨_, rfl, rfl⟩

/-- A command the decoder gives has the operands of the word's opcode, and the word matches that opcode's row (R59). -/
theorem row_of_decode {w : Cmd} {i : Instr} (hd : decode w = .ok i) :
    ∃ r, opcodeRows[opField w]? = some r ∧ operandsOf (opField w) w = some i ∧ w &&& r.mask = r.pattern := by
  rcases decode_cases w with e | e | ⟨r, j, hr, hj, hspells, e⟩
  · cases e.symm.trans hd
  · cases e.symm.trans hd
  · cases e.symm.trans hd
    exact ⟨r, hr, hj, of_decide_eq_true hspells⟩

/-- A word spells the command of a row exactly when it matches the row. -/
theorem matches_iff_decode {r : OpcodeRow} (hr : r ∈ opcodeRows) (w : Cmd) :
    w &&& r.mask = r.pattern ↔ ∃ i, decode w = .ok i ∧ mnemonicOf i = r.mnemonic.toList := by
  constructor
  · intro hw
    obtain ⟨n, hn⟩ := List.mem_iff_getElem?.mp hr
    obtain rfl := opField_eq_of_matches hn hw
    obtain ⟨i, hi, hname⟩ := operandsOf_row hn w
    exact ⟨i, by simp [decode, hn, hi, OpcodeRow.spells, hw], hname⟩
  · rintro ⟨i, hd, hname⟩
    obtain ⟨q, hq, hi, hw⟩ := row_of_decode hd
    obtain ⟨j, hj, hname'⟩ := operandsOf_row hq w
    obtain rfl : i = j := Option.some.inj (hi.symm.trans hj)
    have hnames : r.mnemonic = q.mnemonic := String.toList_inj.mp (hname.symm.trans hname')
    rwa [row_eq_of_mnemonic r hr q (List.mem_of_getElem? hq) hnames]

/-- The decoder accepts a word exactly when it matches a row. -/
theorem decode_ok_iff (w : Cmd) : (∃ i, decode w = .ok i) ↔ ∃ r ∈ opcodeRows, w &&& r.mask = r.pattern := by
  constructor
  · rintro ⟨i, hd⟩
    obtain ⟨r, hr, -, hw⟩ := row_of_decode hd
    exact ⟨r, List.mem_of_getElem? hr, hw⟩
  · rintro ⟨r, hr, hw⟩
    obtain ⟨i, hd, -⟩ := (matches_iff_decode hr w).mp hw
    exact ⟨i, hd⟩

/-- Settles O15: a matching word's opcode is the row's number, and the operands of that opcode make a command with the row's
mnemonic. -/
theorem wordsSpellExactlyTheirRow : Obligations.WordsSpellExactlyTheirRow :=
  ⟨rfl, fun w => ⟨fun _ hr => matches_iff_decode hr w, (decode_ok_iff w).mp, fun _ hr _ hq => row_eq_of_matches hr hq⟩⟩

/-- For each opcode but that of `NOP`, how many of the low argument bits its row leaves free (R54, R55). -/
def freeArgBits : List (BitVec 4 × Nat) :=
  [(0x1, 2), (0x2, 2), (0x3, 8), (0x4, 0), (0x5, 8), (0x6, 0), (0x7, 5), (0x8, 3), (0x9, 0), (0xA, 1)]

/-- The row of `NOP` fixes every bit; each other row fixes `op`, and the argument bits that are not free, to 0 (R56). -/
theorem opcodeRows_fields :
    opcodeRows.map (fun r => (r.mask, r.pattern)) =
      (BitVec.allOnes 16, 0#16) ::
        freeArgBits.map fun p => (fields 0xF#4 0 (BitVec.allOnes 8 <<< p.2), fields p.1 0 0#8) := by decide

/-- The decoder accepts 0x0000, and the words with an opcode from 1 to 10 whose argument keeps to the free bits (R60). -/
theorem decode_ok_iff_fields (w : Cmd) :
    (∃ i, decode w = .ok i) ↔ w = 0x0000#16 ∨ ∃ p ∈ freeArgBits, opField w = p.1.toNat ∧ (argField w).toNat < 2 ^ p.2 := by
  have hrows : (∃ r ∈ opcodeRows, w &&& r.mask = r.pattern) ↔
      ∃ q ∈ opcodeRows.map (fun r => (r.mask, r.pattern)), w &&& q.1 = q.2 := by simp
  rw [decode_ok_iff, hrows, opcodeRows_fields]
  simp only [List.exists_mem_cons_iff, List.mem_map, exists_exists_and_eq_and, BitVec.and_allOnes, matches_iff]

/-- A word the static checks refuse is taken and answered with ERR (R58, R60). -/
theorem step_reserved {s : State} {w : Cmd} {rest : List PortEvent} {e : DecodeError} (hs : s.stream = .cmd w :: rest)
    (hd : decode w = .error e) : step s = .next { s with stream := rest, rsp := some errResponse } := by
  rcases step_cases s with ⟨hidle, -⟩ | ⟨_, hrst, -⟩ | ⟨_, _, _, -, -, hstep⟩ | ⟨_, _, _, hcmd, hok, -⟩
  · cases hs.symm.trans hidle
  · cases hs.symm.trans hrst
  · rw [hstep, State.taken, hs]
    rfl
  · cases hs.symm.trans hcmd
    cases hd.symm.trans hok

/-- Settles O16: the accepted words are those of the rows, taken by their fields; any other word meets a decode error. -/
theorem reservedWordsRespondErr : Obligations.ReservedWordsRespondErr := by
  refine ⟨fun w => ?_, fun s w rest hs hrefused => ?_⟩
  · have harg := (argField w).isLt
    refine (decode_ok_iff_fields w).trans (or_congr_right ?_)
    simp only [freeArgBits, List.exists_mem_cons_iff, List.not_mem_nil, false_and, exists_false, or_false, BitVec.reduceToNat]
    grind
  · cases hd : decode w with
    | ok i => exact absurd hd (hrefused i)
    | error e => exact step_reserved hs hd

/-! ### The assembler's sums (R64) -/

theorem toNat_append_eq {m n : Nat} (x : BitVec m) (y : BitVec n) : (x ++ y).toNat = x.toNat * 2 ^ n + y.toNat := by
  rw [BitVec.toNat_append, Nat.shiftLeft_eq, Nat.mul_comm, ← Nat.two_pow_add_eq_or_of_lt y.isLt]

/-- An operand in the low bits of an argument byte whose other bits are 0. -/
theorem toNat_zero_append_ofNat {m n i : Nat} (h : i < 2 ^ n) : (0#m ++ BitVec.ofNat n i).toNat = i := by
  rw [toNat_append_eq, BitVec.toNat_ofNat, BitVec.toNat_ofNat, Nat.mod_eq_of_lt h, Nat.zero_mod, Nat.zero_mul, Nat.zero_add]

theorem toNat_flagsArg : ∀ t sh : Bool, (flagsArg t sh).toNat = sh.toNat * 2 + t.toNat := by decide

theorem fitting_of_lt {bound n : Nat} (h : n < bound) : fitting bound n = some n := if_pos h

section sums
variable {c : Nat} (hc : c < 16) (op : BitVec 4)
include hc

/-- The word of three fields that fit is their sum, each at its position (R51). -/
theorem toNat_fields (a : Byte) : (fields op c a).toNat = op.toNat * 2 ^ 12 + c * 2 ^ 8 + a.toNat := by
  unfold fields
  rw [toNat_append_eq, toNat_append_eq, BitVec.toNat_ofNat, Nat.mod_eq_of_lt hc]
  omega

/-- R64's sum for a command whose only operand is its context. -/
theorem contextSum_eq : (do return op.toNat * 2 ^ 12 + (← fitting 16 c) * 2 ^ 8) = some (fields op c 0#8).toNat := by
  simp [fitting_of_lt hc, toNat_fields hc]

/-- R64's sum for a command with one operand besides. -/
theorem operandSum_eq {bound n : Nat} {a : Byte} (hn : n < bound) (ha : a.toNat = n) :
    (do return op.toNat * 2 ^ 12 + (← fitting 16 c) * 2 ^ 8 + (← fitting bound n)) = some (fields op c a).toNat := by
  rw [fitting_of_lt hc, fitting_of_lt hn, toNat_fields hc, ha]
  rfl

/-- R64's sum for a command with the two construction flags. -/
theorem flagsSum_eq (t sh : Bool) :
    (do return op.toNat * 2 ^ 12 + (← fitting 16 c) * 2 ^ 8 + (← fitting 2 sh.toNat) * 2 + (← fitting 2 t.toNat)) =
      some (fields op c (flagsArg t sh)).toNat := by
  rw [fitting_of_lt hc, fitting_of_lt sh.toNat_lt, fitting_of_lt t.toNat_lt, toNat_fields hc, toNat_flagsArg, ← Nat.add_assoc]
  rfl

end sums

/-- A command that fits its encoding names a context that fits its field (R62). -/
theorem ctx_lt_of_wf {i : Instr} {c : Nat} (hwf : i.wf = true) (hc : i.ctx? = some c) : c < 16 := by
  cases i with
  | nop => cases hc
  | rdb d j => cases hc; exact of_decide_eq_true (Bool.and_eq_true_iff.mp hwf).1
  | rdw d j => cases hc; exact of_decide_eq_true (Bool.and_eq_true_iff.mp hwf).1
  | _ => cases hc; exact of_decide_eq_true hwf

/-- Settles O17: each command's sum is one of three, by its operands besides the context. -/
theorem assemblerGivesEncodedWord : Obligations.AssemblerGivesEncodedWord := by
  intro i hwf
  have hctx : ∀ c, i.ctx? = some c → c < 16 := fun c => ctx_lt_of_wf hwf
  cases i with
  | nop => rfl
  | init c t sh => exact flagsSum_eq (hctx c rfl) 0x1#4 t sh
  | hinit c t sh => exact flagsSum_eq (hctx c rfl) 0x2#4 t sh
  | keyb c b => exact operandSum_eq (hctx c rfl) 0x3#4 b.isLt rfl
  | keyend c => exact contextSum_eq (hctx c rfl) 0x4#4
  | pushb c b => exact operandSum_eq (hctx c rfl) 0x5#4 b.isLt rfl
  | final c => exact contextSum_eq (hctx c rfl) 0x6#4
  | rdb c i =>
    have hi : i < 32 := of_decide_eq_true (Bool.and_eq_true_iff.mp hwf).2
    exact operandSum_eq (hctx c rfl) 0x7#4 hi (toNat_zero_append_ofNat hi)
  | rdw c j =>
    have hj : j < 8 := of_decide_eq_true (Bool.and_eq_true_iff.mp hwf).2
    exact operandSum_eq (hctx c rfl) 0x8#4 hj (toNat_zero_append_ofNat hj)
  | rdst c => exact contextSum_eq (hctx c rfl) 0x9#4
  | rdcnt c n => exact operandSum_eq (hctx c rfl) 0xA#4 n.toNat_lt (by cases n <;> rfl)

/-! ### What a command leaves as it was (R38, R66) -/

/-- From `s` to `u`, of the contexts and their buffers, only context `c` (up to the model's own taint) and the buffer it uses
have changed (R66). -/
structure State.ActsOnly (s : State) (c : Nat) (u : State) : Prop where
  stream : u.stream = s.stream
  length : u.ctxs.length = s.ctxs.length
  others : ∀ d, d ≠ c → (u.ctxs[d]?).map Ctx.cleaned = (s.ctxs[d]?).map Ctx.cleaned
  buffer : ∀ x y, s.ctxs[c]? = some x → u.ctxs[c]? = some y → s.OtherBufferKept x u y

/-- An answer alone. -/
theorem State.ActsOnly.answerOnly (s : State) (c : Nat) (r : Option Response) : s.ActsOnly c { s with rsp := r } where
  stream := rfl
  length := rfl
  others _ _ := rfl
  buffer x y hx hy := by
    obtain rfl : x = y := Option.some.inj (hx.symm.trans hy)
    exact ⟨fun _ => rfl, fun _ => rfl⟩

theorem State.ActsOnly.respond {s u : State} {c : Nat} (h : s.ActsOnly c u) (r : Option Response) :
    s.ActsOnly c { u with rsp := r } :=
  ⟨h.stream, h.length, h.others, h.buffer⟩

/-- Storing a view whose context still holds the own block of context `c` as it was (R38). -/
theorem State.ActsOnly.store {s : State} {c : Nat} {x : Ctx} {v : View} (hx : s.ctxs[c]? = some x) (hb : v.ctx.b = x.b) :
    s.ActsOnly c (s.store c v) where
  stream := s.store_stream c v
  length := s.store_length c v
  others d hd := by rw [s.store_other v hd]
  buffer x' y hx' hy := by
    obtain rfl : x = x' := Option.some.inj (hx.symm.trans hx')
    obtain ⟨hc, -⟩ := List.getElem?_eq_some_iff.mp hx
    rw [s.store_self v hc] at hy
    cases hy
    rw [State.OtherBufferKept, s.store_scr c v]
    exact ⟨fun hs => if_neg (by simpa using hs), fun hs => (if_pos hs).trans hb⟩

theorem State.ActsOnly.act {s : State} {c : Nat} {x : Ctx} (hx : s.ctxs[c]? = some x) {f : View → View}
    (hb : ∀ v, (f v).ctx.b = v.ctx.b) (out : Ctx → Word) : s.ActsOnly c (s.act c x f out) :=
  (State.ActsOnly.store hx (hb (s.view x))).respond _

/-! ### Noting what is shared (R142) -/

@[simp] theorem State.noteSharing_stream (s : State) : s.noteSharing.stream = s.stream := by
  unfold State.noteSharing; split <;> rfl

@[simp] theorem State.noteSharing_length (s : State) : s.noteSharing.ctxs.length = s.ctxs.length := by
  unfold State.noteSharing; split <;> simp

/-- Noting what is shared changes contexts in their taint only. -/
theorem State.noteSharing_cleaned (s : State) (d : Nat) :
    (s.noteSharing.ctxs[d]?).map Ctx.cleaned = (s.ctxs[d]?).map Ctx.cleaned := by
  cases hx : s.ctxs[d]? with
  | none => simpa using hx
  | some x =>
    obtain ⟨tainted, e⟩ := State.noteSharing_getElem? hx
    rw [e]
    rfl

/-- Noting what is shared, once context `c` is on the shared block: its own buffer is the one it does not use. -/
theorem State.ActsOnly.noteSharing {s u : State} {c : Nat} (h : s.ActsOnly c u)
    (hshared : ∀ y, u.ctxs[c]? = some y → y.s = true) : s.ActsOnly c u.noteSharing where
  stream := u.noteSharing_stream.trans h.stream
  length := u.noteSharing_length.trans h.length
  others d hd := (u.noteSharing_cleaned d).trans (h.others d hd)
  buffer x z hx hz := by
    obtain ⟨hc, -⟩ := List.getElem?_eq_some_iff.mp hx
    have hy := List.getElem?_eq_getElem (h.length ▸ hc)
    obtain ⟨tainted, e⟩ := State.noteSharing_getElem? hy
    cases hz.symm.trans e
    have hs := hshared _ hy
    obtain ⟨-, hb⟩ := h.buffer x _ hx hy
    exact ⟨fun hp => Bool.noConfusion (hs.symm.trans hp), fun _ => hb hs⟩

theorem State.ActsOnly.construct {s : State} {c : Nat} {x y : Ctx} (hx : s.ctxs[c]? = some x) (hb : y.b = x.b) :
    s.ActsOnly c (s.construct c y) := by
  obtain ⟨hc, -⟩ := List.getElem?_eq_some_iff.mp hx
  have hstore := State.ActsOnly.store (v := (s.view y).engineReset) hx (by simpa using hb)
  unfold State.construct
  dsimp only
  split
  next hs =>
    refine (hstore.noteSharing fun z hz => ?_).respond _
    rw [s.store_self _ hc] at hz
    cases hz
    simpa using hs
  next => exact hstore.respond _

/-! ### The procedures leave a context's own block to `store` (R38) -/

theorem View.pushByte_b (v : View) (b : Byte) : (v.pushByte b).ctx.b = v.ctx.b := by
  obtain ⟨_, _, _, _, e⟩ := v.pushByte_ctx b
  rw [e]

theorem View.finalize_b (v : View) : v.finalize.ctx.b = v.ctx.b := by
  obtain ⟨_, _, _, _, e⟩ := v.finalize_ctx
  rw [e]

theorem View.keyByte_b (v : View) (b : Byte) : (v.keyByte b).ctx.b = v.ctx.b := by
  rw [View.keyByte, View.pushByte_b, Ctx.countKeyByte_eq, Ctx.padByte_eq]

theorem View.keyEnd_b (v : View) : v.keyEnd.ctx.b = v.ctx.b := by
  obtain ⟨_, _, _, _, _, _, e⟩ := v.keyEnd_ctx
  rw [e]

/-- A command that names context `c` is admitted or refused on it, and its own effect is on that context only. -/
theorem exec_eq_accept {i : Instr} {c : Nat} (hc : i.ctx? = some c) (s : State) :
    ∃ ok run, exec i s = .next (s.accept c ok run) ∧ ∀ x, s.ctxs[c]? = some x → s.ActsOnly c (run x) := by
  cases i with
  | nop => cases hc
  | init d t sh => cases hc; exact ⟨_, _, rfl, fun _ hx => .construct hx rfl⟩
  | hinit d t sh => cases hc; exact ⟨_, _, rfl, fun _ hx => .construct hx rfl⟩
  | keyb d b => cases hc; exact ⟨_, _, rfl, fun _ hx => .act hx (·.keyByte_b b) _⟩
  | keyend d => cases hc; exact ⟨_, _, rfl, fun _ hx => .act hx View.keyEnd_b _⟩
  | pushb d b => cases hc; exact ⟨_, _, rfl, fun _ hx => .act hx (·.pushByte_b b) _⟩
  | final d => cases hc; exact ⟨_, _, rfl, fun _ hx => .act hx View.finalize_b _⟩
  | rdb d j => cases hc; exact ⟨_, _, rfl, fun _ hx => .act hx View.finalize_b _⟩
  | rdw d j => cases hc; exact ⟨_, _, rfl, fun _ hx => .act hx View.finalize_b _⟩
  | rdst d => cases hc; exact ⟨_, _, rfl, fun _ _ => .answerOnly s _ _⟩
  | rdcnt d n => cases hc; exact ⟨_, _, rfl, fun _ _ => .answerOnly s _ _⟩

/-- A command changes no more than the context it names and the buffer that context uses. -/
theorem exec_actsOnly {i : Instr} {s u : State} {c : Nat} (hc : i.ctx? = some c) (h : exec i s = .next u) :
    s.ActsOnly c u := by
  obtain ⟨ok, run, hexec, hrun⟩ := exec_eq_accept hc s
  cases hexec.symm.trans h
  rcases s.accept_cases c ok run with ⟨-, e⟩ | ⟨x, hx, -, e⟩
  · rw [e]; exact .answerOnly s c _
  · rw [e]; exact hrun x hx

theorem ctx?_eq_none_iff {i : Instr} : i.ctx? = none ↔ i = .nop := by
  cases i <;> simp [Instr.ctx?]

/-- Settles O5: `NOP` touches no context, and every other command is a refusal or an effect on the context it names. -/
theorem commandActsOnItsContextOnly : Obligations.CommandActsOnItsContextOnly := by
  refine ⟨fun i s c hc hnone => ?_, fun i s u h => ?_⟩
  · obtain ⟨ok, run, hexec, -⟩ := exec_eq_accept hc s
    exact hexec.trans (congrArg _ (State.accept_none hnone ok run))
  · cases hc : i.ctx? with
    | none =>
      obtain rfl := ctx?_eq_none_iff.mp hc
      cases h
      exact ⟨rfl, rfl, fun _ _ => rfl, fun _ => rfl, fun _ _ _ hd => by cases hd⟩
    | some c =>
      obtain ⟨hstream, hlength, hothers, hbuffer⟩ := exec_actsOnly hc h
      refine ⟨hstream, hlength, fun d hd => hothers d fun e => hd (congrArg some e.symm), fun e => (by cases e), ?_⟩
      intro d x y hd hx hy
      cases hd
      exact hbuffer x y hx hy

end Sys2Proof.Machine
end

section
/-! ## Compression (spec/40_compression.md)

The bit functions bit by bit, the message schedule and the rounds as lists growing by one entry, and the tables of constants as
roots of primes. -/

namespace Sys2Proof.Machine

/-! ### Bit functions (R67 to R73) -/

/-- `ROTR` is the library's rotation. -/
theorem rotr_eq_rotateRight (x : Word) {n : Nat} (hn : n < 32) : rotr x n = x.rotateRight n :=
  (BitVec.rotateRight_eq_rotateRightAux_of_lt hn).symm

theorem getLsbD_rotr (x : Word) {n i : Nat} (hn : n < 32) (hi : i < 32) :
    (rotr x n).getLsbD i = x.getLsbD ((i + n) % 32) := by
  rw [rotr_eq_rotateRight x hn, BitVec.getLsbD_rotateRight, Nat.mod_eq_of_lt hn]
  by_cases hwrap : i < 32 - n
  · rw [decide_eq_true hwrap, cond_true, Nat.mod_eq_of_lt (by omega : i + n < 32), Nat.add_comm]
  · have hmod : (i + n) % 32 = i - (32 - n) := by omega
    rw [decide_eq_false hwrap, cond_false, decide_eq_true hi, Bool.true_and, hmod]

theorem getLsbD_shr (x : Word) (n i : Nat) : (shr x n).getLsbD i = x.getLsbD (i + n) := by
  rw [shr, BitVec.getLsbD_ushiftRight, Nat.add_comm]

theorem toNat_shr (x : Word) (n : Nat) : (shr x n).toNat = x.toNat / 2 ^ n := by
  rw [shr, BitVec.toNat_ushiftRight, Nat.shiftRight_eq_div_pow]

/-- Settles O18: a rotation read bit by bit, a shift read as a quotient. -/
theorem rotateAndShiftMoveBits : Obligations.RotateAndShiftMoveBits :=
  fun x n _ hn => ⟨fun _ hi => getLsbD_rotr x hn hi, toNat_shr x n⟩

/-- Settles O19: each mixing function is an exclusive or of rotations and shifts, whose bits are known. -/
theorem mixingFunctionsBitwise : Obligations.MixingFunctionsBitwise := by
  intro x i hi
  have hrotr (n : Nat) (hn : n < 32) : (rotr x n).getLsbD i = x.getLsbD ((i + n) % 32) := getLsbD_rotr x hn hi
  simp only [ssig0, ssig1, bsig0, bsig1, BitVec.getLsbD_xor, getLsbD_shr, hrotr, Nat.reduceLT, and_self]

/-- `Ch` selects by the bit of its first input (R72). -/
theorem getLsbD_choice (x y z : Word) {i : Nat} (hi : i < 32) :
    (choice x y z).getLsbD i = if x.getLsbD i then y.getLsbD i else z.getLsbD i := by
  simp only [choice, BitVec.getLsbD_xor, BitVec.getLsbD_and, BitVec.getLsbD_not, decide_eq_true hi, Bool.true_and]
  cases x.getLsbD i <;> simp

/-- A bit of `Maj` depends on the three input bits alone (R73). -/
theorem getLsbD_majority (x y z : Word) (i : Nat) :
    (majority x y z).getLsbD i = decide (2 ≤ (x.getLsbD i).toNat + (y.getLsbD i).toNat + (z.getLsbD i).toNat) := by
  have majority_of_bits : ∀ a b c : Bool,
      ((a && b) ^^ (a && c) ^^ (b && c)) = decide (2 ≤ a.toNat + b.toNat + c.toNat) := by decide
  simp only [majority, BitVec.getLsbD_xor, BitVec.getLsbD_and, majority_of_bits]

/-- Settles O20: both functions act on each bit position by itself. -/
theorem choiceAndMajorityBitwise : Obligations.ChoiceAndMajorityBitwise :=
  fun x y z i hi => ⟨getLsbD_choice x y z hi, getLsbD_majority x y z i⟩

/-! ### The message schedule (R76) -/

theorem length_extendSchedule (n : Nat) (ws : List Word) : (extendSchedule n ws).length = ws.length + n := by
  induction n generalizing ws with
  | zero => rfl
  | succ n ih => rw [extendSchedule, ih, List.length_cons]; omega

/-- The words so far stay, in their places. -/
theorem reverse_prefix_extendSchedule (n : Nat) (ws : List Word) : ws.reverse <+: (extendSchedule n ws).reverse := by
  induction n generalizing ws with
  | zero => exact List.prefix_rfl
  | succ n ih =>
    calc ws.reverse
      _ <+: (nextScheduleWord ws :: ws).reverse := by rw [List.reverse_cons]; exact List.prefix_append ..
      _ <+: (extendSchedule (n + 1) ws).reverse := ih _

/-- Every word past those given is the next one after the words before it. -/
theorem getElem?_reverse_extendSchedule (n : Nat) (ws : List Word) {t : Nat} (hlo : ws.length ≤ t)
    (hhi : t < ws.length + n) :
    (extendSchedule n ws).reverse[t]? = some (nextScheduleWord ((extendSchedule n ws).reverse.take t).reverse) := by
  induction n generalizing ws with
  | zero => omega
  | succ n ih =>
    rw [extendSchedule]
    obtain rfl | hlt := hlo.eq_or_lt
    · obtain ⟨rest, hrest⟩ := reverse_prefix_extendSchedule n (nextScheduleWord ws :: ws)
      rw [← hrest]
      simp
    · exact ih _ hlt (by rw [List.length_cons]; omega)

/-- Entry `j` of the words before `t`, the latest first, is `W[t-1-j]`. -/
theorem getD_reverse_take (ws : List Word) {t j : Nat} (hj : j < t) (ht : t ≤ ws.length) :
    (ws.take t).reverse.getD j 0 = ws.getD (t - 1 - j) 0 := by
  have hlen : (ws.take t).length = t := List.length_take_of_le ht
  have hlt : t - 1 - j < t := by omega
  rw [List.getD_eq_getElem?_getD, List.getElem?_reverse (by rwa [hlen]), hlen, List.getElem?_take_of_lt hlt,
    ← List.getD_eq_getElem?_getD]

theorem length_schedule (x : Block) : (schedule x).length = 64 := by
  rw [schedule, List.length_reverse, length_extendSchedule, List.length_reverse, Vector.length_toList]

/-- The schedule begins with the block's words. -/
theorem getElem?_schedule_block (x : Block) {t : Nat} (ht : t < 16) : (schedule x)[t]? = some x[t] := by
  have hpre : x.toList <+: schedule x := by
    simpa [schedule] using reverse_prefix_extendSchedule 48 x.toList.reverse
  have hlen : t < x.toList.length := by rwa [Vector.length_toList]
  rw [List.prefix_iff_getElem?.mp hpre t hlen, Vector.getElem_toList]

/-- Later words come from the words before them, the latest first. -/
theorem getElem?_schedule_next (x : Block) {t : Nat} (hlo : 16 ≤ t) (hhi : t < 64) :
    (schedule x)[t]? = some (nextScheduleWord ((schedule x).take t).reverse) := by
  have hlen : x.toList.reverse.length = 16 := by rw [List.length_reverse, Vector.length_toList]
  exact getElem?_reverse_extendSchedule 48 x.toList.reverse (by rwa [hlen]) (by rwa [hlen])

/-- Settles O21: the four entries that `nextScheduleWord` reads are the four earlier words R76 names. -/
theorem scheduleFollowsRecurrence : Obligations.ScheduleFollowsRecurrence := by
  refine fun x => ⟨length_schedule x, fun t ht => getElem?_schedule_block x ht, fun t hlo hhi => ?_⟩
  have hentry (j : Nat) (hj : j < 16) : ((schedule x).take t).reverse.getD j 0 = (schedule x).getD (t - 1 - j) 0 :=
    getD_reverse_take _ (by omega) (by rw [length_schedule]; omega)
  rw [getElem?_schedule_next x hlo hhi, nextScheduleWord, hentry 1 (by decide), hentry 6 (by decide),
    hentry 14 (by decide), hentry 15 (by decide)]
  simp only [Nat.sub_sub, Nat.reduceAdd]

/-! ### Rounds and compression (R77, R78) -/

/-- The working variables of the compression of block `x` into `h` after `t` rounds. -/
def workingAfter (h : Vector Word 8) (x : Block) (t : Nat) : Working :=
  roundsOver (Working.ofHash h) ((kTable.zip (schedule x)).take t)

@[simp] theorem workingAfter_zero (h : Vector Word 8) (x : Block) : workingAfter h x 0 = Working.ofHash h := rfl

theorem length_kTable : kTable.length = 64 := rfl

theorem length_kTable_zip_schedule (x : Block) : (kTable.zip (schedule x)).length = 64 := by
  rw [List.length_zip, length_kTable, length_schedule, Nat.min_self]

/-- Round `t` uses the round constant and the schedule word of its number. -/
theorem workingAfter_succ (h : Vector Word 8) (x : Block) {t : Nat} (ht : t < 64) :
    workingAfter h x (t + 1) = oneRound (workingAfter h x t) (kTable.getD t 0) ((schedule x).getD t 0) := by
  have hk : t < kTable.length := by rwa [length_kTable]
  have hw : t < (schedule x).length := by rwa [length_schedule]
  have hpair : t < (kTable.zip (schedule x)).length := by rwa [length_kTable_zip_schedule]
  rw [workingAfter, roundsOver, List.take_succ_eq_append_getElem hpair, List.foldl_append, List.getElem_zip,
    List.getD_eq_getElem _ _ hk, List.getD_eq_getElem _ _ hw]
  rfl

/-- Compressing adds the working variables after the 64th round. -/
theorem compressWords_eq (h : Vector Word 8) (x : Block) : compressWords h x = addWorking h (workingAfter h x 64) := by
  rw [compressWords, workingAfter, List.take_of_length_le (length_kTable_zip_schedule x).le]

/-- Settles O22: the rounds of the fold over constants and schedule words, one by one. -/
theorem compressionIsSixtyFourRounds : Obligations.CompressionIsSixtyFourRounds := by
  refine fun v hclean => ⟨workingAfter v.ctx.h v.blk, rfl, fun t ht => ⟨_, _, rfl, rfl, workingAfter_succ _ _ ht⟩, ?_⟩
  rw [View.compress_clean hclean, compressWords_eq]
  rfl

/-! ### Constants (R74, R75) -/

/-- The word at bits `lo` to `lo + 31` after the binary point of the `k`-th root of `p`, computed. -/
def rootWord (k lo p : Nat) : Word := BitVec.ofNat 32 (Nat.nthRoot k (p * 2 ^ (k * (lo + 32))))

theorem rootBits_rootWord {k : Nat} (hk : k ≠ 0) (lo p : Nat) : RootBits k p lo (rootWord k lo p) :=
  ⟨_, Nat.pow_nthRoot_le_iff.mpr (.inl hk), Nat.lt_pow_nthRoot_add_one hk _, BitVec.toNat_ofNat ..⟩

/-- The trial divisions of `firstPrimes`, done once. -/
theorem firstPrimes_eq : firstPrimes =
    [2, 3, 5, 7, 11, 13, 17, 19, 23, 29, 31, 37, 41, 43, 47, 53, 59, 61, 67, 71, 73, 79, 83, 89, 97, 101, 103, 107,
     109, 113, 127, 131, 137, 139, 149, 151, 157, 163, 167, 173, 179, 181, 191, 193, 197, 199, 211, 223, 227, 229,
     233, 239, 241, 251, 257, 263, 269, 271, 277, 281, 283, 293, 307, 311] := by decide +kernel

theorem length_firstPrimes : firstPrimes.length = 64 := by rw [firstPrimes_eq]; rfl

theorem kTable_eq_rootWord : ∀ t < 64, kTable.getD t 0 = rootWord 3 0 (firstPrimes.getD t 0) := by
  rw [firstPrimes_eq]; decide +kernel

theorem iv256_eq_rootWord : ∀ i < 8, iv256.getD i 0 = rootWord 2 0 (firstPrimes.getD i 0) := by
  rw [firstPrimes_eq]; decide +kernel

theorem iv224_eq_rootWord : ∀ i < 8, iv224.getD i 0 = rootWord 2 32 (firstPrimes.getD (8 + i) 0) := by
  rw [firstPrimes_eq]; decide +kernel

/-- Settles O23: every table entry is the computed root word, and that has the bits of the root. -/
theorem constantsAreRootsOfPrimes : Obligations.ConstantsAreRootsOfPrimes := by
  refine ⟨length_firstPrimes, length_kTable, fun _ => rfl, fun t ht => ?_, fun i hi => ?_, fun i hi => ?_⟩
  · rw [kTable_eq_rootWord t ht]
    exact rootBits_rootWord (by decide) ..
  · rw [iv256_eq_rootWord i hi]
    exact rootBits_rootWord (by decide) ..
  · rw [iv224_eq_rootWord i hi]
    exact rootBits_rootWord (by decide) ..

end Sys2Proof.Machine
end

section
/-! ## Engine commands (spec/41_engine_commands.md)

What the engine's procedures make of an untainted context, byte by byte, and what it means that an engine has absorbed a byte
sequence; from them the statements of this family. -/

namespace Sys2Proof.Machine

/-! ### Counters and the length field (R83, R85) -/

theorem Ctx.count64_toNat (x : Ctx) : x.count64.toNat = x.count := toNat_append_eq x.cntHi x.cntLo

theorem Ctx.countByte_count64 (x : Ctx) : x.countByte.count64 = x.count64 + 1 := by
  apply BitVec.eq_of_toNat_eq
  rw [Ctx.count64_toNat, Ctx.countByte_count, BitVec.toNat_add, Ctx.count64_toNat]
  rfl

/-- Settles O25: the two words as one number, and the frame of `CountByte`. -/
theorem countByteCarriesIntoHighWord : Obligations.CountByteCarriesIntoHighWord :=
  fun x => ⟨x.countByte_count64, x.countByte_count, by simp only [Ctx.countByte_eq]⟩

/-- The high word of the length field: the top three bits of `CNTLO` come in below `CNTHI`, whose top three are lost (R85). -/
theorem Ctx.bitLenHi_toNat (x : Ctx) : x.bitLenHi.toNat = 8 * x.count % 2 ^ 64 / 2 ^ 32 := by
  have hlo := x.cntLo.isLt
  have hcarry : x.cntLo.toNat / 2 ^ 29 < 2 ^ 3 := by omega
  have hshift : x.cntHi.toNat * 2 ^ 3 % 2 ^ 32 = 2 ^ 3 * (x.cntHi.toNat % 2 ^ 29) := by omega
  rw [Ctx.bitLenHi, BitVec.toNat_or, BitVec.toNat_shiftLeft, BitVec.toNat_ushiftRight, Nat.shiftLeft_eq,
    Nat.shiftRight_eq_div_pow, hshift, ← Nat.two_pow_add_eq_or_of_lt hcarry, Ctx.count]
  omega

theorem Ctx.bitLenLo_toNat (x : Ctx) : x.bitLenLo.toNat = 8 * x.count % 2 ^ 32 := by
  rw [Ctx.bitLenLo, BitVec.toNat_shiftLeft, Nat.shiftLeft_eq, Ctx.count]
  omega

/-- Settles O26: a shift of the two counter words by three bits. -/
theorem lengthFieldIsBitLength : Obligations.LengthFieldIsBitLength := fun x => ⟨x.bitLenHi_toNat, x.bitLenLo_toNat⟩

/-- Settles O27: the arm of `NOP` is the answer alone. -/
theorem nopRespondsOkOnly : Obligations.NopRespondsOkOnly := fun _ => rfl

/-! ### What a command's effect leaves in the state (R38, R66) -/

/-- The context that storing a view leaves in its place (R38). -/
def View.stored (v : View) : Ctx := { v.ctx with b := if v.ctx.s then v.ctx.b else v.blk }

section effects
variable (s : State) {c : Nat} (x : Ctx) (f : View → View) (out : Ctx → Word)

theorem State.act_self (hc : c < s.ctxs.length) : (s.act c x f out).ctxs[c]? = some (f (s.view x)).stored :=
  s.store_self _ hc

/-- The block in use afterwards is the view's, wherever it is kept (R38). -/
@[simp] theorem State.act_blkOf : (s.act c x f out).blkOf (f (s.view x)).stored = (f (s.view x)).blk := by
  have hscr : (s.act c x f out).scr = if (f (s.view x)).ctx.s then (f (s.view x)).blk else s.scr := s.store_scr c _
  unfold State.blkOf View.stored
  dsimp only
  rw [hscr]
  split <;> rfl

@[simp] theorem State.act_draws : (s.act c x f out).draws = (f (s.view x)).draws := s.store_draws c _

theorem State.act_sameBut : s.SameBut c (s.act c x f out) :=
  ⟨s.store_stream c _, s.store_length c _, fun _ hd => s.store_other _ hd⟩

variable {s x f}

theorem State.act_otherBufferKept (hx : s.ctxs[c]? = some x) (hb : ∀ v, (f v).ctx.b = v.ctx.b) :
    s.OtherBufferKept x (s.act c x f out) (f (s.view x)).stored := by
  obtain ⟨hc, -⟩ := List.getElem?_eq_some_iff.mp hx
  exact (State.ActsOnly.act hx hb out).buffer _ _ hx (s.act_self x f out hc)

/-- A procedure that leaves the view as it is leaves the state as it is, but for the answer. -/
theorem State.act_unchanged (hx : s.ctxs[c]? = some x) (hf : f (s.view x) = s.view x) :
    s.act c x f out = s.respondOk (out x) := by
  rw [State.act, hf, State.store_view s hx, State.view_ctx]

end effects

/-! ### Commands on data: admitted and refused (R59, R89, R90) -/

theorem exec_pushb {s : State} {c : Nat} {x : Ctx} (hx : s.ctxs[c]? = some x) (hk : x.kph = false) (b : Byte) :
    exec (.pushb c b) s = .next (s.act c x (fun v => v.pushByte b) fun _ => 0) :=
  congrArg Host.Outcome.next (State.accept_ok hx (x.takesData_iff.mpr hk) _)

theorem exec_final {s : State} {c : Nat} {x : Ctx} (hx : s.ctxs[c]? = some x) (hk : x.kph = false) :
    exec (.final c) s = .next (s.act c x View.finalize fun _ => 0) :=
  congrArg Host.Outcome.next (State.accept_ok hx (x.takesData_iff.mpr hk) _)

theorem Ctx.takesData_keyPhase {x : Ctx} (hk : x.kph = true) : x.takesData = false := by simp [Ctx.takesData, hk]

theorem exec_pushb_keyPhase {s : State} {c : Nat} {x : Ctx} (hx : s.ctxs[c]? = some x) (hk : x.kph = true) (b : Byte) :
    exec (.pushb c b) s = .next s.respondErr :=
  congrArg Host.Outcome.next (State.accept_refused hx (Ctx.takesData_keyPhase hk) _)

theorem exec_final_keyPhase {s : State} {c : Nat} {x : Ctx} (hx : s.ctxs[c]? = some x) (hk : x.kph = true) :
    exec (.final c) s = .next s.respondErr :=
  congrArg Host.Outcome.next (State.accept_refused hx (Ctx.takesData_keyPhase hk) _)

theorem exec_final_missing {s : State} {c : Nat} (hnone : s.ctxs[c]? = none) : exec (.final c) s = .next s.respondErr :=
  congrArg Host.Outcome.next (State.accept_none hnone _ _)

@[simp] theorem View.finalize_kph (v : View) : v.finalize.ctx.kph = v.ctx.kph := by
  obtain ⟨h, lo, hi, off, e⟩ := v.finalize_ctx
  rw [e]

/-- A finalized context is left as it is by `Finalize`, in the state it is stored in (R86, R90). -/
theorem View.finalize_view_stored (u : State) (v : View) :
    (u.view v.finalize.stored).finalize = u.view v.finalize.stored := by
  obtain ⟨hsealed, hpaid⟩ := v.finalize_sealed
  exact View.finalize_again hsealed hpaid

/-- Settles O32: a refusal is refused again, and a finalized context is left as it is. -/
theorem finalRefusedOrIdempotent : Obligations.FinalRefusedOrIdempotent := by
  intro s c
  refine ⟨exec_final_missing, fun x hx hk => exec_final_keyPhase hx hk, fun u hu => ?_⟩
  cases hx : s.ctxs[c]? with
  | none =>
    cases (exec_final_missing hx).symm.trans hu
    exact exec_final_missing (s := s.respondErr) hx
  | some x =>
    cases hk : x.kph with
    | true =>
      cases (exec_final_keyPhase hx hk).symm.trans hu
      exact exec_final_keyPhase (s := s.respondErr) hx hk
    | false =>
      cases (exec_final hx hk).symm.trans hu
      obtain ⟨hc, -⟩ := List.getElem?_eq_some_iff.mp hx
      have hself := s.act_self x View.finalize (fun _ => 0) hc
      rw [exec_final hself (by simpa [View.stored] using hk), State.act_unchanged _ hself (View.finalize_view_stored _ _)]
      rfl

/-! ### Construction under the contract (R81, R88, R141) -/

/-- With no other live shared context there is at most one (R141). -/
theorem State.liveSharedCount_le_one {s : State} {c : Nat} (hc : c < s.ctxs.length) (hother : s.NoOtherLiveShared c) :
    s.liveSharedCount ≤ 1 := by
  have hothers : (s.ctxs.set c Ctx.reset).countP Ctx.liveShared = 0 := by
    refine List.countP_eq_zero.mpr fun x hx => Bool.not_eq_true _ |>.mpr ?_
    obtain ⟨d, hd⟩ := List.mem_iff_getElem?.mp hx
    by_cases hdc : d = c
    · rw [hdc, List.getElem?_set_self hc] at hd
      cases hd
      rfl
    · rw [List.getElem?_set_ne (Ne.symm hdc)] at hd
      exact hother d x hdc hd
  rw [List.countP_set hc] at hothers
  unfold State.liveSharedCount
  split at hothers <;> omega

/-- Construction under the contract is a reset of the engine and no more: nothing is noted (R81, R141). -/
theorem State.construct_of_contract {s : State} {c : Nat} {x : Ctx} (hc : c < s.ctxs.length)
    (hcontract : x.s = false ∨ s.NoOtherLiveShared c) : s.construct c x = s.act c x View.engineReset fun _ => 0 := by
  rcases hcontract with hs | hother
  · exact State.construct_eq_act hs s c
  · have hone : (s.store c (s.view x).engineReset).liveSharedCount ≤ 1 :=
      State.liveSharedCount_le_one (by rwa [State.store_length]) fun d z hd hz =>
        hother d z hd ((s.store_other _ hd).symm.trans hz)
    simp [State.construct, State.act, State.noteSharing_contract hone]

/-- What construction leaves: a reset engine with the control fields and pads of `y` (R88, R100); under the contract its block
is zero and nothing else has changed (R141). -/
theorem State.construct_spec {s : State} {c : Nat} {x y : Ctx} (hx : s.ctxs[c]? = some x) (hb : y.b = x.b)
    (hclean : y.tainted = false) :
    ∃ z, (s.construct c y).ctxs[c]? = some z ∧
      z = { y with
        h := ivOf y.t, b := z.b, off := 0, cntLo := 0, cntHi := 0, fin := false, tainted := z.tainted } ∧
      s.OtherBufferKept x (s.construct c y) z ∧
      (y.s = false ∨ s.NoOtherLiveShared c →
        z.tainted = false ∧ (s.construct c y).blkOf z = Vector.replicate 16 0 ∧ s.SameBut c (s.construct c y) ∧
          (s.construct c y).draws = s.draws) := by
  obtain ⟨hc, -⟩ := List.getElem?_eq_some_iff.mp hx
  obtain ⟨b, tainted, hself⟩ := State.construct_self y hc
  have hkept := (State.ActsOnly.construct hx hb).buffer _ _ hx hself
  refine ⟨_, hself, rfl, hkept, fun hcontract => ?_⟩
  have hreset := View.engineReset_clean (v := s.view y) hclean
  have hact := State.construct_of_contract hc hcontract
  have hz := hself.symm.trans ((congrArg (·.ctxs[c]?) hact).trans (s.act_self y View.engineReset _ hc))
  rw [Option.some.inj hz, hact]
  refine ⟨?_, ?_, s.act_sameBut y View.engineReset _, ?_⟩
  · rw [View.stored, View.engineReset_ctx]
    exact hclean
  · rw [State.act_blkOf, hreset]
  · rw [State.act_draws, hreset]
    rfl

/-- Settles O28: `INIT` is the construction of `asPlain`. -/
theorem initConstructsPlainEngine : Obligations.InitConstructsPlainEngine := by
  refine fun s c t sh => ⟨fun hnone => congrArg _ (State.accept_none hnone _ _), fun x hx => ?_⟩
  obtain ⟨z, hz, hfields, hkept, hcontract⟩ := State.construct_spec (y := x.asPlain t sh) hx rfl rfl
  obtain ⟨hstream, -⟩ := State.ActsOnly.construct (y := x.asPlain t sh) hx rfl
  exact ⟨_, z, exec_init hx t sh, hz, State.construct_rsp _ _ _, hstream, hfields, hkept, hcontract⟩

/-! ### One byte into an open engine (R82, R89) -/

/-- `PushByte` of an untainted open context: the byte is put at the offset and counted, and a block that becomes full is
compressed (R82). -/
theorem View.pushByte_clean {v : View} (hclean : v.ctx.tainted = false) (hf : v.ctx.fin = false) (b : Byte) :
    v.pushByte b =
      { v with
        ctx :=
          { v.ctx.countByte with
            h := if v.ctx.off = 63 then compressWords v.ctx.h (blockPutByte v.blk v.ctx.off.toNat b) else v.ctx.h
            off := v.ctx.off + 1 }
        blk := blockPutByte v.blk v.ctx.off.toNat b
        work := if v.ctx.off = 63 then v.work + 1 else v.work } := by
  have hcount : v.ctx.countByte.tainted = false := by rwa [Ctx.countByte_eq]
  unfold View.pushByte
  rw [if_neg (by simp [hf]), View.blkByteWrite_clean hclean]
  dsimp only
  split
  next hlast =>
    rw [View.compress_clean hcount]
    simp [Ctx.countByte_eq, hlast]
  next => simp [Ctx.countByte_eq]

/-- Until the block is full the accumulators stay, in a tainted context too. -/
theorem View.pushByte_h {v : View} (hoff : v.ctx.off ≠ 63) (b : Byte) : (v.pushByte b).ctx.h = v.ctx.h := by
  unfold View.pushByte
  dsimp only
  rw [if_neg hoff]
  split <;> simp [Ctx.countByte_eq]

/-- Settles O30: what one byte changes in any context, and what it makes of an untainted one. -/
theorem pushbTakesOneByte : Obligations.PushbTakesOneByte := by
  intro s c b
  refine ⟨fun hnone => congrArg _ (State.accept_none hnone _ _),
    fun x hx => ⟨fun hk => exec_pushb_keyPhase hx hk b, fun hk hf => ?_, fun hk hf => ?_⟩⟩
  · rw [exec_pushb hx hk, State.act_unchanged _ hx (View.pushByte_sealed (v := s.view x) hf b)]
    rfl
  · obtain ⟨hc, -⟩ := List.getElem?_eq_some_iff.mp hx
    obtain ⟨h, hctx⟩ := View.pushByte_ctx_open (v := s.view x) hf b
    refine ⟨_, _, exec_pushb hx hk b, s.act_self x _ _ hc, rfl, s.act_sameBut x _ _,
      State.act_otherBufferKept _ hx (·.pushByte_b b), ?_, ?_, View.pushByte_h (v := s.view x) (b := b), fun hclean => ?_⟩
    · simp [View.stored, hctx, Ctx.countByte_eq]
    · rw [← x.countByte_count64, View.stored, hctx]
      rfl
    · have hpush := View.pushByte_clean (v := s.view x) hclean hf b
      rw [State.act_draws, State.act_blkOf, View.stored, hpush]
      exact ⟨rfl, fun i _ => blockByte_blockPutByte _ b x.off.isLt i, fun hlast => if_pos hlast⟩

/-! ### The padding of a block (R84) -/

/-- Zero bytes written at the positions of `l` (R84). -/
theorem blockByte_foldl_zero (l : List Nat) (hl : ∀ j ∈ l, j < 64) (x : Block) (i : Nat) :
    blockByte (l.foldl (fun y j => blockPutByte y j 0) x) i = if i ∈ l then 0x00#8 else blockByte x i := by
  induction l generalizing x with
  | nil => simp
  | cons j l ih =>
    obtain ⟨hj, hl⟩ := List.forall_mem_cons.mp hl
    rw [List.foldl_cons, ih hl, blockByte_blockPutByte x 0 hj]
    by_cases hil : i ∈ l
    · rw [if_pos hil, if_pos (List.mem_cons_of_mem j hil)]
    · simp [hil]

/-- The block with the marker byte at offset `k` and zeros after it (R84). -/
def markedBlock (x : Block) (k : Nat) : Block :=
  (List.range' (k + 1) (64 - (k + 1))).foldl (fun y j => blockPutByte y j 0) (blockPutByte x k 0x80#8)

theorem blockByte_markedBlock (x : Block) {k i : Nat} (hk : k < 64) (hi : i < 64) :
    blockByte (markedBlock x k) i = if i < k then blockByte x i else if i = k then 0x80#8 else 0x00#8 := by
  have hzeros : ∀ j ∈ List.range' (k + 1) (64 - (k + 1)), j < 64 := fun j hj => by rw [List.mem_range'_1] at hj; omega
  have hmem : i ∈ List.range' (k + 1) (64 - (k + 1)) ↔ k < i := by rw [List.mem_range'_1]; omega
  rw [markedBlock, blockByte_foldl_zero _ hzeros, blockByte_blockPutByte x _ hk]
  rcases Nat.lt_trichotomy i k with hlt | rfl | hgt
  · rw [if_neg (by rw [hmem]; omega), if_neg hlt.ne, if_pos hlt]
  · rw [if_neg (by rw [hmem]; omega), if_pos rfl, if_neg (lt_irrefl i), if_pos rfl]
  · rw [if_pos (hmem.mpr hgt), if_neg (by omega), if_neg hgt.ne']

/-- The block of the final compression: the marker's own block, or zeros if that is full, with the length field in its last two
words (R84). -/
def View.lastBlock (v : View) : Block :=
  ((if v.ctx.off.toNat < 56 then markedBlock v.blk v.ctx.off.toNat else Vector.replicate 16 0).setIfInBounds 14
    v.ctx.bitLenHi).setIfInBounds 15 v.ctx.bitLenLo

/-- The accumulators after the one or two compressions of the padding (R84). -/
def View.paddedHash (v : View) : Vector Word 8 :=
  if v.ctx.off.toNat < 56 then compressWords v.ctx.h v.lastBlock
  else compressWords (compressWords v.ctx.h (markedBlock v.blk v.ctx.off.toNat)) v.lastBlock

theorem View.padMarker_clean {v : View} (hclean : v.ctx.tainted = false) :
    v.padMarker = { v with blk := markedBlock v.blk v.ctx.off.toNat } := by
  simp only [View.padMarker, View.blkByteWrite_clean, View.blkZeroFrom_clean, hclean, markedBlock]

theorem View.padLength_clean {v : View} (hclean : v.ctx.tainted = false) :
    v.padLength = View.compress
      { v with blk := (v.blk.setIfInBounds 14 v.ctx.bitLenHi).setIfInBounds 15 v.ctx.bitLenLo } := by
  simp only [View.padLength, View.blkWrite_clean, hclean]

/-- `BaseFinalize` of an untainted open context (R84). -/
theorem View.baseFinalize_clean {v : View} (hclean : v.ctx.tainted = false) (hf : v.ctx.fin = false) :
    v.baseFinalize =
      { v with
        ctx := { v.ctx with h := v.paddedHash, fin := true }
        blk := v.lastBlock
        work := if v.ctx.off.toNat < 56 then v.work + 1 else v.work + 2 } := by
  have hmark := View.padMarker_clean (v := v.raiseFin) hclean
  unfold View.baseFinalize View.paddedHash View.lastBlock
  rw [if_neg (by simp [hf])]
  dsimp only
  rcases Nat.lt_or_ge v.ctx.off.toNat 56 with hone | htwo
  · rw [if_neg (by omega), hmark]
    simp only [View.compress_clean, View.padLength_clean, View.raiseFin_ctx, hclean, hone, if_true]
    rfl
  · rw [if_pos htwo, hmark]
    simp only [View.compress_clean, View.blkZero_clean, View.padLength_clean, View.raiseFin_ctx, hclean,
      Nat.not_lt.mpr htwo, if_false]
    rfl

/-- An engine that owes no outer pass is finalized by `BaseFinalize` alone (R86). -/
theorem View.finalize_eq_baseFinalize {v : View} (hpaid : (v.ctx.m && v.ctx.latch) = false) :
    v.finalize = v.baseFinalize := by
  obtain ⟨h, e⟩ := v.baseFinalize_ctx
  simp [View.finalize, e, hpaid]

theorem blockByte_zero (i : Nat) : blockByte (Vector.replicate 16 0) i = 0x00#8 := by
  have hword : (Vector.replicate 16 (0 : Word)).getD (i / 4) 0 = 0 := by
    rcases Nat.lt_or_ge (i / 4) 16 with hin | hout
    · simp [Vector.getD, hin]
    · simp [Vector.getD, hout]
  rw [blockByte, hword]
  simp [wordByte]

/-- Before the length field the last block has the bytes of the marker's block, or zeros. -/
theorem blockByte_lastBlock (v : View) {i : Nat} (hi : i < 56) :
    blockByte v.lastBlock i = if v.ctx.off.toNat < 56 then blockByte (markedBlock v.blk v.ctx.off.toNat) i else 0x00#8 := by
  rw [View.lastBlock, blockByte, getD_setIfInBounds (by decide), if_neg (by omega), getD_setIfInBounds (by decide),
    if_neg (by omega), ← blockByte]
  split
  · rfl
  · exact blockByte_zero i

theorem View.lastBlock_hi (v : View) : v.lastBlock[14] = v.ctx.bitLenHi := by simp [View.lastBlock]

theorem View.lastBlock_lo (v : View) : v.lastBlock[15] = v.ctx.bitLenLo := by simp [View.lastBlock]

/-- The last two words of the last block are the bit length (R84, R85). -/
theorem View.lastBlock_lengthField (v : View) :
    v.lastBlock[14].toNat * 2 ^ 32 + v.lastBlock[15].toNat = 8 * v.ctx.count % 2 ^ 64 := by
  rw [v.lastBlock_hi, v.lastBlock_lo, Ctx.bitLenHi_toNat, Ctx.bitLenLo_toNat]
  omega

/-- Settles O31: without an outer pass to run `FINAL` is `BaseFinalize`. -/
theorem finalPadsAndSealsEngine : Obligations.FinalPadsAndSealsEngine := by
  intro s c x hx hk hpaid
  refine ⟨fun hf => ?_, fun hf => ?_⟩
  · rw [exec_final hx hk, State.act_unchanged _ hx (View.finalize_again (v := s.view x) hf hpaid)]
    rfl
  · obtain ⟨hc, -⟩ := List.getElem?_eq_some_iff.mp hx
    have hfinal : (s.view x).finalize = (s.view x).baseFinalize := View.finalize_eq_baseFinalize hpaid
    obtain ⟨h, hctx⟩ := (s.view x).baseFinalize_ctx
    refine ⟨_, _, exec_final hx hk, s.act_self x _ _ hc, rfl, s.act_sameBut x _ _,
      State.act_otherBufferKept _ hx View.finalize_b, ?_, fun hclean => ?_⟩
    · simp [View.stored, hfinal, hctx]
    · have hbase := View.baseFinalize_clean (v := s.view x) hclean hf
      rw [State.act_draws, State.act_blkOf, View.stored, hfinal, hbase]
      exact ⟨rfl, markedBlock (s.blkOf x) x.off.toNat, fun i hi => blockByte_markedBlock _ x.off.isLt hi,
        fun i hi => blockByte_lastBlock (s.view x) hi, (s.view x).lastBlock_lengthField, rfl⟩

/-! ### Blocks of byte sequences (R42 (a)) -/

/-- Byte `k` of block word `j` is block byte `4 * j + k`. -/
theorem blockByte_wordIndex (x : Block) {j k : Nat} (hj : j < 16) (hk : k < 4) :
    blockByte x (4 * j + k) = wordByte x[j] k := by
  have hword : (4 * j + k) / 4 = j := by omega
  have hbyte : (4 * j + k) % 4 = k := by omega
  rw [blockByte, hword, hbyte]
  simp [Vector.getD, hj]

/-- A block is given by its bytes. -/
theorem block_eq_of_bytes {x y : Block} (h : ∀ i < 64, blockByte x i = blockByte y i) : x = y := by
  apply Vector.ext
  intro j hj
  have hbyte (k : Nat) (hk : k < 4) : wordByte x[j] k = wordByte y[j] k := by
    rw [← blockByte_wordIndex x hj hk, ← blockByte_wordIndex y hj hk, h _ (by omega)]
  rw [← word_eq_bytes x[j], ← word_eq_bytes y[j], hbyte 0 (by decide), hbyte 1 (by decide), hbyte 2 (by decide),
    hbyte 3 (by decide)]

theorem wordByte_toNat (w : Word) (k : Nat) : (wordByte w k).toNat = w.toNat / 2 ^ (24 - 8 * k) % 2 ^ 8 := by
  rw [wordByte, BitVec.truncate, BitVec.toNat_setWidth, BitVec.toNat_ushiftRight, Nat.shiftRight_eq_div_pow]

/-- A word made of four bytes reads each of them back. -/
theorem wordByte_wordOfBytes (f : Nat → Byte) {k : Nat} (hk : k < 4) :
    wordByte (wordOfBytes (f 0) (f 1) (f 2) (f 3)) k = f k := by
  have h1 := (f 1).isLt
  have h2 := (f 2).isLt
  have h3 := (f 3).isLt
  apply BitVec.eq_of_toNat_eq
  rw [wordByte_toNat, wordOfBytes, toNat_append_eq, toNat_append_eq, toNat_append_eq]
  interval_cases k <;> omega

/-- Byte `i` of block number `k` is byte `64 * k + i` of the sequence. -/
theorem blockByte_messageBlock (bs : List Byte) (k : Nat) {i : Nat} (hi : i < 64) :
    blockByte (messageBlock bs k) i = bs.getD (64 * k + i) 0 := by
  obtain ⟨j, r, hr, rfl⟩ : ∃ j r, r < 4 ∧ i = 4 * j + r := ⟨i / 4, i % 4, by omega, by omega⟩
  rw [blockByte_wordIndex _ (by omega) hr, messageBlock, Vector.getElem_ofFn]
  exact (wordByte_wordOfBytes (fun r => bs.getD (64 * k + 4 * j + r) 0) hr).trans (by rw [Nat.add_assoc])

theorem messageBlock_append {bs : List Byte} {k : Nat} (h : 64 * (k + 1) ≤ bs.length) (more : List Byte) :
    messageBlock (bs ++ more) k = messageBlock bs k := by
  refine block_eq_of_bytes fun i hi => ?_
  rw [blockByte_messageBlock _ _ hi, blockByte_messageBlock _ _ hi, List.getD_append _ _ _ _ (by omega)]

/-- The accumulators after the first `n` blocks of a byte sequence. -/
def foldFirstBlocks (t : Bool) (bs : List Byte) (n : Nat) : Vector Word 8 :=
  (List.range n).foldl (fun h k => compressWords h (messageBlock bs k)) (ivOf t)

theorem foldBlocks_eq (t : Bool) (bs : List Byte) : foldBlocks t bs = foldFirstBlocks t bs (bs.length / 64) := rfl

@[simp] theorem foldFirstBlocks_zero (t : Bool) (bs : List Byte) : foldFirstBlocks t bs 0 = ivOf t := rfl

theorem foldFirstBlocks_succ (t : Bool) (bs : List Byte) (n : Nat) :
    foldFirstBlocks t bs (n + 1) = compressWords (foldFirstBlocks t bs n) (messageBlock bs n) := by
  rw [foldFirstBlocks, List.range_succ, List.foldl_append]
  rfl

/-- Bytes appended later leave the blocks that were full already as they are. -/
theorem foldFirstBlocks_append (t : Bool) {bs : List Byte} {n : Nat} (h : 64 * n ≤ bs.length) (more : List Byte) :
    foldFirstBlocks t (bs ++ more) n = foldFirstBlocks t bs n := by
  induction n with
  | zero => rw [foldFirstBlocks_zero, foldFirstBlocks_zero]
  | succ n ih => rw [foldFirstBlocks_succ, foldFirstBlocks_succ, ih (by omega), messageBlock_append h]

/-! ### The padded byte sequence (R84) -/

/-- A message with the marker byte and zeros, up to the length field. -/
def markedMessage (m : List Byte) : List Byte := m ++ 0x80#8 :: List.replicate ((119 - m.length % 64) % 64) 0x00#8

theorem padMessage_eq (m : List Byte) : padMessage m = markedMessage m ++ lengthField m.length := by
  simp [padMessage, markedMessage]

theorem length_markedMessage (m : List Byte) :
    (markedMessage m).length = 64 * (if m.length % 64 < 56 then m.length / 64 else m.length / 64 + 1) + 56 := by
  rw [markedMessage, List.length_append, List.length_cons, List.length_replicate]
  split <;> omega

theorem markedMessage_getD (m : List Byte) (i : Nat) :
    (markedMessage m).getD i 0 = if i < m.length then m.getD i 0 else if i = m.length then 0x80#8 else 0x00#8 := by
  rcases Nat.lt_trichotomy i m.length with hlt | rfl | hgt
  · rw [if_pos hlt, markedMessage, List.getD_append _ _ _ _ hlt]
  · rw [if_neg (lt_irrefl _), if_pos rfl, markedMessage, List.getD_append_right _ _ _ _ le_rfl, Nat.sub_self,
      List.getD_cons_zero]
  · obtain ⟨j, rfl⟩ := Nat.exists_eq_add_of_lt hgt
    rw [if_neg (by omega), if_neg (by omega), markedMessage, List.getD_append_right _ _ _ _ (by omega),
      Nat.add_assoc, Nat.add_sub_cancel_left, List.getD_cons_succ, List.getD_eq_getElem?_getD]
    exact List.getElem?_getD_replicate_default_eq _ _ _

theorem length_lengthField (n : Nat) : (lengthField n).length = 8 := by simp [lengthField]

/-- The length field depends on the byte count modulo 2^64 only (R85). -/
theorem lengthField_mod (n : Nat) : lengthField (n % 2 ^ 64) = lengthField n := by
  have hbits : 8 * (n % 2 ^ 64) % 2 ^ 64 = 8 * n % 2 ^ 64 := by omega
  rw [lengthField, lengthField, hbits]

/-- The padded message is a whole number of blocks: one or two beyond the full blocks of the message. -/
theorem length_padMessage (m : List Byte) :
    (padMessage m).length = 64 * ((if m.length % 64 < 56 then m.length / 64 else m.length / 64 + 1) + 1) := by
  rw [padMessage_eq, List.length_append, length_markedMessage, length_lengthField]
  omega

/-- The last two words of the last block, byte by byte, are the length field. -/
theorem blockByte_lastBlock_lengthField (v : View) {k : Nat} (hk : k < 8) :
    blockByte v.lastBlock (56 + k) = (lengthField v.ctx.count).getD k 0 := by
  have hfield : (lengthField v.ctx.count).getD k 0 = BitVec.ofNat 8 (8 * v.ctx.count % 2 ^ 64 / 2 ^ (56 - 8 * k)) := by
    simp [lengthField, hk]
  apply BitVec.eq_of_toNat_eq
  rw [hfield, BitVec.toNat_ofNat]
  rcases Nat.lt_or_ge k 4 with hhigh | hlow
  · have hpow : 32 + (24 - 8 * k) = 56 - 8 * k := by omega
    rw [blockByte_wordIndex _ (j := 14) (by decide) hhigh, v.lastBlock_hi, wordByte_toNat, Ctx.bitLenHi_toNat,
      Nat.div_div_eq_div_mul, ← Nat.pow_add, hpow]
  · obtain ⟨r, rfl⟩ := Nat.exists_eq_add_of_le hlow
    have hr : r < 4 := by omega
    have hindex : 56 + (4 + r) = 4 * 15 + r := by omega
    rw [hindex, blockByte_wordIndex _ (j := 15) (by decide) hr, v.lastBlock_lo, wordByte_toNat, Ctx.bitLenLo_toNat]
    interval_cases r <;> omega

/-! ### An engine that has absorbed a byte sequence (R82, R91) -/

/-- The engine of view `v` is open and untainted, and stands as it does after `m` since its reset: the full blocks of `m` are in
the accumulators, the rest of `m` is in the block. -/
structure View.Absorbed (v : View) (m : List Byte) : Prop where
  clean : v.ctx.tainted = false
  isOpen : v.ctx.fin = false
  hash : v.ctx.h = foldBlocks v.ctx.t m
  off : v.ctx.off.toNat = m.length % 64
  count : v.ctx.count = m.length % 2 ^ 64
  bytes : ∀ i < m.length % 64, blockByte v.blk i = m.getD (64 * (m.length / 64) + i) 0

theorem View.engineReset_absorbed {v : View} (hclean : v.ctx.tainted = false) : v.engineReset.Absorbed [] := by
  rw [View.engineReset_clean hclean]
  exact ⟨hclean, rfl, (foldFirstBlocks_zero _ _).symm, rfl, by simp [Ctx.count], fun i hi => absurd hi (Nat.not_lt_zero i)⟩

/-- With one more byte put at the fill offset, the block holds the rest of the longer sequence up to and with that byte. -/
theorem View.Absorbed.byte_blockPutByte {v : View} {m : List Byte} (hv : v.Absorbed m) (b : Byte) {i : Nat}
    (hi : i < m.length % 64 + 1) :
    blockByte (blockPutByte v.blk v.ctx.off.toNat b) i = (m ++ [b]).getD (64 * (m.length / 64) + i) 0 := by
  rw [blockByte_blockPutByte _ _ v.ctx.off.isLt, hv.off]
  rcases (Nat.lt_succ_iff.mp hi).lt_or_eq with hold | rfl
  · rw [if_neg hold.ne, hv.bytes i hold, List.getD_append _ _ _ _ (by omega)]
  · rw [if_pos rfl, Nat.div_add_mod, List.getD_append_right _ _ _ _ le_rfl, Nat.sub_self, List.getD_cons_zero]

/-- `PushByte` appends its byte to what the engine has absorbed (R82). -/
theorem View.Absorbed.pushByte {v : View} {m : List Byte} (hv : v.Absorbed m) (b : Byte) :
    (v.pushByte b).Absorbed (m ++ [b]) := by
  have hput (i : Nat) (hi : i < m.length % 64 + 1) := hv.byte_blockPutByte b hi
  obtain ⟨hclean, hopen, hhash, hoff, hcount, -⟩ := hv
  have hlength : (m ++ [b]).length = m.length + 1 := List.length_append
  have hprefix : foldFirstBlocks v.ctx.t (m ++ [b]) (m.length / 64) = v.ctx.h := by
    rw [hhash, foldBlocks_eq, foldFirstBlocks_append _ (by omega)]
  have hfull : v.ctx.off = 63 ↔ m.length % 64 = 63 := by rw [← hoff, ← BitVec.toNat_inj]; rfl
  rw [View.pushByte_clean hclean hopen]
  refine ⟨by simpa [Ctx.countByte_eq] using hclean, by simpa [Ctx.countByte_eq] using hopen, ?_, ?_, ?_, ?_⟩
  · dsimp only
    rw [foldBlocks_eq, hlength, Ctx.countByte_eq]
    split
    next hlast =>
      have hmod := hfull.mp hlast
      have hdiv : (m.length + 1) / 64 = m.length / 64 + 1 := by omega
      have hblock : blockPutByte v.blk v.ctx.off.toNat b = messageBlock (m ++ [b]) (m.length / 64) :=
        block_eq_of_bytes fun i hi => by rw [hput i (by omega), blockByte_messageBlock _ _ hi]
      rw [hdiv, foldFirstBlocks_succ, ← hblock, hprefix]
    next hmid =>
      have hmod := mt hfull.mpr hmid
      have hdiv : (m.length + 1) / 64 = m.length / 64 := by omega
      rw [hdiv, hprefix]
  · rw [hlength]
    simp only [BitVec.toNat_add, hoff, BitVec.ofNat_eq_ofNat, BitVec.toNat_ofNat]
    omega
  · rw [hlength]
    exact v.ctx.countByte_count.trans (by rw [hcount]; omega)
  · rw [hlength]
    intro i hi
    have hdiv : (m.length + 1) / 64 = m.length / 64 := by omega
    rw [hdiv]
    exact hput i (by omega)

theorem View.Absorbed.pushBytes (bs : List Byte) :
    ∀ {v : View} {m : List Byte}, v.Absorbed m → (v.pushBytes bs).Absorbed (m ++ bs) := by
  induction bs with
  | nil => intro v m hv; rwa [List.append_nil]
  | cons b bs ih => intro v m hv; rw [List.append_cons]; exact ih (hv.pushByte b)

/-! ### What finalizing makes of it (R84, R86, R103) -/

/-- The marker's block holds the rest of the message, the marker and zeros. -/
theorem View.Absorbed.byte_markedBlock {v : View} {m : List Byte} (hv : v.Absorbed m) {i : Nat} (hi : i < 64) :
    blockByte (markedBlock v.blk v.ctx.off.toNat) i = (markedMessage m).getD (64 * (m.length / 64) + i) 0 := by
  rw [blockByte_markedBlock _ v.ctx.off.isLt hi, markedMessage_getD, hv.off]
  rcases Nat.lt_trichotomy i (m.length % 64) with hlt | rfl | hgt
  · rw [if_pos hlt, if_pos (by omega), hv.bytes i hlt]
  · rw [if_neg (lt_irrefl _), if_pos rfl, if_neg (by omega), if_pos (by omega)]
  · rw [if_neg (by omega), if_neg (by omega), if_neg (by omega), if_neg (by omega)]

/-- The block of the final compression is the last block of the padded sequence. -/
theorem View.Absorbed.lastBlock {v : View} {m : List Byte} (hv : v.Absorbed m) :
    v.lastBlock = messageBlock (padMessage m) (if m.length % 64 < 56 then m.length / 64 else m.length / 64 + 1) := by
  have hlength := length_markedMessage m
  refine block_eq_of_bytes fun i hi => ?_
  rw [blockByte_messageBlock _ _ hi, padMessage_eq]
  rcases Nat.lt_or_ge i 56 with hbody | hfield
  · rw [List.getD_append _ _ _ _ (by omega), blockByte_lastBlock v hbody, hv.off]
    split
    next hone => rw [← hv.off, hv.byte_markedBlock hi]
    next htwo => rw [markedMessage_getD, if_neg (by omega), if_neg (by omega)]
  · obtain ⟨k, rfl⟩ := Nat.exists_eq_add_of_le hfield
    rw [List.getD_append_right _ _ _ _ (by omega), hlength, blockByte_lastBlock_lengthField v (by omega), hv.count,
      lengthField_mod, ← Nat.add_assoc, Nat.add_sub_cancel_left]

/-- The one or two compressions of the padding give the accumulators of the whole padded sequence. -/
theorem View.Absorbed.paddedHash {v : View} {m : List Byte} (hv : v.Absorbed m) :
    v.paddedHash = foldBlocks v.ctx.t (padMessage m) := by
  have hlength := length_padMessage m
  have hmarked := length_markedMessage m
  have hfull : foldFirstBlocks v.ctx.t (padMessage m) (m.length / 64) = v.ctx.h := by
    rw [hv.hash, foldBlocks_eq, padMessage, foldFirstBlocks_append _ (by omega)]
  rw [View.paddedHash, hv.lastBlock, foldBlocks_eq, hlength, Nat.mul_div_cancel_left _ (by decide), foldFirstBlocks_succ,
    hv.off]
  split
  next hone => rw [hfull]
  next htwo =>
    have hblock : markedBlock v.blk v.ctx.off.toNat = messageBlock (padMessage m) (m.length / 64) := by
      refine block_eq_of_bytes fun i hi => ?_
      rw [hv.byte_markedBlock hi, blockByte_messageBlock _ _ hi, padMessage_eq,
        List.getD_append _ _ _ _ (by rw [hmarked, if_neg htwo]; omega)]
    rw [foldFirstBlocks_succ, hfull, ← hblock, hv.off]

/-- The outer pass hashes the outer pad and the inner digest (R103). -/
theorem View.hmacOuterPass_h {v : View} (hclean : v.ctx.tainted = false) :
    v.hmacOuterPass.ctx.h = foldBlocks v.ctx.t (padMessage (v.ctx.opad.toList ++ v.ctx.digestBytes)) := by
  have habsorbed := ((View.engineReset_absorbed (v := v.dropLatch) hclean).pushBytes v.ctx.opad.toList).pushBytes
    v.ctx.digestBytes
  obtain ⟨_, _, _, _, e1⟩ := View.pushBytes_ctx v.ctx.opad.toList v.dropLatch.engineReset
  obtain ⟨_, _, _, _, e2⟩ := View.pushBytes_ctx v.ctx.digestBytes (v.dropLatch.engineReset.pushBytes v.ctx.opad.toList)
  have ht : ((v.dropLatch.engineReset.pushBytes v.ctx.opad.toList).pushBytes v.ctx.digestBytes).ctx.t = v.ctx.t := by
    rw [e2, e1, View.engineReset_ctx, View.dropLatch_ctx]
  have hpass : v.hmacOuterPass =
      ((v.dropLatch.engineReset.pushBytes v.ctx.opad.toList).pushBytes v.ctx.digestBytes).baseFinalize := rfl
  rw [hpass, View.baseFinalize_clean habsorbed.clean habsorbed.isOpen]
  exact habsorbed.paddedHash.trans (by rw [ht, List.nil_append])

/-- `Finalize` of an untainted open engine, by its accumulators (R86). -/
theorem View.finalize_h {v : View} (hclean : v.ctx.tainted = false) (hf : v.ctx.fin = false) :
    v.finalize.ctx.h =
      if (v.ctx.m && v.ctx.latch) = true then
        foldBlocks v.ctx.t
          (padMessage (v.ctx.opad.toList ++ (List.range (dlenOf v.ctx.t)).map (hashByte v.paddedHash)))
      else v.paddedHash := by
  have hbase := View.baseFinalize_clean hclean hf
  unfold View.finalize
  dsimp only
  rw [hbase]
  dsimp only
  split
  next howes => exact View.hmacOuterPass_h hclean
  next hpaid => rfl

/-! ### Whole command sequences (R109, R110, R114) -/

/-- Driving two sequences one after the other. -/
theorem drive_append {is js : List Instr} :
    ∀ {s u w : State} {rs qs : List Response}, drive is s = some (u, rs) → drive js u = some (w, qs) →
      drive (is ++ js) s = some (w, rs ++ qs) := by
  induction is with
  | nil => intro s u w rs qs his hjs; cases his; exact hjs
  | cons i is ih =>
    intro s u w rs qs his hjs
    cases hi : exec i s with
    | next v =>
      simp only [drive, hi, Option.map_eq_some_iff, Prod.exists, Prod.mk.injEq] at his
      obtain ⟨_, _, hrest, rfl, rfl⟩ := his
      simp [drive, hi, ih hrest hjs]
    | fault r => cases r
    | refused r => simp [drive, hi] at his

/-- What a procedure has made an engine absorb is still absorbed once the view is stored. -/
theorem View.Absorbed.act {s : State} {x : Ctx} {f : View → View} {m : List Byte} (h : (f (s.view x)).Absorbed m) (c : Nat)
    (out : Ctx → Word) : ((s.act c x f out).view (f (s.view x)).stored).Absorbed m where
  clean := h.clean
  isOpen := h.isOpen
  hash := h.hash
  off := h.off
  count := h.count
  bytes := by rw [State.view_blk, State.act_blkOf]; exact h.bytes

/-- A message sent byte by byte to a context outside key phase is answered with (OK, 0) throughout, and absorbed. -/
theorem drive_update {c : Nat} (bs : List Byte) :
    ∀ {s : State} {x : Ctx} {m : List Byte}, s.ctxs[c]? = some x → x.kph = false → (s.view x).Absorbed m →
      ∃ u y, drive (update c bs) s = some (u, List.replicate bs.length (okResponse 0)) ∧ u.ctxs[c]? = some y ∧
        y = { x with h := y.h, b := y.b, off := y.off, cntLo := y.cntLo, cntHi := y.cntHi } ∧
        (u.view y).Absorbed (m ++ bs) := by
  induction bs with
  | nil => intro s x m hx _ hm; exact ⟨s, x, rfl, hx, rfl, by rwa [List.append_nil]⟩
  | cons b bs ih =>
    intro s x m hx hk hm
    obtain ⟨hc, -⟩ := List.getElem?_eq_some_iff.mp hx
    obtain ⟨_, _, _, _, e⟩ := View.pushByte_ctx (s.view x) b
    have hself := s.act_self x (fun v => v.pushByte b) (fun _ => 0) hc
    obtain ⟨u, y, hdrive, hy, hframe, habsorbed⟩ :=
      ih hself (by simpa [View.stored, e] using hk) ((hm.pushByte b).act c fun _ => 0)
    refine ⟨u, y, drive_cons (exec_pushb hx hk b) rfl hdrive, hy, hframe.trans ?_, by simpa using habsorbed⟩
    simp [View.stored, e]

/-- Digest bytes read one by one: each is a byte of the accumulators that `Finalize` leaves (R94, R98). -/
theorem drive_readBytes {c : Nat} (is : List Nat) :
    ∀ {s : State} {x : Ctx}, s.ctxs[c]? = some x → x.kph = false → (∀ i ∈ is, i < x.dlen) →
      ∃ u, drive (is.map (.rdb c)) s =
        some (u, is.map fun i => okResponse ((hashByte (s.view x).finalize.ctx.h i).zeroExtend 32)) := by
  induction is with
  | nil => intro s x _ _ _; exact ⟨s, rfl⟩
  | cons i is ih =>
    intro s x hx hk his
    obtain ⟨hi, his⟩ := List.forall_mem_cons.mp his
    obtain ⟨hc, -⟩ := List.getElem?_eq_some_iff.mp hx
    have hself := s.act_self x View.finalize (fun y => (hashByte y.h i).zeroExtend 32) hc
    have hdlen : (s.view x).finalize.stored.dlen = x.dlen := (s.view x).finalize_dlen
    obtain ⟨u, hdrive⟩ := ih hself (by simpa [View.stored] using hk) (by rwa [hdlen])
    rw [View.finalize_view_stored] at hdrive
    exact ⟨u, drive_cons (exec_rdb hx hk hi) rfl hdrive⟩

/-- The responses to the digest reads, as bytes (R114). -/
theorem bytesOf_hashBytes (h : Vector Word 8) (is : List Nat) :
    bytesOf (is.map fun i => okResponse ((hashByte h i).zeroExtend 32)) = is.map (hashByte h) := by
  simp [bytesOf, okResponse, Function.comp_def]

/-- `INIT` under the contract leaves a plain engine that has absorbed nothing (R88, R109). -/
theorem drive_hashEngine {s : State} {c : Nat} (t : Bool) {sh : Bool} (hc : c < s.ctxs.length)
    (hcontract : sh = false ∨ s.NoOtherLiveShared c) :
    ∃ u y, drive (hashEngine c t sh) s = some (u, [okResponse 0]) ∧ u.ctxs[c]? = some y ∧ y.t = t ∧ y.m = false ∧
      y.kph = false ∧ (u.view y).Absorbed [] := by
  have hx := List.getElem?_eq_getElem hc
  have hreset := (s.view (s.ctxs[c].asPlain t sh)).engineReset_ctx
  have hempty := View.engineReset_absorbed (v := s.view (s.ctxs[c].asPlain t sh)) rfl
  have hinit := (exec_init hx t sh).trans (congrArg _ (State.construct_of_contract hc hcontract))
  refine ⟨_, _, drive_cons hinit rfl rfl, s.act_self _ _ _ hc, ?_, ?_, ?_, hempty.act c _⟩
  all_goals
    rw [View.stored, hreset]
    rfl

/-- Settles O43: `INIT` absorbs nothing, each `PUSHB` its byte, and the reads give the digest of what has been absorbed. -/
theorem hashCommandsComputeShaDigest : Obligations.HashCommandsComputeShaDigest := by
  intro s c t sh m hc hcontract
  obtain ⟨v, x, hinit, hx, hxt, hxm, hxk, hempty⟩ := drive_hashEngine t hc hcontract
  obtain ⟨u, y, hupdate, hy, hframe, habsorbed⟩ := drive_update m hx hxk hempty
  have hyt : y.t = t := by rw [hframe]; exact hxt
  have hym : y.m = false := by rw [hframe]; exact hxm
  have hyk : y.kph = false := by rw [hframe]; exact hxk
  have hfinal : (u.view y).finalize.ctx.h = foldBlocks t (padMessage m) := by
    rw [View.finalize_h habsorbed.clean habsorbed.isOpen, if_neg (by simp [hym]), habsorbed.paddedHash, State.view_ctx, hyt,
      List.nil_append]
  obtain ⟨w, hreads⟩ := drive_readBytes (List.range (dlenOf t)) hy hyk (by simp [Ctx.dlen, hyt])
  rw [hfinal] at hreads
  have hbefore : ([okResponse 0] ++ List.replicate m.length (okResponse 0)).length = 1 + m.length := by
    rw [List.length_append, List.length_singleton, List.length_replicate]
  refine ⟨w, _, drive_append (drive_append hinit hupdate) hreads, ?_, ?_, ?_⟩
  · rw [List.length_append, hbefore, List.length_map, List.length_range]
  · simp only [List.mem_append, List.mem_singleton, List.mem_replicate, List.mem_map]
    rintro r ((rfl | ⟨-, rfl⟩) | ⟨i, -, rfl⟩)
    · rfl
    · rfl
    · rfl
  · rw [List.drop_left' hbefore, bytesOf_hashBytes, shaDigest]

/-! ### What the block holds from the fill offset on (R91 (b)) -/

/-- Two views with the same context, up to its own block, and blocks in use that agree below the fill offset. -/
structure View.AgreeBelowOff (v w : View) : Prop where
  ctx : w.ctx = { v.ctx with b := w.ctx.b }
  bytes : ∀ i < v.ctx.off.toNat, blockByte v.blk i = blockByte w.blk i

/-- Blocks that agree below `k` are padded to the same block (R84). -/
theorem markedBlock_congr {x y : Block} {k : Nat} (hk : k < 64) (h : ∀ i < k, blockByte x i = blockByte y i) :
    markedBlock x k = markedBlock y k := by
  refine block_eq_of_bytes fun i hi => ?_
  rw [blockByte_markedBlock x hk hi, blockByte_markedBlock y hk hi]
  split
  next hlt => exact h i hlt
  next => rfl

/-- The padding overwrites the block from the fill offset on (R84). -/
theorem View.AgreeBelowOff.paddedHash {v w : View} (h : v.AgreeBelowOff w) : w.paddedHash = v.paddedHash := by
  obtain ⟨hctx, hbytes⟩ := h
  have hmarked := markedBlock_congr v.ctx.off.isLt hbytes
  have hoff : w.ctx.off = v.ctx.off := by rw [hctx]
  have hh : w.ctx.h = v.ctx.h := by rw [hctx]
  have hhi : w.ctx.bitLenHi = v.ctx.bitLenHi := by rw [hctx]; rfl
  have hlo : w.ctx.bitLenLo = v.ctx.bitLenLo := by rw [hctx]; rfl
  simp only [View.paddedHash, View.lastBlock, hoff, hh, hhi, hlo, hmarked]

section agree
variable {v w : View} (h : v.AgreeBelowOff w) (hclean : v.ctx.tainted = false) (hf : v.ctx.fin = false)
include h hclean hf

theorem View.AgreeBelowOff.finalize_h : w.finalize.ctx.h = v.finalize.ctx.h := by
  have hpadded := h.paddedHash
  obtain ⟨hctx, -⟩ := h
  rw [View.finalize_h hclean hf, View.finalize_h (by rw [hctx]; exact hclean) (by rw [hctx]; exact hf), hpadded, hctx]

/-- A byte goes to the same place in both, and a block that is full agrees throughout (R82). -/
theorem View.AgreeBelowOff.pushByte (b : Byte) : (v.pushByte b).AgreeBelowOff (w.pushByte b) := by
  obtain ⟨x, blk, d, n⟩ := v
  obtain ⟨y, blk', d', n'⟩ := w
  obtain ⟨hctx, hbytes⟩ := h
  obtain ⟨own, rfl⟩ : ∃ own, y = { x with b := own } := ⟨_, hctx⟩
  have hput (i : Nat) (hi : i < x.off.toNat + 1) :
      blockByte (blockPutByte blk x.off.toNat b) i = blockByte (blockPutByte blk' x.off.toNat b) i := by
    rw [blockByte_blockPutByte _ _ x.off.isLt, blockByte_blockPutByte _ _ x.off.isLt]
    split
    next => rfl
    next hne => exact hbytes i (by dsimp only; omega)
  have hhash : (if x.off = 63 then compressWords x.h (blockPutByte blk' x.off.toNat b) else x.h) =
      if x.off = 63 then compressWords x.h (blockPutByte blk x.off.toNat b) else x.h :=
    ite_congr rfl (fun hlast => congrArg _ (block_eq_of_bytes fun i hi => (hput i (by rw [hlast]; exact hi)).symm))
      fun _ => rfl
  rw [View.pushByte_clean (v := ⟨x, blk, d, n⟩) hclean hf,
    View.pushByte_clean (v := ⟨{ x with b := own }, blk', d', n'⟩) hclean hf]
  refine ⟨?_, fun i hi => hput i ?_⟩
  · simp only [Ctx.countByte_eq, hhash]
  · exact hi.trans_le (by rw [BitVec.toNat_add]; exact Nat.mod_le _ _)

end agree

/-- Settles O45: agreement below the fill offset is kept by `PUSHB`, and the padding overwrites the rest. -/
theorem staleBlockBytesNeverMatter : Obligations.StaleBlockBytesNeverMatter := by
  intro s u c x y hx hy hclean hf hk hctx hbytes
  have hagree : (s.view x).AgreeBelowOff (u.view y) := ⟨hctx, hbytes⟩
  have hky : y.kph = false := by rw [hctx]; exact hk
  obtain ⟨hcs, -⟩ := List.getElem?_eq_some_iff.mp hx
  obtain ⟨hcu, -⟩ := List.getElem?_eq_some_iff.mp hy
  refine ⟨fun b => ?_, fun j => ?_⟩
  · obtain ⟨hctx', hbytes'⟩ := hagree.pushByte hclean hf b
    refine ⟨_, _, _, _, exec_pushb hx hk b, exec_pushb hy hky b, s.act_self x _ _ hcs, u.act_self y _ _ hcu, ?_, ?_⟩
    · rw [View.stored, View.stored, hctx']
    · rw [State.act_blkOf, State.act_blkOf]
      exact hbytes'
  · have hdlen : y.dlen = x.dlen := by rw [hctx]; rfl
    rcases Nat.lt_or_ge (4 * j) x.dlen with hin | hout
    · refine ⟨_, _, exec_rdw hx hk hin, exec_rdw hy hky (by rwa [hdlen]), ?_⟩
      simp only [State.act, State.respondOk_rsp, hagree.finalize_h hclean hf]
    · have hrefused (z : Ctx) (hz : z.dlen = x.dlen) : z.takesWordRead j = false := by
        simp [Ctx.takesWordRead, hz, hout]
      exact ⟨_, _, congrArg Host.Outcome.next (State.accept_refused hx (hrefused x rfl) _),
        congrArg Host.Outcome.next (State.accept_refused hy (hrefused y hdlen) _), rfl⟩

end Sys2Proof.Machine
end

section
/-! ## Digest and status reads (spec/42_digest_status_reads.md)

When a digest read is refused, what a sealed context answers to each command, and what a command to another context can do to
it; from them the statements of this family. -/

namespace Sys2Proof.Machine

/-! ### Reads: admitted and refused (R59, R94, R95, R97) -/

theorem Ctx.takesByteRead_eq_false {x : Ctx} {i : Nat} (h : x.kph = true ∨ x.dlen ≤ i) : x.takesByteRead i = false := by
  rcases h with hk | hout
  · simp [Ctx.takesByteRead, Ctx.takesData, hk]
  · simp [Ctx.takesByteRead, hout]

theorem Ctx.takesWordRead_eq_false {x : Ctx} {j : Nat} (h : x.kph = true ∨ x.dlen ≤ 4 * j) : x.takesWordRead j = false := by
  rcases h with hk | hout
  · simp [Ctx.takesWordRead, Ctx.takesData, hk]
  · simp [Ctx.takesWordRead, hout]

section reads
variable {s : State} {c : Nat} {x : Ctx} (hx : s.ctxs[c]? = some x)
include hx

theorem exec_rdb_refused {i : Nat} (h : x.kph = true ∨ x.dlen ≤ i) : exec (.rdb c i) s = .next s.respondErr :=
  congrArg Host.Outcome.next (State.accept_refused hx (Ctx.takesByteRead_eq_false h) _)

theorem exec_rdw_refused {j : Nat} (h : x.kph = true ∨ x.dlen ≤ 4 * j) : exec (.rdw c j) s = .next s.respondErr :=
  congrArg Host.Outcome.next (State.accept_refused hx (Ctx.takesWordRead_eq_false h) _)

theorem exec_rdcnt (n : Bool) : exec (.rdcnt c n) s = .next (s.respondOk (if n then x.cntHi else x.cntLo)) :=
  congrArg Host.Outcome.next (State.accept_ok hx rfl _)

end reads

/-- A digest byte is eight bits of its accumulator word, most-significant byte first (R42 (c), R93). -/
theorem hashByte_toNat (h : Vector Word 8) (i : Nat) :
    (hashByte h i).toNat = (h.getD (i / 4) 0).toNat / 2 ^ (24 - 8 * (i % 4)) % 256 :=
  wordByte_toNat _ _

/-- Settles O33: `RDB` stores the same view as `FINAL` does, and responds a byte of that view's accumulators. -/
theorem rdbReturnsDigestByte : Obligations.RdbReturnsDigestByte := by
  intro s c i
  refine ⟨fun hnone => congrArg Host.Outcome.next (State.accept_none hnone _ _), fun x hx =>
    ⟨fun hk => exec_rdb_refused hx (.inl hk), fun hout => exec_rdb_refused hx (.inr hout), fun hk hin => ?_⟩⟩
  obtain ⟨hc, -⟩ := List.getElem?_eq_some_iff.mp hx
  refine ⟨_, _, (hashByte (s.view x).finalize.ctx.h i).zeroExtend 32, exec_final hx hk, s.act_self _ _ _ hc,
    exec_rdb hx hk hin, ?_⟩
  rw [BitVec.zeroExtend, BitVec.toNat_setWidth_of_le (by decide)]
  exact hashByte_toNat _ i

/-- Settles O34: `RDW` stores the same view as `FINAL` does, and responds a word of that view's accumulators. -/
theorem rdwReturnsDigestWord : Obligations.RdwReturnsDigestWord := by
  intro s c j
  refine ⟨fun hnone => congrArg Host.Outcome.next (State.accept_none hnone _ _), fun x hx =>
    ⟨fun hk => exec_rdw_refused hx (.inl hk), fun hout => exec_rdw_refused hx (.inr hout), fun hk hin => ?_⟩⟩
  obtain ⟨hc, -⟩ := List.getElem?_eq_some_iff.mp hx
  exact ⟨_, _, exec_final hx hk, s.act_self _ _ _ hc, exec_rdw hx hk hin⟩

/-- Settles O37: both selectors are the answer alone. -/
theorem rdcntReturnsCounter : Obligations.RdcntReturnsCounter := by
  intro s c
  exact ⟨fun _ hnone => congrArg Host.Outcome.next (State.accept_none hnone _ _),
    fun _ hx => ⟨exec_rdcnt hx false, exec_rdcnt hx true⟩⟩

/-! ### What a sealed context answers (R98) -/

/-- A finalized context that is past its key phase and owes no outer pass. -/
structure Ctx.Sealed (x : Ctx) : Prop where
  fin : x.fin = true
  kph : x.kph = false
  paid : (x.m && x.latch) = false

/-- In a context that meets the invariant `FIN` alone says so (R34 (i), (iii)). -/
theorem Ctx.Ok.isSealed {x : Ctx} (hok : x.Ok) (hf : x.fin = true) : x.Sealed where
  fin := hf
  kph := by
    obtain ⟨hkey, -⟩ := hok
    refine Bool.eq_false_iff.mpr fun hk => ?_
    obtain ⟨-, hopen, -⟩ := hkey hk
    exact Bool.noConfusion (hf.symm.trans hopen)
  paid := by
    obtain ⟨-, -, hlatch, -⟩ := hok
    rw [hlatch hf, Bool.and_false]

/-- The response of a sealed context to a command that does not construct it anew. -/
def Ctx.sealedResponse (x : Ctx) : Instr → Response
  | .keyb _ _ | .keyend _ => errResponse
  | .rdb _ j => if j < x.dlen then okResponse ((hashByte x.h j).zeroExtend 32) else errResponse
  | .rdw _ j => if 4 * j < x.dlen then okResponse (x.h.getD j 0) else errResponse
  | .rdst _ => okResponse x.status
  | .rdcnt _ n => okResponse (if n then x.cntHi else x.cntLo)
  | .nop | .init _ _ _ | .hinit _ _ _ | .pushb _ _ | .final _ => okResponse 0

section sealedContext
variable {s : State} {c : Nat} {x : Ctx} (hx : s.ctxs[c]? = some x) (hsealed : x.Sealed)
include hx hsealed

/-- An effect that runs `Finalize` on a sealed context is the answer alone (R90). -/
theorem State.act_finalize_sealed (out : Ctx → Word) : s.act c x View.finalize out = s.respondOk (out x) :=
  State.act_unchanged out hx (View.finalize_again (v := s.view x) hsealed.fin hsealed.paid)

theorem exec_rdb_sealed (j : Nat) : exec (.rdb c j) s = .next { s with rsp := some (x.sealedResponse (.rdb c j)) } := by
  rcases Nat.lt_or_ge j x.dlen with hin | hout
  · rw [exec_rdb hx hsealed.kph hin, State.act_finalize_sealed hx hsealed, Ctx.sealedResponse, if_pos hin]
    rfl
  · rw [exec_rdb_refused hx (.inr hout), Ctx.sealedResponse, if_neg hout.not_gt]
    rfl

theorem exec_rdw_sealed (j : Nat) : exec (.rdw c j) s = .next { s with rsp := some (x.sealedResponse (.rdw c j)) } := by
  rcases Nat.lt_or_ge (4 * j) x.dlen with hin | hout
  · rw [exec_rdw hx hsealed.kph hin, State.act_finalize_sealed hx hsealed, Ctx.sealedResponse, if_pos hin]
    rfl
  · rw [exec_rdw_refused hx (.inr hout), Ctx.sealedResponse, if_neg hout.not_gt]
    rfl

/-- A sealed context answers every command that does not construct it anew, and nothing else happens. -/
theorem exec_sealed {i : Instr} (hi : i.ctx? = none ∨ i.ctx? = some c)
    (hkeep : ∀ t sh, i ≠ .init c t sh ∧ i ≠ .hinit c t sh) :
    exec i s = .next { s with rsp := some (x.sealedResponse i) } := by
  rcases hi with hnone | hc
  · obtain rfl := ctx?_eq_none_iff.mp hnone
    rfl
  have hkey : x.takesKey = false := by simp [Ctx.takesKey, hsealed.kph]
  cases i with
  | nop => rfl
  | init d t sh => cases hc; exact absurd rfl (hkeep t sh).1
  | hinit d t sh => cases hc; exact absurd rfl (hkeep t sh).2
  | keyb d b => cases hc; exact congrArg Host.Outcome.next (State.accept_refused hx hkey _)
  | keyend d => cases hc; exact congrArg Host.Outcome.next (State.accept_refused hx hkey _)
  | pushb d b =>
    cases hc
    exact (exec_pushb hx hsealed.kph b).trans
      (congrArg _ (State.act_unchanged _ hx (View.pushByte_sealed (v := s.view x) hsealed.fin b)))
  | final d =>
    cases hc
    exact (exec_final hx hsealed.kph).trans (congrArg _ (State.act_finalize_sealed hx hsealed _))
  | rdb d j => cases hc; exact exec_rdb_sealed hx hsealed j
  | rdw d j => cases hc; exact exec_rdw_sealed hx hsealed j
  | rdst d => cases hc; exact exec_rdst hx
  | rdcnt d n => cases hc; exact exec_rdcnt hx n

end sealedContext

/-! ### What a command does to the context it does not name (R66, R142) -/

/-- The ways a command that names context `c` can end: an answer alone, a procedure run on the context, a construction. -/
inductive State.Effect (s : State) (c : Nat) : State → Prop where
  | answer (r : Option Response) : s.Effect c { s with rsp := r }
  | act (x : Ctx) (f : View → View) (out : Ctx → Word) : s.Effect c (s.act c x f out)
  | construct (x : Ctx) : s.Effect c (s.construct c x)

theorem State.Effect.accept {s : State} {c : Nat} {run : Ctx → State} (hrun : ∀ x, s.Effect c (run x))
    (ok : Ctx → Bool) : s.Effect c (s.accept c ok run) := by
  rcases s.accept_cases c ok run with ⟨-, e⟩ | ⟨x, -, -, e⟩
  · rw [e]; exact .answer _
  · rw [e]; exact hrun x

theorem exec_effect {i : Instr} {s u : State} {c : Nat} (hc : i.ctx? = some c) (h : exec i s = .next u) :
    s.Effect c u := by
  cases i with
  | nop => cases hc
  | init d t sh => cases hc; cases h; exact .accept (fun _ => .construct _) _
  | hinit d t sh => cases hc; cases h; exact .accept (fun _ => .construct _) _
  | keyb d b => cases hc; cases h; exact .accept (fun _ => .act _ _ _) _
  | keyend d => cases hc; cases h; exact .accept (fun _ => .act _ _ _) _
  | pushb d b => cases hc; cases h; exact .accept (fun _ => .act _ _ _) _
  | final d => cases hc; cases h; exact .accept (fun _ => .act _ _ _) _
  | rdb d j => cases hc; cases h; exact .accept (fun _ => .act _ _ _) _
  | rdw d j => cases hc; cases h; exact .accept (fun _ => .act _ _ _) _
  | rdst d => cases hc; cases h; exact .accept (fun _ => .answer _) _
  | rdcnt d n => cases hc; cases h; exact .accept (fun _ => .answer _) _

/-- Noting a breach marks live shared contexts only (R142). -/
theorem State.noteSharing_notLive {s : State} {c : Nat} {x : Ctx} (hx : s.ctxs[c]? = some x) (hl : x.liveShared = false) :
    s.noteSharing.ctxs[c]? = some x := by
  by_cases hone : s.liveSharedCount ≤ 1
  · rw [State.noteSharing_contract hone, hx]
  · rw [State.noteSharing_breach hone]
    simp [hx, hl]

/-- Constructing a context leaves another one, if it is not a live shared one, as it is, also where it breaks the contract. -/
theorem State.construct_other {s : State} {c d : Nat} {x : Ctx} (y : Ctx) (hx : s.ctxs[c]? = some x) (hcd : c ≠ d)
    (hl : x.liveShared = false) : (s.construct d y).ctxs[c]? = some x := by
  have hstore : (s.store d (s.view y).engineReset).ctxs[c]? = some x := (s.store_other _ hcd).trans hx
  unfold State.construct
  dsimp only
  split
  · exact State.noteSharing_notLive hstore hl
  · exact hstore

/-- A context that is not a live shared one is left as it is by every command that names another. -/
theorem exec_other_notLive {i : Instr} {s u : State} {c d : Nat} {x : Ctx} (hx : s.ctxs[c]? = some x)
    (hl : x.liveShared = false) (hd : i.ctx? = some d) (hcd : c ≠ d) (h : exec i s = .next u) : u.ctxs[c]? = some x := by
  cases exec_effect hd h with
  | answer r => exact hx
  | act y f out => exact (s.store_other _ hcd).trans hx
  | construct y => exact State.construct_other y hx hcd hl

/-- Settles O8: the response is `sealedResponse`, and a sealed context is no live shared one. -/
theorem sealedContextRepeats : Obligations.SealedContextRepeats := by
  intro s c x hs hx hf
  obtain ⟨-, hall, -⟩ := hs
  have hsealed : x.Sealed := Ctx.Ok.isSealed (hall x (List.mem_of_getElem? hx)) hf
  have hl : x.liveShared = false := by simp [Ctx.liveShared, hf]
  refine ⟨fun i hi hkeep => ⟨x.sealedResponse i, fun u hu => exec_sealed hu hsealed hi hkeep, ?_, ?_⟩,
    fun i d u hd hdc h => exec_other_notLive hx hl hd hdc.symm h⟩
  · rintro j rfl hj
    exact if_pos hj
  · rintro j rfl hj
    exact if_pos hj

end Sys2Proof.Machine
end

section
/-! ## HMAC commands (spec/43_hmac_commands.md)

What a reset engine stands at after a number of bytes, what `KEYEND` and the outer pass make of it, and a key that an engine both
keeps in its pads and hashes; from them the statements of this family. -/

namespace Sys2Proof.Machine

/-! ### Construction, and key commands admitted and refused (R59, R100 to R102) -/

/-- Settles O29: `HINIT` is the construction of `asHmac`. -/
theorem hinitStartsKeyPhase : Obligations.HinitStartsKeyPhase := by
  refine fun s c t sh => ⟨fun hnone => congrArg _ (State.accept_none hnone _ _), fun x hx => ?_⟩
  obtain ⟨z, hz, hfields, hkept, hcontract⟩ := State.construct_spec (y := x.asHmac t sh) hx rfl rfl
  obtain ⟨hstream, -⟩ := State.ActsOnly.construct (y := x.asHmac t sh) hx rfl
  exact ⟨_, z, exec_hinit hx t sh, hz, State.construct_rsp _ _ _, hstream, hfields, hkept, hcontract⟩

theorem Ctx.takesKey_eq_false {x : Ctx} (h : x.m = false ∨ x.kph = false) : x.takesKey = false := by
  rcases h with hm | hk
  · simp [Ctx.takesKey, hm]
  · simp [Ctx.takesKey, hk]

section keyCommands
variable {s : State} {c : Nat} {x : Ctx} (hx : s.ctxs[c]? = some x)
include hx

theorem exec_keyb_refused (h : x.m = false ∨ x.kph = false) (b : Byte) : exec (.keyb c b) s = .next s.respondErr :=
  congrArg Host.Outcome.next (State.accept_refused hx (Ctx.takesKey_eq_false h) _)

theorem exec_keyend_refused (h : x.m = false ∨ x.kph = false) : exec (.keyend c) s = .next s.respondErr :=
  congrArg Host.Outcome.next (State.accept_refused hx (Ctx.takesKey_eq_false h) _)

theorem exec_keyend (hm : x.m = true) (hk : x.kph = true) :
    exec (.keyend c) s = .next (s.act c x View.keyEnd fun _ => 0) :=
  congrArg Host.Outcome.next (State.accept_ok hx (x.takesKey_iff.mpr ⟨hm, hk⟩) _)

end keyCommands

/-! ### One key byte (R101) -/

/-- A key byte goes to position `KLEN` of both pads, and nowhere from 64 on. -/
theorem Ctx.padByte_getElem (x : Ctx) (b : Byte) {i : Nat} (hi : i < 64) :
    (x.padByte b).ipad[i] = (if i = x.klen.toNat then b ^^^ 0x36#8 else x.ipad[i]) ∧
      (x.padByte b).opad[i] = (if i = x.klen.toNat then b ^^^ 0x5c#8 else x.opad[i]) := by
  constructor <;> simp only [Ctx.padByte_eq, Vector.getElem_setIfInBounds hi, eq_comm (a := x.klen.toNat)]

/-- What `KEYB` pushes its byte into: the context with the byte in its pads and in `KLEN` (R101). -/
def View.padded (v : View) (b : Byte) : View := { v with ctx := (v.ctx.padByte b).countKeyByte }

theorem View.keyByte_eq (v : View) (b : Byte) : v.keyByte b = (v.padded b).pushByte b := rfl

theorem View.padded_ctx (v : View) (b : Byte) :
    (v.padded b).ctx =
      { v.ctx with
        klen := v.ctx.countKeyByte.klen, ipad := (v.ctx.padByte b).ipad, opad := (v.ctx.padByte b).opad } := by
  simp only [View.padded, Ctx.padByte_eq, Ctx.countKeyByte_eq]

/-- Settles O38: the pads take the byte, and then the engine does as with `PUSHB`. -/
theorem keybTakesOneKeyByte : Obligations.KeybTakesOneKeyByte := by
  intro s c b
  refine ⟨fun hnone => congrArg _ (State.accept_none hnone _ _),
    fun x hx => ⟨fun hno => exec_keyb_refused hx hno b, fun hm hk hf => ?_⟩⟩
  obtain ⟨hc, -⟩ := List.getElem?_eq_some_iff.mp hx
  obtain ⟨h, hctx⟩ := View.keyByte_ctx (v := s.view x) hf b
  have hpadded := (s.view x).padded_ctx b
  refine ⟨_, _, exec_keyb hx hm hk b, s.act_self x _ _ hc, rfl, s.act_sameBut x _ _,
    State.act_otherBufferKept _ hx (·.keyByte_b b), ?_, ?_, ?_, ?_, fun hclean => ?_⟩
  · simp [View.stored, hctx, Ctx.countKeyByte_eq]
  · intro i hi
    simp only [View.stored, hctx]
    exact x.padByte_getElem b hi
  · rw [← x.countByte_count64, View.stored, hctx]
    rfl
  · intro hoff
    have hh := View.pushByte_h (v := (s.view x).padded b) (by rw [hpadded]; exact hoff) b
    rw [hpadded] at hh
    exact hh
  · have hpush := View.pushByte_clean (v := (s.view x).padded b) (by rw [hpadded]; exact hclean)
      (by rw [hpadded]; exact hf) b
    rw [hpadded] at hpush
    rw [State.act_draws, State.act_blkOf, View.stored, View.keyByte_eq, hpush]
    exact ⟨rfl, fun i _ => blockByte_blockPutByte _ b x.off.isLt i, fun hlast => if_pos hlast⟩

/-! ### A number of bytes into a reset engine (R81, R82) -/

theorem View.pushBytes_concat (v : View) (bs : List Byte) (b : Byte) :
    v.pushBytes (bs ++ [b]) = (v.pushBytes bs).pushByte b := by
  simp [View.pushBytes]

theorem View.pushBytes_append (v : View) (bs more : List Byte) :
    v.pushBytes (bs ++ more) = (v.pushBytes bs).pushBytes more := by
  simp [View.pushBytes]

/-- Fewer than 2^32 bytes after a reset the offset and the counters are their number, in a tainted context too; the rest of
the context is as the reset left it, but for the accumulators. -/
theorem View.engineReset_pushBytes_ctx (v : View) (bs : List Byte) (hlen : bs.length < 2 ^ 32) :
    ∃ h, (v.engineReset.pushBytes bs).ctx =
      { v.ctx with
        h := h, off := BitVec.ofNat 6 bs.length, cntLo := BitVec.ofNat 32 bs.length, cntHi := 0, fin := false } := by
  induction bs using List.reverseRecOn with
  | nil => exact ⟨_, v.engineReset_ctx⟩
  | append_singleton bs b ih =>
    rw [List.length_append, List.length_singleton] at hlen
    obtain ⟨_, e⟩ := ih (by omega)
    obtain ⟨h, e'⟩ := View.pushByte_ctx_open (v := v.engineReset.pushBytes bs) (by rw [e]) b
    have hmax : BitVec.ofNat 32 bs.length ≠ 0xFFFFFFFF#32 := fun hmax => by
      have := congrArg BitVec.toNat hmax
      rw [BitVec.toNat_ofNat, BitVec.toNat_ofNat] at this
      omega
    refine ⟨h, ?_⟩
    rw [View.pushBytes_concat, e', Ctx.countByte_eq, e, if_neg hmax, List.length_append, List.length_singleton,
      BitVec.ofNat_add, BitVec.ofNat_add]
    rfl

/-- A byte draws no free value in an untainted context (R142). -/
theorem View.pushByte_draws {v : View} (hclean : v.ctx.tainted = false) (b : Byte) : (v.pushByte b).draws = v.draws := by
  cases hf : v.ctx.fin with
  | true => rw [View.pushByte_sealed hf]
  | false => rw [View.pushByte_clean hclean hf]

theorem View.pushBytes_draws (bs : List Byte) :
    ∀ {v : View}, v.ctx.tainted = false → (v.pushBytes bs).draws = v.draws := by
  induction bs with
  | nil => intro v _; rfl
  | cons b bs ih =>
    intro v hclean
    obtain ⟨_, _, _, _, e⟩ := v.pushByte_ctx b
    exact (ih (v := v.pushByte b) (by rw [e]; exact hclean)).trans (View.pushByte_draws hclean b)

/-- The accumulators of one whole block. -/
theorem foldBlocks_oneBlock (t : Bool) {bs : List Byte} (hlen : bs.length = 64) :
    foldBlocks t bs = compressWords (ivOf t) (messageBlock bs 0) := by
  rw [foldBlocks_eq, hlen, Nat.div_self (by decide), foldFirstBlocks_succ, foldFirstBlocks_zero]

/-- The block an engine has just compressed stays in its buffer (R78). -/
theorem View.Absorbed.pushBytes_oneBlock {v : View} (hv : v.Absorbed []) {bs : List Byte} (hlen : bs.length = 64) :
    (v.pushBytes bs).blk = messageBlock bs 0 := by
  obtain ⟨front, b, rfl⟩ : ∃ front b, bs = front ++ [b] :=
    (List.eq_nil_or_concat' bs).resolve_left (by rintro rfl; cases hlen)
  have hfront : front.length = 63 := by simpa using hlen
  have habsorbed : (v.pushBytes front).Absorbed front := hv.pushBytes front
  rw [View.pushBytes_concat, View.pushByte_clean habsorbed.clean habsorbed.isOpen]
  refine block_eq_of_bytes fun i hi => ?_
  rw [blockByte_messageBlock _ _ hi]
  exact (habsorbed.byte_blockPutByte b (by omega)).trans (by rw [hfront])

/-! ### `KEYEND` (R102) -/

/-- The digest bytes of eight accumulator words (R93). -/
theorem Ctx.digestBytes_getD_eq (x : Ctx) (i : Nat) :
    x.digestBytes.getD i 0 = if i < x.dlen then hashByte x.h i else 0x00#8 := by
  split
  next hin => exact Ctx.digestBytes_getD hin
  next hout => exact List.getD_eq_default _ _ (by simpa [Ctx.digestBytes] using hout)

/-- A key of up to 64 bytes stays as it is. -/
theorem View.shortenKey_short {v : View} (hlen : v.ctx.klen.toNat ≤ 64) : v.shortenKey = v := by
  rw [View.shortenKey, if_neg (Nat.not_lt.mpr hlen)]

/-- A longer key is replaced by the digest of what the engine has taken. -/
theorem View.shortenKey_long {v : View} (hclean : v.ctx.tainted = false) (hf : v.ctx.fin = false)
    (hlen : 64 < v.ctx.klen.toNat) :
    v.shortenKey.ctx =
        { v.ctx with h := v.paddedHash, fin := true }.setPads ((List.range v.ctx.dlen).map (hashByte v.paddedHash)) ∧
      v.shortenKey.draws = v.draws := by
  rw [View.shortenKey, if_pos hlen, View.baseFinalize_clean hclean hf]
  exact ⟨rfl, rfl⟩

theorem View.shortenKey_draws {v : View} (hclean : v.ctx.tainted = false) (hf : v.ctx.fin = false) :
    v.shortenKey.draws = v.draws := by
  rcases Nat.lt_or_ge 64 v.ctx.klen.toNat with hlong | hshort
  · exact (View.shortenKey_long hclean hf hlong).2
  · rw [View.shortenKey_short hshort]

theorem View.shortenKey_tainted (v : View) : v.shortenKey.ctx.tainted = v.ctx.tainted := by
  obtain ⟨_, _, _, _, e⟩ := v.shortenKey_ctx
  rw [e]

/-- The pads of a key sequence, byte by byte (R102). -/
theorem Ctx.setPads_getElem (x : Ctx) (key : List Byte) {i : Nat} (hi : i < 64) :
    (x.setPads key).ipad[i] = key.getD i 0 ^^^ 0x36#8 ∧ (x.setPads key).opad[i] = key.getD i 0 ^^^ 0x5c#8 := by
  simp [Ctx.setPads]

/-- What the engine has taken when `KEYEND` clears key phase: the inner pad, from a reset (R102). -/
def View.innerFed (v : View) : View := v.shortenKey.engineReset.pushBytes v.shortenKey.ctx.ipad.toList

theorem View.keyEnd_eq (v : View) :
    v.keyEnd = { v.innerFed with ctx := { v.innerFed.ctx with kph := false, latch := true } } := by
  simp only [View.keyEnd, View.innerFed, View.engineReset_ctx]

/-- `KEYEND` leaves an open engine 64 bytes after its reset, with the pads of the normalised key (R102). -/
theorem View.keyEnd_ctx_eq (v : View) :
    ∃ h, v.keyEnd.ctx =
      { v.ctx with
        h := h, off := 0, cntLo := 64, cntHi := 0, fin := false, kph := false, latch := true
        ipad := v.shortenKey.ctx.ipad, opad := v.shortenKey.ctx.opad } := by
  obtain ⟨_, _, _, _, e⟩ := v.shortenKey_ctx
  obtain ⟨h, e'⟩ := v.shortenKey.engineReset_pushBytes_ctx v.shortenKey.ctx.ipad.toList (by simp)
  refine ⟨h, ?_⟩
  rw [View.keyEnd_eq, View.innerFed, e', Vector.length_toList, e]
  rfl

section keyEnd
variable {v : View} (hclean : v.ctx.tainted = false)
include hclean

theorem View.shortenKey_engineReset_absorbed : v.shortenKey.engineReset.Absorbed [] :=
  View.engineReset_absorbed (v.shortenKey_tainted.trans hclean)

/-- After `KEYEND` the engine has absorbed the inner pad. -/
theorem View.keyEnd_absorbed : v.keyEnd.Absorbed v.shortenKey.ctx.ipad.toList := by
  have h : v.innerFed.Absorbed v.shortenKey.ctx.ipad.toList :=
    (View.shortenKey_engineReset_absorbed hclean).pushBytes _
  rw [View.keyEnd_eq]
  exact ⟨h.clean, h.isOpen, h.hash, h.off, h.count, h.bytes⟩

theorem View.keyEnd_blk : v.keyEnd.blk = messageBlock v.shortenKey.ctx.ipad.toList 0 := by
  rw [View.keyEnd_eq]
  exact (View.shortenKey_engineReset_absorbed hclean).pushBytes_oneBlock Vector.length_toList

theorem View.keyEnd_draws (hf : v.ctx.fin = false) : v.keyEnd.draws = v.draws := by
  have hshort := v.shortenKey_tainted.trans hclean
  have hreset := View.engineReset_clean hshort
  rw [View.keyEnd_eq, View.innerFed]
  exact (View.pushBytes_draws _ (View.shortenKey_engineReset_absorbed hclean).clean).trans
    (by rw [hreset]; exact View.shortenKey_draws hclean hf)

end keyEnd

/-- Byte `i` of the block that the bytes of a pad fill. -/
theorem blockByte_messageBlock_pad (pad : Pad) {i : Nat} (hi : i < 64) :
    blockByte (messageBlock pad.toList 0) i = pad[i] := by
  rw [blockByte_messageBlock _ _ hi, Nat.mul_zero, Nat.zero_add, List.getD_eq_getElem _ _ (by simpa using hi),
    Vector.getElem_toList]

/-- `FINAL` of an untainted open plain engine in the place of context `c` leaves the accumulators of its padded block (R84). -/
theorem exec_final_plain {s : State} {c : Nat} {y : Ctx} (hc : c < s.ctxs.length) (hm : y.m = false) (hk : y.kph = false)
    (hclean : y.tainted = false) (hf : y.fin = false) :
    ∃ w z, exec (.final c) { s with ctxs := s.ctxs.set c y } = .next w ∧ w.ctxs[c]? = some z ∧
      z.h = (s.view y).paddedHash := by
  have hy : ({ s with ctxs := s.ctxs.set c y } : State).ctxs[c]? = some y := List.getElem?_set_self hc
  refine ⟨_, _, exec_final hy hk, State.act_self _ _ _ _ (by rwa [List.length_set]), ?_⟩
  rw [View.stored, View.finalize_h hclean hf, State.view_ctx, if_neg (by simp [hm])]
  rfl

/-- Settles O39: the key is normalised or stays, and the engine has taken the inner pad since a reset. -/
theorem keyendCompletesPads : Obligations.KeyendCompletesPads := by
  intro s c
  refine ⟨fun hnone => congrArg _ (State.accept_none hnone _ _),
    fun x hx => ⟨exec_keyend_refused hx, fun hm hk hf => ?_⟩⟩
  obtain ⟨hc, -⟩ := List.getElem?_eq_some_iff.mp hx
  obtain ⟨h, hctx⟩ := (s.view x).keyEnd_ctx_eq
  refine ⟨_, _, exec_keyend hx hm hk, s.act_self x _ _ hc, rfl, s.act_sameBut x _ _,
    State.act_otherBufferKept _ hx View.keyEnd_b, ?_, fun hshort => ?_, fun hclean => ?_⟩
  · simp [View.stored, hctx]
  · simp only [View.stored, hctx, View.shortenKey_short (v := s.view x) hshort]
    exact ⟨rfl, rfl⟩
  · have hblk := View.keyEnd_blk (v := s.view x) hclean
    have hhash := (View.keyEnd_absorbed (v := s.view x) hclean).hash
    have hipad : (s.view x).keyEnd.stored.ipad = (s.view x).shortenKey.ctx.ipad := by rw [View.stored, hctx]
    have hopad : (s.view x).keyEnd.stored.opad = (s.view x).shortenKey.ctx.opad := by rw [View.stored, hctx]
    have ht : (s.view x).keyEnd.ctx.t = x.t := by rw [hctx]; rfl
    rw [State.act_draws, State.act_blkOf, hipad, hopad, hblk]
    refine ⟨View.keyEnd_draws (v := s.view x) hclean hf, fun hlong => ?_, fun i hi => blockByte_messageBlock_pad _ hi, ?_⟩
    · obtain ⟨w, z, hfinal, hz, hzh⟩ := exec_final_plain (y := { x with m := false, kph := false }) hc rfl rfl hclean hf
      refine ⟨w, z, hfinal, hz, fun i hi => ?_⟩
      obtain ⟨hkey, -⟩ := View.shortenKey_long (v := s.view x) hclean hf hlong
      have hdigest := Ctx.digestBytes_getD_eq { x with h := (s.view x).paddedHash } i
      rw [hkey, hzh]
      obtain ⟨hip, hop⟩ := Ctx.setPads_getElem { x with h := (s.view x).paddedHash, fin := true }
        ((List.range x.dlen).map (hashByte (s.view x).paddedHash)) hi
      exact ⟨hip.trans (congrArg (· ^^^ _) hdigest), hop.trans (congrArg (· ^^^ _) hdigest)⟩
    · rw [foldBlocks_oneBlock _ Vector.length_toList, ht] at hhash
      exact hhash

/-! ### The outer pass (R103) -/

/-- What the outer pass finalizes: the engine with the outer pad and the inner digest taken since a reset. -/
def View.outerFed (v : View) : View := v.dropLatch.engineReset.pushBytes (v.ctx.opad.toList ++ v.ctx.digestBytes)

theorem View.hmacOuterPass_eq (v : View) : v.hmacOuterPass = v.outerFed.baseFinalize := by
  rw [View.outerFed, View.pushBytes_append]
  rfl

theorem Ctx.length_opad_digestBytes (x : Ctx) : (x.opad.toList ++ x.digestBytes).length = 64 + x.dlen := by
  simp [Ctx.digestBytes]

/-- 64 bytes and the digest length fit a 32-bit counter (R6). -/
theorem Ctx.dlen_le (x : Ctx) : x.dlen ≤ 32 := by
  cases ht : x.t <;> simp [Ctx.dlen, dlenOf, ht]

/-- The outer pad and the digest fill one block and up to the digest length of the next (R103). -/
theorem ofNat_outerLength :
    ∀ t : Bool, BitVec.ofNat 6 (64 + dlenOf t) = (if t then 28 else 32) ∧
      BitVec.ofNat 32 (64 + dlenOf t) = if t then 92 else 96 := by decide

theorem View.outerFed_ctx (v : View) :
    ∃ h, v.outerFed.ctx =
      { v.ctx with
        h := h, off := if v.ctx.t then 28 else 32, cntLo := if v.ctx.t then 92 else 96, cntHi := 0
        fin := false, latch := false } := by
  have hlen := v.ctx.length_opad_digestBytes
  have hdlen := v.ctx.dlen_le
  obtain ⟨hoff, hcnt⟩ := ofNat_outerLength v.ctx.t
  obtain ⟨h, e⟩ := v.dropLatch.engineReset_pushBytes_ctx (v.ctx.opad.toList ++ v.ctx.digestBytes) (by omega)
  refine ⟨h, ?_⟩
  rw [View.outerFed, e, hlen, Ctx.dlen, hoff, hcnt]
  rfl

/-- The bit length of the outer pad and the digest: 736 or 768 (R103). -/
theorem View.outerFed_bitLen (v : View) :
    v.outerFed.ctx.bitLenHi = 0 ∧ v.outerFed.ctx.bitLenLo = if v.ctx.t then 0x2E0 else 0x300 := by
  obtain ⟨h, e⟩ := v.outerFed_ctx
  simp only [e, Ctx.bitLenHi, Ctx.bitLenLo]
  cases v.ctx.t <;> decide

theorem View.outerFed_absorbed {v : View} (hclean : v.ctx.tainted = false) :
    v.outerFed.Absorbed (v.ctx.opad.toList ++ v.ctx.digestBytes) :=
  (View.engineReset_absorbed (v := v.dropLatch) hclean).pushBytes _

theorem View.outerFed_draws {v : View} (hclean : v.ctx.tainted = false) : v.outerFed.draws = v.draws := by
  have hreset := View.engineReset_clean (v := v.dropLatch) hclean
  exact (View.pushBytes_draws _ (View.engineReset_absorbed (v := v.dropLatch) hclean).clean).trans (by rw [hreset]; rfl)

/-- An engine that owes an outer pass runs it after `BaseFinalize` (R86). -/
theorem View.finalize_eq_outerPass {v : View} (howes : (v.ctx.m && v.ctx.latch) = true) :
    v.finalize = v.baseFinalize.outerFed.baseFinalize := by
  obtain ⟨h, e⟩ := v.baseFinalize_ctx
  simp [View.finalize, e, howes, View.hmacOuterPass_eq]

/-- The last block of the outer pass: the inner digest, the marker and zeros up to the length field (R103). -/
theorem View.blockByte_outerFed_lastBlock {v : View} (hclean : v.ctx.tainted = false) {i : Nat} (hi : i < 56) :
    blockByte v.outerFed.lastBlock i =
      if i < v.ctx.dlen then hashByte v.ctx.h i else if i = v.ctx.dlen then 0x80#8 else 0x00#8 := by
  have habsorbed := View.outerFed_absorbed hclean
  have hlen := v.ctx.length_opad_digestBytes
  have hdlen := v.ctx.dlen_le
  have hdiv : 64 * ((64 + v.ctx.dlen) / 64) = 64 := by omega
  rw [blockByte_lastBlock _ hi, if_pos (by rw [habsorbed.off, hlen]; omega), habsorbed.byte_markedBlock (by omega),
    markedMessage_getD, hlen, hdiv]
  simp only [Nat.add_lt_add_iff_left, Nat.add_right_inj]
  refine ite_congr rfl (fun hin => ?_) fun _ => rfl
  rw [List.getD_append_right _ _ _ _ (by simp), Vector.length_toList, Nat.add_sub_cancel_left, Ctx.digestBytes_getD hin]

/-- Settles O40: `FINAL` is `BaseFinalize` of the inner hash, then of the engine fed for the outer one. -/
theorem finalRunsOuterPassOnce : Obligations.FinalRunsOuterPassOnce := by
  intro s c x hx hk hf hm hl
  obtain ⟨hc, -⟩ := List.getElem?_eq_some_iff.mp hx
  have hfinal : (s.view x).finalize = (s.view x).baseFinalize.outerFed.baseFinalize :=
    View.finalize_eq_outerPass (by simp [hm, hl])
  obtain ⟨h, hinner⟩ := (s.view x).baseFinalize_ctx
  obtain ⟨h', houter⟩ := (s.view x).baseFinalize.outerFed_ctx
  obtain ⟨h'', hctx⟩ := (s.view x).baseFinalize.outerFed.baseFinalize_ctx
  rw [houter, hinner] at hctx
  refine ⟨_, _, exec_final hx hk, s.act_self x _ _ hc, rfl, s.act_sameBut x _ _,
    State.act_otherBufferKept _ hx View.finalize_b, ?_, fun hclean => ?_⟩
  · rw [View.stored, hfinal, hctx]
    rfl
  · have hclean' : (s.view x).baseFinalize.ctx.tainted = false := by rw [hinner]; exact hclean
    have habsorbed := View.outerFed_absorbed hclean'
    have hbase := View.baseFinalize_clean (v := s.view x) hclean hf
    have hlast := View.baseFinalize_clean habsorbed.clean habsorbed.isOpen
    have hh := View.finalize_h (v := s.view x) hclean hf
    rw [if_pos (by simp [hm, hl])] at hh
    obtain ⟨w, z, hplain, hz, hzh⟩ := exec_final_plain (y := { x with m := false }) hc rfl hk hclean hf
    obtain ⟨hhi, hlo⟩ := (s.view x).baseFinalize.outerFed_bitLen
    have hdraws := View.outerFed_draws hclean'
    have hbyte (i : Nat) (hi : i < 56) := View.blockByte_outerFed_lastBlock hclean' hi
    rw [State.act_draws, State.act_blkOf]
    refine ⟨?_, w, z, hplain, hz, ?_, fun i hi => ?_, ?_, ?_⟩
    · rw [hfinal, hlast, hdraws, hbase]
      rfl
    · rw [hzh]
      exact hh
    · rw [hfinal, hlast, hbyte i hi, hzh, hbase]
      rfl
    · rw [hfinal, hlast]
      exact (View.lastBlock_hi _).trans hhi
    · rw [hfinal, hlast]
      exact (View.lastBlock_lo _).trans (by rw [hlo, hinner]; rfl)

/-! ### A key that an engine keeps in its pads and hashes (R101, R104) -/

/-- In key phase the engine of view `v` has taken the bytes of `key`, in its pads and in its hash (R101). -/
structure View.KeyFed (v : View) (key : List Byte) : Prop where
  holds : v.ctx.HoldsKey key
  absorbed : v.Absorbed key

/-- `KEYB` feeds its byte to both. -/
theorem View.KeyFed.keyByte {v : View} {key : List Byte} (hv : v.KeyFed key) (b : Byte) :
    (v.keyByte b).KeyFed (key ++ [b]) := by
  have hpadded : (v.padded b).Absorbed key := by
    obtain ⟨hclean, hopen, hhash, hoff, hcount, hbytes⟩ := hv.absorbed
    have e := v.padded_ctx b
    exact ⟨by rwa [e], by rwa [e], by rwa [e], by rwa [e], by rw [e]; exact hcount, hbytes⟩
  exact ⟨View.keyByte_holdsKey hv.holds b, hpadded.pushByte b⟩

/-- `HINIT` under the contract leaves an engine in key phase that has taken nothing (R100). -/
theorem drive_hinit {s : State} {c : Nat} (t : Bool) {sh : Bool} (hc : c < s.ctxs.length)
    (hcontract : sh = false ∨ s.NoOtherLiveShared c) :
    ∃ u y, drive [.hinit c t sh] s = some (u, [okResponse 0]) ∧ u.ctxs[c]? = some y ∧ y.t = t ∧ (u.view y).KeyFed [] := by
  have hx := List.getElem?_eq_getElem hc
  have hreset := (s.view (s.ctxs[c].asHmac t sh)).engineReset_ctx
  have hempty := View.engineReset_absorbed (v := s.view (s.ctxs[c].asHmac t sh)) rfl
  have hhinit := (exec_hinit hx t sh).trans (congrArg _ (State.construct_of_contract hc hcontract))
  refine ⟨_, _, drive_cons hhinit rfl rfl, s.act_self _ _ _ hc, ?_, ?_, hempty.act c _⟩
  · rw [View.stored, hreset]
    rfl
  · rw [View.stored, hreset]
    exact Ctx.asHmac_holdsKey s.ctxs[c] t sh false _

/-- A key sent byte by byte is answered with (OK, 0) throughout, and taken. -/
theorem drive_keyBytes_keyFed {c : Nat} (more : List Byte) :
    ∀ {s : State} {x : Ctx} {key : List Byte}, s.ctxs[c]? = some x → (s.view x).KeyFed key →
      ∃ u y, drive (more.map (.keyb c)) s = some (u, List.replicate more.length (okResponse 0)) ∧ u.ctxs[c]? = some y ∧
        y.t = x.t ∧ (u.view y).KeyFed (key ++ more) := by
  induction more with
  | nil => intro s x key hx hkey; exact ⟨s, x, rfl, hx, rfl, by rwa [List.append_nil]⟩
  | cons b more ih =>
    intro s x key hx hkey
    obtain ⟨hc, -⟩ := List.getElem?_eq_some_iff.mp hx
    obtain ⟨hm, hk, hf, -⟩ := hkey.holds
    obtain ⟨_, e⟩ := View.keyByte_ctx (v := s.view x) hf b
    have hfed := hkey.keyByte b
    have hself := s.act_self x (fun v => v.keyByte b) (fun _ => 0) hc
    obtain ⟨u, y, hdrive, hy, hyt, hfed'⟩ := ih hself ⟨hfed.holds, hfed.absorbed.act c fun _ => 0⟩
    refine ⟨u, y, drive_cons (exec_keyb hx hm hk b) rfl hdrive, hy, hyt.trans ?_, by simpa using hfed'⟩
    rw [View.stored, e]
    rfl

/-- The pads hold the normalised key, each byte exclusive-or its constant (R102, R104). -/
theorem View.KeyFed.shortenKey_pads {v : View} {key : List Byte} (hv : v.KeyFed key) (i : Nat) (hi : i < 64) :
    v.shortenKey.ctx.ipad[i] = (hmacKey v.ctx.t key).getD i 0 ^^^ 0x36#8 ∧
      v.shortenKey.ctx.opad[i] = (hmacKey v.ctx.t key).getD i 0 ^^^ 0x5c#8 := by
  obtain ⟨-, -, -, -, hklen, hpads⟩ := hv.holds
  rcases Nat.lt_or_ge 64 key.length with hlong | hshort
  · obtain ⟨hkey, -⟩ := View.shortenKey_long hv.absorbed.clean hv.absorbed.isOpen (by omega)
    rw [hkey, hv.absorbed.paddedHash, hmacKey, if_pos hlong]
    exact Ctx.setPads_getElem _ _ hi
  · rw [View.shortenKey_short (by omega), hmacKey, if_neg (Nat.not_lt.mpr hshort)]
    exact hpads i hi

/-- A pad is that of the closed form if each of its bytes is (R104). -/
theorem toList_eq_hmacPad {pad : Pad} {t : Bool} {key : List Byte} {const : Byte}
    (h : ∀ (i : Nat) (hi : i < 64), pad[i] = (hmacKey t key).getD i 0 ^^^ const) : pad.toList = hmacPad t key const := by
  refine List.ext_getElem (by simp [hmacPad]) fun i hi _ => ?_
  rw [Vector.getElem_toList, h i (by simpa using hi)]
  simp [hmacPad]

/-- Outside key phase, an engine that owes its outer pass, with the outer pad of `key`, and has absorbed the inner pad and then
`msg` (R102). -/
structure View.InnerFed (v : View) (t : Bool) (key msg : List Byte) : Prop where
  truncated : v.ctx.t = t
  mode : v.ctx.m = true
  kph : v.ctx.kph = false
  latch : v.ctx.latch = true
  opad : v.ctx.opad.toList = hmacPad t key 0x5c#8
  absorbed : v.Absorbed (hmacPad t key 0x36#8 ++ msg)

/-- `KEYEND` completes the pads and starts the inner hash (R102). -/
theorem View.KeyFed.keyEnd {v : View} {key : List Byte} (hv : v.KeyFed key) : v.keyEnd.InnerFed v.ctx.t key [] := by
  have hip := toList_eq_hmacPad fun i hi => (hv.shortenKey_pads i hi).1
  have hop := toList_eq_hmacPad fun i hi => (hv.shortenKey_pads i hi).2
  obtain ⟨hm, -⟩ := hv.holds
  obtain ⟨h, e⟩ := v.keyEnd_ctx_eq
  have habsorbed := View.keyEnd_absorbed hv.absorbed.clean
  rw [hip] at habsorbed
  exact ⟨by rw [e], by rwa [e], by rw [e], by rw [e], by rwa [e], by rwa [List.append_nil]⟩

/-- Finalizing gives the accumulators of the outer hash in the closed form (R104). -/
theorem View.InnerFed.finalize_h {v : View} {t : Bool} {key msg : List Byte} (hv : v.InnerFed t key msg) :
    v.finalize.ctx.h =
      foldBlocks t (padMessage (hmacPad t key 0x5c#8 ++ shaDigest t (hmacPad t key 0x36#8 ++ msg))) := by
  obtain ⟨ht, hm, -, hl, hop, habsorbed⟩ := hv
  rw [View.finalize_h habsorbed.clean habsorbed.isOpen, if_pos (by simp [hm, hl]), habsorbed.paddedHash, hop, ht]
  rfl

/-- The construction of an HMAC engine leaves one that has absorbed the inner pad of its key (R117). -/
theorem drive_hmacEngine {s : State} {c : Nat} (t : Bool) {sh : Bool} (key : List Byte) (hc : c < s.ctxs.length)
    (hcontract : sh = false ∨ s.NoOtherLiveShared c) :
    ∃ u y, drive (hmacEngine c key t sh) s = some (u, List.replicate (2 + key.length) (okResponse 0)) ∧
      u.ctxs[c]? = some y ∧ (u.view y).InnerFed t key [] := by
  obtain ⟨v, x, hhinit, hx, hxt, hempty⟩ := drive_hinit t hc hcontract
  obtain ⟨w, y, hkeys, hy, hyt, hfed⟩ := drive_keyBytes_keyFed key hx hempty
  obtain ⟨hcw, -⟩ := List.getElem?_eq_some_iff.mp hy
  obtain ⟨hm, hk, -⟩ := hfed.holds
  have hinner := hfed.keyEnd
  rw [State.view_ctx, hyt, hxt, List.nil_append] at hinner
  have hkeyend : drive [.keyend c] w = some (_, [okResponse 0]) := drive_cons (exec_keyend hy hm hk) rfl rfl
  refine ⟨_, _, ?_, w.act_self y View.keyEnd (fun _ => 0) hcw, ?_⟩
  · have hdrive := drive_append hhinit (drive_append hkeys hkeyend)
    have hrs : [okResponse 0] ++ (List.replicate key.length (okResponse 0) ++ [okResponse 0]) =
        List.replicate (2 + key.length) (okResponse 0) := by
      rw [← List.replicate_succ', List.singleton_append, ← List.replicate_succ]
      congr 1
      omega
    rwa [hrs] at hdrive
  · exact ⟨hinner.truncated, hinner.mode, hinner.kph, hinner.latch, hinner.opad, hinner.absorbed.act c _⟩

/-- A message sent byte by byte is absorbed after the inner pad (R106). -/
theorem drive_update_innerFed {c : Nat} {s : State} {x : Ctx} {t : Bool} {key : List Byte} (msg : List Byte)
    (hx : s.ctxs[c]? = some x) (hinner : (s.view x).InnerFed t key []) :
    ∃ u y, drive (update c msg) s = some (u, List.replicate msg.length (okResponse 0)) ∧ u.ctxs[c]? = some y ∧
      (u.view y).InnerFed t key msg := by
  obtain ⟨ht, hm, hk, hl, hop, habsorbed⟩ := hinner
  obtain ⟨u, y, hupdate, hy, hframe, habsorbed'⟩ := drive_update msg hx hk habsorbed
  obtain ⟨h, b, off, lo, hi, rfl⟩ :
      ∃ h b off lo hi, y = { x with h := h, b := b, off := off, cntLo := lo, cntHi := hi } := ⟨_, _, _, _, _, hframe⟩
  rw [List.append_nil] at habsorbed'
  exact ⟨u, _, hupdate, hy, ht, hm, hk, hl, hop, habsorbed'⟩

/-- Settles O44: the construction absorbs the inner pad, each `PUSHB` its byte, and the reads give the outer
hash's digest. -/
theorem hmacCommandsComputeClosedForm : Obligations.HmacCommandsComputeClosedForm := by
  intro s c t sh key msg hc hcontract
  obtain ⟨v, x, hengine, hx, hinner⟩ := drive_hmacEngine t key hc hcontract
  obtain ⟨u, y, hupdate, hy, hfed⟩ := drive_update_innerFed msg hx hinner
  have hyt : y.t = t := hfed.truncated
  obtain ⟨w, hreads⟩ := drive_readBytes (List.range (dlenOf t)) hy hfed.kph (by simp [Ctx.dlen, hyt])
  rw [hfed.finalize_h] at hreads
  have hbefore : (List.replicate (2 + key.length) (okResponse 0) ++ List.replicate msg.length (okResponse 0)).length =
      2 + key.length + msg.length := by simp
  refine ⟨w, _, drive_append (drive_append hengine hupdate) hreads, ?_, ?_, ?_⟩
  · rw [List.length_append, hbefore, List.length_map, List.length_range]
  · simp only [List.mem_append, List.mem_replicate, List.mem_map]
    rintro r ((⟨-, rfl⟩ | ⟨-, rfl⟩) | ⟨i, -, rfl⟩)
    · rfl
    · rfl
    · rfl
  · rw [List.drop_left' hbefore, bytesOf_hashBytes]
    rfl

end Sys2Proof.Machine
end

section
/-! ## The host's conversions (spec/44_host_macros.md)

What each byte form of a code unit is as a number, which form the text conversion takes, and the characters of a byte; from them
the statements of this family. -/

namespace Sys2Proof.Machine

/-! ### Emitted bytes (R112) -/

/-- A byte put together by `|` is a sum when the mark in front leaves the low `n` bits free and the rest fits there. -/
theorem toNat_emitByte_mark {m n : Nat} {x : Word} (hx : x.toNat < 2 ^ n) (hfree : 2 ^ n ∣ m) (hfit : m + 2 ^ n ≤ 2 ^ 8) :
    (emitByte (BitVec.ofNat 32 m ||| x)).toNat = m + x.toNat := by
  obtain ⟨k, rfl⟩ := hfree
  have hm : 2 ^ n * k % 2 ^ 32 = 2 ^ n * k := Nat.mod_eq_of_lt (by omega)
  rw [emitByte, BitVec.truncate, BitVec.toNat_setWidth, BitVec.toNat_or, BitVec.toNat_ofNat, hm,
    ← Nat.two_pow_add_eq_or_of_lt hx, Nat.mod_eq_of_lt (by omega)]

/-- Masking with `2^n - 1` keeps the remainder modulo `2^n`. -/
theorem toNat_and_lowMask (x : Word) {n : Nat} (hn : n ≤ 32) : (x &&& BitVec.ofNat 32 (2 ^ n - 1)).toNat = x.toNat % 2 ^ n := by
  have hmask : (2 ^ n - 1) % 2 ^ 32 = 2 ^ n - 1 :=
    Nat.mod_eq_of_lt ((Nat.sub_lt (Nat.two_pow_pos n) one_pos).trans_le (Nat.pow_le_pow_right two_pos hn))
  rw [BitVec.toNat_and, BitVec.toNat_ofNat, hmask, Nat.and_two_pow_sub_one_eq_mod]

/-- A continuation byte carries the low six bits. -/
theorem toNat_emitByte_continuation (x : Word) : (emitByte (0x80#32 ||| (x &&& 0x3F#32))).toNat = 0x80 + x.toNat % 64 := by
  have hlow : (x &&& 0x3F#32).toNat = x.toNat % 64 := toNat_and_lowMask x (n := 6) (by decide)
  rw [toNat_emitByte_mark (n := 6) (by omega) (by decide) (by decide), hlow]

/-- A leading byte carries what is left above the `k` bits of the continuation bytes. -/
theorem toNat_emitByte_lead {m n k : Nat} {x : Word} (hx : x.toNat < 2 ^ k * 2 ^ n) (hfree : 2 ^ n ∣ m)
    (hfit : m + 2 ^ n ≤ 2 ^ 8) : (emitByte (BitVec.ofNat 32 m ||| (x >>> k))).toNat = m + x.toNat / 2 ^ k := by
  have hshift : (x >>> k).toNat = x.toNat / 2 ^ k := by rw [BitVec.toNat_ushiftRight, Nat.shiftRight_eq_div_pow]
  rw [toNat_emitByte_mark (hshift ▸ Nat.div_lt_of_lt_mul hx) hfree hfit, hshift]

theorem toNat_unitWord (u : CodeUnit) : (u.zeroExtend 32).toNat = u.toNat :=
  BitVec.toNat_setWidth_of_le (by decide)

/-- The one-, two- and three-byte forms as numbers. -/
theorem map_toNat_unitBytes (u : CodeUnit) :
    (unitBytes u).map BitVec.toNat =
      if u.toNat < 0x80 then [u.toNat]
      else if u.toNat < 0x800 then [0xC0 + u.toNat / 64, 0x80 + u.toNat % 64]
      else [0xE0 + u.toNat / 4096, 0x80 + u.toNat / 64 % 64, 0x80 + u.toNat % 64] := by
  have hu := u.isLt
  have hx := toNat_unitWord u
  simp only [unitBytes, hx]
  generalize u.zeroExtend 32 = x at hx ⊢
  split_ifs with hone htwo
  · have hbyte : (emitByte x).toNat = u.toNat := by
      rw [emitByte, BitVec.truncate, BitVec.toNat_setWidth, hx, Nat.mod_eq_of_lt (by omega)]
    rw [List.map_cons, hbyte, List.map_nil]
  · have hlead := toNat_emitByte_lead (m := 0xC0) (n := 5) (k := 6) (x := x) (by omega) (by decide) (by decide)
    simp only [List.map_cons, List.map_nil, hlead, toNat_emitByte_continuation, hx, Nat.reducePow]
  · have hlead := toNat_emitByte_lead (m := 0xE0) (n := 4) (k := 12) (x := x) (by omega) (by decide) (by decide)
    simp only [List.map_cons, List.map_nil, hlead, toNat_emitByte_continuation, BitVec.toNat_ushiftRight,
      Nat.shiftRight_eq_div_pow, hx, Nat.reducePow]

/-- The number a pair stands for: the low ten bits of each unit, side by side, above 0x10000. -/
theorem toNat_pairWord (x z : Word) :
    (0x10000#32 + (((x &&& 0x3FF#32) <<< 10) ||| (z &&& 0x3FF#32))).toNat =
      0x10000 + (x.toNat % 1024 * 1024 + z.toNat % 1024) := by
  have hlow (w : Word) : (w &&& 0x3FF#32).toNat = w.toNat % 2 ^ 10 := toNat_and_lowMask w (n := 10) (by decide)
  have hz : z.toNat % 2 ^ 10 < 2 ^ 10 := Nat.mod_lt _ (by decide)
  have hhigh : ((x &&& 0x3FF#32) <<< 10).toNat = 2 ^ 10 * (x.toNat % 2 ^ 10) := by
    rw [BitVec.toNat_shiftLeft, hlow, Nat.shiftLeft_eq]
    omega
  rw [BitVec.toNat_add, BitVec.toNat_or, hhigh, hlow, ← Nat.two_pow_add_eq_or_of_lt hz, BitVec.toNat_ofNat]
  omega

/-- The four-byte form as numbers. -/
theorem map_toNat_pairBytes (u y : CodeUnit) {p : Nat} (hp : p = 0x10000 + (u.toNat % 1024 * 1024 + y.toNat % 1024)) :
    (pairBytes u y).map BitVec.toNat = [0xF0 + p / 262144, 0x80 + p / 4096 % 64, 0x80 + p / 64 % 64, 0x80 + p % 64] := by
  unfold pairBytes
  extract_lets x z w
  have hw : w.toNat = p := by rw [hp, toNat_pairWord, toNat_unitWord, toNat_unitWord]
  have hlead := toNat_emitByte_lead (m := 0xF0) (n := 3) (k := 18) (x := w) (by omega) (by decide) (by decide)
  simp only [List.map_cons, List.map_nil, hlead, toNat_emitByte_continuation, BitVec.toNat_ushiftRight,
    Nat.shiftRight_eq_div_pow, hw, Nat.reducePow]

/-! ### Which form a unit takes (R112) -/

theorem isHalf_iff {u : CodeUnit} : isHalf u = true ↔ 0xD800 ≤ u.toNat ∧ u.toNat < 0xE000 := by
  rw [isHalf, Bool.and_eq_true, decide_eq_true_iff, decide_eq_true_iff]

/-- A unit that is no half gives its own bytes, at the end of the text too. -/
theorem textToBytes_cons_of_not_half {u : CodeUnit} (hu : ¬ isHalf u = true) (rest : List CodeUnit) :
    textToBytes (u :: rest) = unitBytes u ++ textToBytes rest := by
  cases rest with
  | nil => simp only [textToBytes, if_neg hu, List.append_nil]
  | cons y rest => rw [textToBytes, if_neg hu]

/-- A half takes the unit after it. -/
theorem textToBytes_cons_cons_of_half {u : CodeUnit} (hu : isHalf u = true) (y : CodeUnit) (rest : List CodeUnit) :
    textToBytes (u :: y :: rest) = pairBytes u y ++ textToBytes rest := by
  rw [textToBytes, if_pos hu]

/-- A half at the end of the text is paired with 0x0000. -/
theorem textToBytes_half_at_end {u : CodeUnit} (hu : isHalf u = true) : textToBytes [u] = textToBytes [u, 0] := by
  simp only [textToBytes, if_pos hu, List.append_nil]

/-- Settles O50: the form is chosen by whether the unit is a half, and each form is known as numbers. -/
theorem textToBytesByClasses : Obligations.TextToBytesByClasses := by
  refine ⟨rfl, fun u rest hu => ?_, fun u y rest hlo hhi => ⟨_, rfl, ?_⟩, fun u hlo hhi => ?_⟩
  · have hunit : ¬ isHalf u = true := by rw [isHalf_iff]; omega
    rw [textToBytes_cons_of_not_half hunit, List.map_append, map_toNat_unitBytes]
  · rw [textToBytes_cons_cons_of_half (isHalf_iff.mpr ⟨hlo, hhi⟩), List.map_append, map_toNat_pairBytes u y rfl]
  · exact textToBytes_half_at_end (isHalf_iff.mpr ⟨hlo, hhi⟩)

/-! ### Hexadecimal (R115) -/

/-- The character of a nibble stands at its place among R115's sixteen. -/
theorem getElem?_hexCharacters {n : Nat} (hn : n < 16) : "0123456789abcdef".toList[n]? = some (hexDigit n) := by
  have hdigits : "0123456789abcdef".toList = hexDigits := by decide
  have hlt : n < hexDigits.length := hn
  rw [hdigits, hexDigit, List.getD_eq_getElem _ _ hlt, List.getElem?_eq_getElem hlt]

theorem hexChars_cons (b : Byte) (bs : List Byte) :
    hexChars (b :: bs) = hexDigit (b.toNat / 16) :: hexDigit (b.toNat % 16) :: hexChars bs := rfl

theorem length_hexChars (bs : List Byte) : (hexChars bs).length = 2 * bs.length := by
  induction bs with
  | nil => rfl
  | cons b bs ih =>
    rw [hexChars_cons, List.length_cons, List.length_cons, List.length_cons, ih]
    omega

/-- The two characters of byte `k` stand at `2k` and `2k + 1`, the high nibble's first. -/
theorem getElem?_hexChars {bs : List Byte} {k : Nat} {b : Byte} (hb : bs[k]? = some b) :
    (hexChars bs)[2 * k]? = some (hexDigit (b.toNat / 16)) ∧ (hexChars bs)[2 * k + 1]? = some (hexDigit (b.toNat % 16)) := by
  induction bs generalizing k with
  | nil => cases hb
  | cons a bs ih =>
    rw [hexChars_cons]
    cases k with
    | zero =>
      cases hb
      exact ⟨rfl, rfl⟩
    | succ k => exact ih hb

/-- Settles O51: a byte's two characters are found by induction on the bytes before it. -/
theorem hexRendersEachByteTwice : Obligations.HexRendersEachByteTwice := by
  refine fun bs => ⟨length_hexChars bs, fun k b hb => ?_⟩
  have hbyte := b.isLt
  rw [getElem?_hexCharacters (n := b.toNat / 16) (by omega), getElem?_hexCharacters (n := b.toNat % 16) (by omega)]
  exact getElem?_hexChars hb

end Sys2Proof.Machine
end

section
/-! ## Exceptions (spec/60_exceptions.md)

Which words the static checks refuse, which commands a context refuses, and that every command answers OK when it is admitted;
from them the statements of this family. -/

namespace Sys2Proof.Machine

/-! ### No step stops (R122, R134) -/

/-- Settles O1: a command is an answer or an admission, and a step one of four things. -/
theorem noCommandTrapsOrHalts : Obligations.NoCommandTrapsOrHalts := by
  have hexec : ∀ (i : Instr) (s : State), ∃ u, exec i s = .next u := fun i s => by
    rcases exec_shape i s with e | ⟨_, _, _, -, e⟩ <;> exact ⟨_, e⟩
  refine ⟨hexec, fun s => ?_⟩
  rcases step_cases s with ⟨-, e⟩ | ⟨_, -, e⟩ | ⟨_, _, _, -, -, e⟩ | ⟨_, _, i, -, -, e⟩
  · exact ⟨_, e⟩
  · exact ⟨_, e⟩
  · exact ⟨_, e⟩
  · rw [e]
    exact hexec i s.taken

/-- Settles O3: of the four things a step can be, only the idle one finds nothing at the inputs. -/
theorem idleStepKeepsEverything : Obligations.IdleStepKeepsEverything := by
  intro s hs
  rcases step_cases s with ⟨-, e⟩ | ⟨_, hrst, -⟩ | ⟨_, _, _, hcmd, -⟩ | ⟨_, _, _, hcmd, -⟩
  · exact e
  · cases hs.symm.trans hrst
  · cases hs.symm.trans hcmd
  · cases hs.symm.trans hcmd

/-- A word that spells a command is taken, and the step is the command's meaning (R59). -/
theorem step_command {s : State} {w : Cmd} {rest : List PortEvent} {i : Instr} (hs : s.stream = .cmd w :: rest)
    (hd : decode w = .ok i) : step s = exec i { s with stream := rest } := by
  rcases step_cases s with ⟨hidle, -⟩ | ⟨_, hrst, -⟩ | ⟨_, _, _, hcmd, herr, -⟩ | ⟨_, _, _, hcmd, hok, hstep⟩
  · cases hs.symm.trans hidle
  · cases hs.symm.trans hrst
  · cases hs.symm.trans hcmd
    cases hd.symm.trans herr
  · cases hs.symm.trans hcmd
    cases hd.symm.trans hok
    rw [hstep, State.taken, hs]
    rfl

/-! ### The static causes E1 and E2 (R59 steps 1 and 2, R123) -/

/-- The decoder accepts a word exactly when it matches the row of its own opcode. -/
theorem decode_ok_iff_row (w : Cmd) :
    (∃ i, decode w = .ok i) ↔ ∃ q, opcodeRows[opField w]? = some q ∧ w &&& q.mask = q.pattern := by
  constructor
  · rintro ⟨i, hd⟩
    obtain ⟨q, hq, -, hw⟩ := row_of_decode hd
    exact ⟨q, hq, hw⟩
  · rintro ⟨q, hq, hw⟩
    exact (decode_ok_iff w).mpr ⟨q, List.mem_of_getElem? hq, hw⟩

/-- No command is decoded exactly when the opcode is reserved (E1) or a fixed bit differs from the row (E2). -/
theorem not_decode_ok_iff (w : Cmd) :
    (¬ ∃ i, decode w = .ok i) ↔
      0xB ≤ opField w ∨ ∃ q, opcodeRows[opField w]? = some q ∧ w &&& q.mask ≠ q.pattern := by
  rw [decode_ok_iff_row]
  cases hq : opcodeRows[opField w]? with
  | none =>
    have hreserved : 0xB ≤ opField w := List.getElem?_eq_none_iff.mp hq
    simp [hreserved]
  | some q =>
    have hassigned : opField w < 0xB := (List.getElem?_eq_some_iff.mp hq).1
    simp [hassigned.not_ge]

/-! ### The causes E3 to E6, which read the state (R59 steps 4 to 6, R123) -/

/-- Whether a context accepts a command that names it (R59 steps 5 and 6). -/
def Ctx.admits (x : Ctx) : Instr → Bool
  | .nop | .init _ _ _ | .hinit _ _ _ | .rdst _ | .rdcnt _ _ => x.takesAny
  | .keyb _ _ | .keyend _ => x.takesKey
  | .pushb _ _ | .final _ => x.takesData
  | .rdb _ j => x.takesByteRead j
  | .rdw _ j => x.takesWordRead j

/-- A command is refused when the context it names does not exist or does not accept it; `NOP` names none. -/
def State.Refuses (s : State) (i : Instr) : Prop :=
  ∃ c, i.ctx? = some c ∧ ∀ x, s.ctxs[c]? = some x → x.admits i = false

/-- The causes E3 to E6 of R123, one after the other. -/
def State.ListedCause (s : State) (i : Instr) : Prop :=
  (∃ c, i.ctx? = some c ∧ s.ctxs.length ≤ c) ∨
  (∃ c x, s.ctxs[c]? = some x ∧ (i = .keyend c ∨ ∃ b, i = .keyb c b) ∧ (x.m = false ∨ x.kph = false)) ∨
  (∃ c x, s.ctxs[c]? = some x ∧
    (i = .final c ∨ (∃ b, i = .pushb c b) ∨ (∃ j, i = .rdb c j) ∨ ∃ j, i = .rdw c j) ∧ x.kph = true) ∨
  ∃ c x j, s.ctxs[c]? = some x ∧ ((i = .rdb c j ∧ x.dlen ≤ j) ∨ (i = .rdw c j ∧ x.dlen ≤ 4 * j))

theorem Ctx.takesKey_eq_false_iff (x : Ctx) : x.takesKey = false ↔ x.m = false ∨ x.kph = false :=
  Bool.and_eq_false_iff

theorem Ctx.takesData_eq_false_iff (x : Ctx) : x.takesData = false ↔ x.kph = true := by simp [Ctx.takesData]

theorem Ctx.takesByteRead_eq_false_iff (x : Ctx) (j : Nat) : x.takesByteRead j = false ↔ x.kph = true ∨ x.dlen ≤ j := by
  rw [Ctx.takesByteRead, Bool.and_eq_false_iff, x.takesData_eq_false_iff, decide_eq_false_iff_not, Nat.not_lt]

theorem Ctx.takesWordRead_eq_false_iff (x : Ctx) (j : Nat) :
    x.takesWordRead j = false ↔ x.kph = true ∨ x.dlen ≤ 4 * j := by
  rw [Ctx.takesWordRead, Bool.and_eq_false_iff, x.takesData_eq_false_iff, decide_eq_false_iff_not, Nat.not_lt]

/-- What holds of a context wherever it exists: it does not exist, or it does and the thing holds. -/
theorem forall_ctx_iff {s : State} {c : Nat} {p : Ctx → Prop} :
    (∀ x, s.ctxs[c]? = some x → p x) ↔ s.ctxs.length ≤ c ∨ ∃ x, s.ctxs[c]? = some x ∧ p x := by
  cases hx : s.ctxs[c]? with
  | none => simp [List.getElem?_eq_none_iff.mp hx]
  | some x =>
    have hc : c < s.ctxs.length := (List.getElem?_eq_some_iff.mp hx).1
    simp [hc.not_ge]

/-- A command is refused exactly for the causes E3 to E6: which of them can arise is fixed by the kind of command. -/
theorem State.refuses_iff_listedCause (s : State) (i : Instr) : s.Refuses i ↔ s.ListedCause i := by
  unfold State.Refuses State.ListedCause
  simp only [forall_ctx_iff]
  cases i with
  | nop => simp [Instr.ctx?]
  | init c t sh => simp [Instr.ctx?, Ctx.admits, Ctx.takesAny]
  | hinit c t sh => simp [Instr.ctx?, Ctx.admits, Ctx.takesAny]
  | keyb c b => simp [Instr.ctx?, Ctx.admits, Ctx.takesKey_eq_false_iff]
  | keyend c => simp [Instr.ctx?, Ctx.admits, Ctx.takesKey_eq_false_iff]
  | pushb c b => simp [Instr.ctx?, Ctx.admits, Ctx.takesData_eq_false_iff]
  | final c => simp [Instr.ctx?, Ctx.admits, Ctx.takesData_eq_false_iff]
  | rdb c j => simp [Instr.ctx?, Ctx.admits, Ctx.takesByteRead_eq_false_iff, and_or_left, exists_or]
  | rdw c j => simp [Instr.ctx?, Ctx.admits, Ctx.takesWordRead_eq_false_iff, and_or_left, exists_or]
  | rdst c => simp [Instr.ctx?, Ctx.admits, Ctx.takesAny]
  | rdcnt c n => simp [Instr.ctx?, Ctx.admits, Ctx.takesAny]

/-! ### The response of a command (R57, R58) -/

/-- A command that names context `c` is `admits` around an effect that answers OK. -/
theorem exec_eq_accept_admits {i : Instr} {c : Nat} (hc : i.ctx? = some c) (s : State) :
    ∃ run, exec i s = .next (s.accept c (·.admits i) run) ∧ ∀ x, ∃ v, (run x).rsp = some (okResponse v) := by
  cases i with
  | nop => cases hc
  | init d t sh => cases hc; exact ⟨_, rfl, fun _ => ⟨0, State.construct_rsp _ _ _⟩⟩
  | hinit d t sh => cases hc; exact ⟨_, rfl, fun _ => ⟨0, State.construct_rsp _ _ _⟩⟩
  | keyb d b => cases hc; exact ⟨_, rfl, fun _ => ⟨_, rfl⟩⟩
  | keyend d => cases hc; exact ⟨_, rfl, fun _ => ⟨_, rfl⟩⟩
  | pushb d b => cases hc; exact ⟨_, rfl, fun _ => ⟨_, rfl⟩⟩
  | final d => cases hc; exact ⟨_, rfl, fun _ => ⟨_, rfl⟩⟩
  | rdb d j => cases hc; exact ⟨_, rfl, fun _ => ⟨_, rfl⟩⟩
  | rdw d j => cases hc; exact ⟨_, rfl, fun _ => ⟨_, rfl⟩⟩
  | rdst d => cases hc; exact ⟨_, rfl, fun _ => ⟨_, rfl⟩⟩
  | rdcnt d n => cases hc; exact ⟨_, rfl, fun _ => ⟨_, rfl⟩⟩

/-- A command is refused with nothing changed but the response, or it is not refused and answers OK. -/
theorem exec_refused_or_ok (i : Instr) (s : State) :
    (s.Refuses i ∧ exec i s = .next s.Refused) ∨
      (¬ s.Refuses i ∧ ∃ u v, exec i s = .next u ∧ u.rsp = some (okResponse v)) := by
  cases hc : i.ctx? with
  | none =>
    obtain rfl := ctx?_eq_none_iff.mp hc
    exact .inr ⟨fun ⟨_, hd, _⟩ => (nomatch hd), _, 0, rfl, rfl⟩
  | some c =>
    obtain ⟨run, hexec, hok⟩ := exec_eq_accept_admits hc s
    rcases s.accept_cases c (·.admits i) run with ⟨hno, e⟩ | ⟨x, hx, hyes, e⟩
    · exact .inl ⟨⟨c, hc, hno⟩, hexec.trans (congrArg _ e)⟩
    · obtain ⟨v, hv⟩ := hok x
      refine .inr ⟨fun ⟨d, hd, hno⟩ => ?_, _, v, hexec.trans (congrArg _ e), hv⟩
      cases hc.symm.trans hd
      exact Bool.noConfusion (hyes.symm.trans (hno x hx))

/-- Settles O4: a word that is no command is refused for E1 or E2, and a command's response says whether it was refused. -/
theorem errExactlyForListedCauses : Obligations.ErrExactlyForListedCauses := by
  intro s w rest hs
  rw [← or_assoc, ← not_decode_ok_iff]
  cases hd : decode w with
  | error e =>
    exact ⟨_, errResponse, step_reserved hs hd, rfl, fun _ => ⟨rfl, rfl⟩,
      iff_of_true rfl (.inl fun ⟨_, hi⟩ => nomatch hi)⟩
  | ok i =>
    rw [step_command hs hd]
    rcases exec_refused_or_ok i { s with stream := rest } with ⟨hrefused, hexec⟩ | ⟨haccepted, u, v, hexec, hrsp⟩
    · exact ⟨_, errResponse, hexec, rfl, fun _ => ⟨rfl, rfl⟩,
        iff_of_true rfl (.inr ⟨i, rfl, (State.refuses_iff_listedCause _ i).mp hrefused⟩)⟩
    · refine ⟨u, okResponse v, hexec, hrsp, fun herr => Bool.noConfusion herr, iff_of_false Bool.noConfusion ?_⟩
      rintro (hnone | ⟨j, hj, hcause⟩)
      · exact absurd ⟨i, rfl⟩ hnone
      · cases hj
        exact absurd ((State.refuses_iff_listedCause _ i).mpr hcause) haccepted

end Sys2Proof.Machine
end

section
/-! ## Reset and hazards (spec/70_reset_and_hazards.md)

What the shared-scratch contract makes of a block that shares its scratch, what a breach of it leaves specified, and how many
compressions a command runs; from them the statements of this family. -/

namespace Sys2Proof.Machine

/-! ### Live shared contexts (R140, R141) -/

/-- Under the contract a live shared context is the only one. -/
theorem State.Contract.noOtherLiveShared {s : State} (hcontract : s.Contract) {c : Nat} {x : Ctx} (hx : s.ctxs[c]? = some x)
    (hl : x.liveShared = true) : s.NoOtherLiveShared c := by
  obtain ⟨hc, rfl⟩ := List.getElem?_eq_some_iff.mp hx
  have hone : s.ctxs.countP Ctx.liveShared ≤ 1 := hcontract
  have hothers : (s.ctxs.set c Ctx.reset).countP Ctx.liveShared = 0 := by
    rw [List.countP_set hc, if_pos hl, if_neg (by decide)]
    omega
  intro d z hd hz
  have hmem : z ∈ s.ctxs.set c Ctx.reset := List.mem_of_getElem? ((List.getElem?_set_ne (Ne.symm hd)).trans hz)
  exact Bool.eq_false_iff.mpr (List.countP_eq_zero.mp hothers z hmem)

/-- Where no context is tainted the invariant says that the contract holds. -/
theorem State.Ok.contract {s : State} (hs : s.Ok) (hclean : s.Untainted) : s.Contract := by
  obtain ⟨-, -, hmarked⟩ := hs
  by_contra hbreach
  have htwo : 2 ≤ s.liveSharedCount := by unfold State.Contract at hbreach; omega
  obtain ⟨x, hx, hl⟩ := List.countP_pos_iff.mp (Nat.lt_of_lt_of_le Nat.zero_lt_two htwo)
  exact Bool.noConfusion ((hclean x hx).symm.trans (hmarked htwo x hx hl))

/-- Noting what is shared makes and unmakes no live shared context. -/
@[simp] theorem State.noteSharing_liveSharedCount (s : State) : s.noteSharing.liveSharedCount = s.liveSharedCount := by
  have hmark : Ctx.liveShared ∘ (fun x => if x.liveShared then { x with tainted := true } else x) = Ctx.liveShared := by
    funext x
    dsimp only [Function.comp]
    split <;> rfl
  by_cases hone : s.liveSharedCount ≤ 1
  · rw [State.noteSharing_contract hone]
  · rw [State.noteSharing_breach hone]
    unfold State.liveSharedCount
    rw [List.countP_map, hmark]

/-- A construction that ends within the contract has met it: the new context has its own block, or no other is live and shared. -/
theorem State.construct_contract {s : State} {c : Nat} {x : Ctx} (hc : c < s.ctxs.length)
    (hcontract : (s.construct c x).Contract) : x.s = false ∨ s.NoOtherLiveShared c := by
  cases hs : x.s with
  | false => exact .inl rfl
  | true =>
    have hstore : (s.store c (s.view x).engineReset).Contract := by
      have e : (s.construct c x).liveSharedCount = (s.store c (s.view x).engineReset).noteSharing.liveSharedCount := by
        simp only [State.construct, hs, if_true]
        rfl
      exact (e.trans (State.noteSharing_liveSharedCount _)).symm.trans_le hcontract
    have hself := s.store_self (s.view x).engineReset hc
    have hother := hstore.noOtherLiveShared hself (by simp [Ctx.liveShared, hs])
    exact .inr fun d z hd hz => hother d z hd ((s.store_other _ hd).trans hz)

/-! ### A procedure does not see which block it works on (R38, R141) -/

/-- The context with `S` = 0 and `b` as its own block. -/
def Ctx.onOwnBlock (x : Ctx) (b : Block) : Ctx := { x with s := false, b := b }

/-- The view as it would be at `d` draws if its context had `S` = 0, with `b` where its own block is kept between commands. -/
def View.onOwnBlock (v : View) (b : Block) (d : Nat) : View := { v with ctx := v.ctx.onOwnBlock b, draws := d }

section onOwnBlock
variable {v : View} (hclean : v.ctx.tainted = false) (b : Block) (d : Nat)
include hclean

theorem View.engineReset_onOwnBlock : (v.onOwnBlock b d).engineReset = v.engineReset.onOwnBlock b d := by
  rw [View.engineReset_clean hclean, View.engineReset_clean (v := v.onOwnBlock b d) hclean]
  rfl

theorem View.pushByte_onOwnBlock (a : Byte) : (v.onOwnBlock b d).pushByte a = (v.pushByte a).onOwnBlock b d := by
  cases hf : v.ctx.fin with
  | true => rw [View.pushByte_sealed hf, View.pushByte_sealed (v := v.onOwnBlock b d) hf]
  | false =>
    rw [View.pushByte_clean hclean hf, View.pushByte_clean (v := v.onOwnBlock b d) hclean hf]
    rw [Ctx.countByte_eq, Ctx.countByte_eq]
    rfl

theorem View.baseFinalize_onOwnBlock : (v.onOwnBlock b d).baseFinalize = v.baseFinalize.onOwnBlock b d := by
  cases hf : v.ctx.fin with
  | true => rw [View.baseFinalize_sealed hf, View.baseFinalize_sealed (v := v.onOwnBlock b d) hf]
  | false =>
    rw [View.baseFinalize_clean hclean hf, View.baseFinalize_clean (v := v.onOwnBlock b d) hclean hf]
    rfl

end onOwnBlock

@[simp] theorem View.pushByte_tainted (v : View) (b : Byte) : (v.pushByte b).ctx.tainted = v.ctx.tainted := by
  obtain ⟨_, _, _, _, e⟩ := v.pushByte_ctx b
  rw [e]

@[simp] theorem View.baseFinalize_tainted (v : View) : v.baseFinalize.ctx.tainted = v.ctx.tainted := by
  obtain ⟨_, e⟩ := v.baseFinalize_ctx
  rw [e]

theorem View.pushBytes_onOwnBlock (b : Block) (d : Nat) (bs : List Byte) :
    ∀ {v : View}, v.ctx.tainted = false → (v.onOwnBlock b d).pushBytes bs = (v.pushBytes bs).onOwnBlock b d := by
  induction bs with
  | nil => intro v _; rfl
  | cons a bs ih =>
    intro v hclean
    exact (congrArg (·.pushBytes bs) (View.pushByte_onOwnBlock hclean b d a)).trans
      (ih (v := v.pushByte a) (by rwa [View.pushByte_tainted]))

/-- A procedure that leaves `S` and the taint as they are, and in an untainted context works on the shared block as it would on
the context's own. -/
structure View.IgnoresSharing (f : View → View) : Prop where
  keeps_s : ∀ v, (f v).ctx.s = v.ctx.s
  keeps_taint : ∀ v, (f v).ctx.tainted = v.ctx.tainted
  onOwnBlock : ∀ {v : View}, v.ctx.tainted = false → ∀ b d, f (v.onOwnBlock b d) = (f v).onOwnBlock b d

theorem View.IgnoresSharing.pushByte (a : Byte) : View.IgnoresSharing fun v => v.pushByte a where
  keeps_s v := by
    obtain ⟨_, _, _, _, e⟩ := v.pushByte_ctx a
    rw [e]
  keeps_taint v := v.pushByte_tainted a
  onOwnBlock hclean b d := View.pushByte_onOwnBlock hclean b d a

theorem View.IgnoresSharing.finalize : View.IgnoresSharing View.finalize where
  keeps_s v := by
    obtain ⟨_, _, _, _, e⟩ := v.finalize_ctx
    rw [e]
  keeps_taint v := by
    obtain ⟨_, _, _, _, e⟩ := v.finalize_ctx
    rw [e]
  onOwnBlock {v} hclean b d := by
    have hbase := View.baseFinalize_onOwnBlock hclean b d
    cases howes : v.ctx.m && v.ctx.latch with
    | false => rwa [View.finalize_eq_baseFinalize howes, View.finalize_eq_baseFinalize (v := v.onOwnBlock b d) howes]
    | true =>
      have hclean' : v.baseFinalize.ctx.tainted = false := by rwa [View.baseFinalize_tainted]
      have hfed : (v.baseFinalize.onOwnBlock b d).outerFed = v.baseFinalize.outerFed.onOwnBlock b d := by
        have hreset := View.engineReset_onOwnBlock (v := v.baseFinalize.dropLatch) hclean' b d
        have hpush := View.pushBytes_onOwnBlock b d (v.baseFinalize.ctx.opad.toList ++ v.baseFinalize.ctx.digestBytes)
          (View.engineReset_absorbed (v := v.baseFinalize.dropLatch) hclean').clean
        rw [← hreset] at hpush
        exact hpush
      rw [View.finalize_eq_outerPass howes, View.finalize_eq_outerPass (v := v.onOwnBlock b d) howes, hbase, hfed,
        View.baseFinalize_onOwnBlock (View.outerFed_absorbed hclean').clean b d]

theorem View.IgnoresSharing.keyByte (a : Byte) : View.IgnoresSharing fun v => v.keyByte a where
  keeps_s v := by
    rw [View.keyByte_eq, (View.IgnoresSharing.pushByte a).keeps_s, View.padded_ctx]
  keeps_taint v := by
    rw [View.keyByte_eq, View.pushByte_tainted, View.padded_ctx]
  onOwnBlock {v} hclean b d := by
    have hpadded : (v.onOwnBlock b d).padded a = (v.padded a).onOwnBlock b d := by
      simp only [View.padded, View.onOwnBlock, Ctx.countKeyByte_eq, Ctx.padByte_eq]
      rfl
    rw [View.keyByte_eq, View.keyByte_eq, hpadded]
    exact View.pushByte_onOwnBlock (by rw [View.padded_ctx]; exact hclean) b d a

theorem View.IgnoresSharing.keyEnd : View.IgnoresSharing View.keyEnd where
  keeps_s v := by
    obtain ⟨_, _, _, _, _, _, e⟩ := v.keyEnd_ctx
    rw [e]
  keeps_taint v := by
    obtain ⟨_, _, _, _, _, _, e⟩ := v.keyEnd_ctx
    rw [e]
  onOwnBlock {v} hclean b d := by
    have hshort : (v.onOwnBlock b d).shortenKey = v.shortenKey.onOwnBlock b d := by
      rcases Nat.lt_or_ge 64 v.ctx.klen.toNat with hlong | hshort
      · rw [View.shortenKey, View.shortenKey, View.baseFinalize_onOwnBlock hclean b d, if_pos hlong,
          if_pos (show 64 < (v.onOwnBlock b d).ctx.klen.toNat from hlong)]
        rfl
      · rw [View.shortenKey_short hshort, View.shortenKey_short (v := v.onOwnBlock b d) hshort]
    have hclean' : v.shortenKey.ctx.tainted = false := v.shortenKey_tainted.trans hclean
    have hfed : (v.onOwnBlock b d).innerFed = v.innerFed.onOwnBlock b d := by
      unfold View.innerFed
      rw [hshort, View.engineReset_onOwnBlock hclean' b d]
      exact View.pushBytes_onOwnBlock b d _ (View.engineReset_absorbed hclean').clean
    rw [View.keyEnd_eq, View.keyEnd_eq, hfed]
    rfl

/-! ### A block that shares its scratch beside one that does not (R141) -/

/-- Corresponding states, the sharing one with no context tainted, that have given the same answer. -/
structure State.Alike (s u : State) : Prop where
  clean : s.Untainted
  like : SharesLike s u
  rsp : s.rsp = u.rsp

theorem State.Untainted.store {s : State} (hclean : s.Untainted) {c : Nat} {v : View} (hv : v.ctx.tainted = false) :
    (s.store c v).Untainted := by
  intro z hz
  rw [State.store_ctxs] at hz
  rcases List.mem_or_eq_of_mem_set hz with hz | rfl
  · exact hclean z hz
  · exact hv

/-- Storing a view in the one block and its counterpart in the other: the shared block is written only where no other live
context uses it. -/
theorem SharesLike.store {s u : State} (h : SharesLike s u) {c : Nat} {v : View}
    (hother : v.ctx.s = true → s.NoOtherLiveShared c) (b : Block) (d : Nat) :
    SharesLike (s.store c v) (u.store c (v.onOwnBlock b d)) := by
  obtain ⟨hlen, hsame⟩ := h
  refine ⟨by rw [State.store_length, State.store_length, hlen], fun e z w hz hw => ?_⟩
  by_cases hec : e = c
  · subst hec
    have he : e < s.ctxs.length := by simpa using (List.getElem?_eq_some_iff.mp hz).1
    rw [State.store_self s v he] at hz
    rw [State.store_self u _ (hlen ▸ he)] at hw
    cases hz
    cases hw
    exact ⟨rfl, fun _ => State.act_blkOf s v.ctx (fun _ => v) (fun _ => 0)⟩
  · rw [State.store_other s v hec] at hz
    rw [State.store_other u _ hec] at hw
    obtain ⟨hctx, hblk⟩ := hsame e z w hz hw
    refine ⟨hctx, fun hf => (hblk hf).symm ▸ ?_⟩
    have hscr : z.s = true → (s.store c v).scr = s.scr := fun hzs => by
      rw [State.store_scr, if_neg fun hv => ?_]
      exact Bool.noConfusion ((z.liveShared_iff.mpr ⟨hzs, hf⟩).symm.trans (hother hv e z hec hz))
    unfold State.blkOf
    split
    next hzs => exact hscr hzs
    next => rfl

theorem SharesLike.answer {s u : State} (h : SharesLike s u) (r p : Option Response) :
    SharesLike { s with rsp := r } { u with rsp := p } := h

/-- A context and its counterpart differ in `S` and in the block kept aside. -/
theorem SharesLike.ctx_eq {s u : State} (h : SharesLike s u) {c : Nat} {x y : Ctx} (hx : s.ctxs[c]? = some x)
    (hy : u.ctxs[c]? = some y) : ∃ b, y = x.onOwnBlock b := by
  obtain ⟨-, hsame⟩ := h
  obtain ⟨hctx, -⟩ := hsame c x y hx hy
  exact ⟨_, hctx⟩

/-- A sealed context takes no key command (R59). -/
theorem Ctx.Sealed.not_takesKey {x : Ctx} (h : x.Sealed) : ¬ x.takesKey = true := by simp [Ctx.takesKey, h.kph]

section commands
variable {s u : State} (hclean : s.Untainted) (h : SharesLike s u) {c : Nat}
include hclean h

/-- Admission is the same in both blocks. -/
theorem SharesLike.accept {ok : Ctx → Bool} {run run' : Ctx → State} (hok : ∀ x b, ok (x.onOwnBlock b) = ok x)
    (hrun : ∀ x y, s.ctxs[c]? = some x → u.ctxs[c]? = some y → ok x = true → (run x).Contract → (run x).Alike (run' y)) :
    (s.accept c ok run).Contract → (s.accept c ok run).Alike (u.accept c ok run') := by
  have hrefused : s.respondErr.Alike u.respondErr := ⟨hclean, h.answer _ _, rfl⟩
  obtain ⟨hlen, hsame⟩ := h
  rcases s.accept_cases c ok run with ⟨hno, e⟩ | ⟨x, hx, hyes, e⟩
  · rcases u.accept_cases c ok run' with ⟨-, e'⟩ | ⟨y, hy, hyes, -⟩
    · rw [e, e']
      exact fun _ => hrefused
    · obtain ⟨hc, -⟩ := List.getElem?_eq_some_iff.mp hy
      have hx := List.getElem?_eq_getElem (hlen ▸ hc)
      obtain ⟨hctx, -⟩ := hsame c _ y hx hy
      rw [hctx, ← Ctx.onOwnBlock, hok, hno _ hx] at hyes
      cases hyes
  · obtain ⟨hc, -⟩ := List.getElem?_eq_some_iff.mp hx
    have hy := List.getElem?_eq_getElem (hlen ▸ hc)
    obtain ⟨hctx, -⟩ := hsame c x _ hx hy
    rw [e, State.accept_ok hy (by rw [hctx, ← Ctx.onOwnBlock, hok, hyes])]
    exact hrun x _ hx hy hyes

variable {x : Ctx} (hx : s.ctxs[c]? = some x)
include hx

/-- A construction that ends within the contract, and the same one on the context's own block. -/
theorem SharesLike.construct {z : Ctx} (hz : z.tainted = false) (b : Block) (hcontract : (s.construct c z).Contract) :
    (s.construct c z).Alike (u.construct c (z.onOwnBlock b)) := by
  obtain ⟨hc, -⟩ := List.getElem?_eq_some_iff.mp hx
  have hmet := State.construct_contract hc hcontract
  have hreset : (u.view (z.onOwnBlock b)).engineReset = (s.view z).engineReset.onOwnBlock b u.draws := by
    rw [View.engineReset_clean (v := s.view z) hz, View.engineReset_clean (v := u.view (z.onOwnBlock b)) hz]
    rfl
  have hstore := h.store (c := c) (v := (s.view z).engineReset) (fun hs => hmet.resolve_left (by simpa using hs)) b u.draws
  rw [State.construct_of_contract hc hmet, State.construct_eq_act rfl, State.act, State.act, hreset]
  exact ⟨hclean.store (by simpa using hz), hstore.answer _ _, rfl⟩

variable {y : Ctx} (hy : u.ctxs[c]? = some y) (hs : s.Ok)
include hy hs

/-- A procedure run on a context, open or sealed, of either block. -/
theorem SharesLike.act {f : View → View} {out : Ctx → Word} (hf : View.IgnoresSharing f)
    (hsealed : x.Sealed → ∀ v : View, v.ctx.Sealed → f v = v) (hout : ∀ z b, out (z.onOwnBlock b) = out z) :
    (s.act c x f out).Alike (u.act c y f out) := by
  have hxclean : x.tainted = false := hclean x (List.mem_of_getElem? hx)
  obtain ⟨hlen, hsame⟩ := h
  obtain ⟨hctx, hblk⟩ := hsame c x y hx hy
  obtain ⟨b, rfl⟩ : ∃ b, y = x.onOwnBlock b := ⟨_, hctx⟩
  cases hfin : x.fin with
  | true =>
    obtain ⟨-, hall, -⟩ := hs
    have hx' : x.Sealed := (hall x (List.mem_of_getElem? hx)).isSealed hfin
    have hy' : (x.onOwnBlock b).Sealed := ⟨hx'.fin, hx'.kph, hx'.paid⟩
    rw [State.act_unchanged out hx (hsealed hx' _ hx'), State.act_unchanged out hy (hsealed hx' _ hy'), hout]
    exact ⟨hclean, SharesLike.answer ⟨hlen, hsame⟩ _ _, rfl⟩
  | false =>
    have hview : u.view (x.onOwnBlock b) = (s.view x).onOwnBlock b u.draws := by
      rw [View.onOwnBlock, State.view_ctx, State.view, State.view, hblk hfin]
      rfl
    have hother : (f (s.view x)).ctx.s = true → s.NoOtherLiveShared c := fun hshared =>
      (hs.contract hclean).noOtherLiveShared hx (x.liveShared_iff.mpr ⟨(hf.keeps_s _).symm.trans hshared, hfin⟩)
    have hstore := SharesLike.store ⟨hlen, hsame⟩ hother b u.draws
    have hkeep : (f (s.view x)).ctx.tainted = false := (hf.keeps_taint _).trans hxclean
    rw [State.act, State.act, hview, hf.onOwnBlock hxclean]
    exact ⟨hclean.store hkeep, hstore.answer _ _, congrArg (fun w => some (okResponse w)) (hout _ b).symm⟩

end commands

/-- Every command but `RDST`, in corresponding states of the two blocks. -/
theorem exec_alike {s u : State} (hs : s.Ok) (hclean : s.Untainted) (h : SharesLike s u) {i : Instr}
    (hi : ∀ c, i ≠ .rdst c) :
    ∃ s' u', exec i s = .next s' ∧ exec (privately i) u = .next u' ∧ (s'.Contract → s'.Alike u') := by
  cases i with
  | nop => exact ⟨_, _, rfl, rfl, fun _ => ⟨hclean, h.answer _ _, rfl⟩⟩
  | init c t sh =>
    refine ⟨_, _, rfl, rfl, h.accept hclean (fun _ _ => rfl) fun x y hx hy _ hcontract => ?_⟩
    obtain ⟨b, rfl⟩ := h.ctx_eq hx hy
    exact h.construct hclean hx (z := x.asPlain t sh) rfl b hcontract
  | hinit c t sh =>
    refine ⟨_, _, rfl, rfl, h.accept hclean (fun _ _ => rfl) fun x y hx hy _ hcontract => ?_⟩
    obtain ⟨b, rfl⟩ := h.ctx_eq hx hy
    exact h.construct hclean hx (z := x.asHmac t sh) rfl b hcontract
  | keyb c b =>
    exact ⟨_, _, rfl, rfl, h.accept hclean (fun _ _ => rfl) fun x y hx hy hok _ =>
      h.act hclean hx hy hs (.keyByte b) (fun hsealed => absurd hok hsealed.not_takesKey) fun _ _ => rfl⟩
  | keyend c =>
    exact ⟨_, _, rfl, rfl, h.accept hclean (fun _ _ => rfl) fun x y hx hy hok _ =>
      h.act hclean hx hy hs .keyEnd (fun hsealed => absurd hok hsealed.not_takesKey) fun _ _ => rfl⟩
  | pushb c b =>
    exact ⟨_, _, rfl, rfl, h.accept hclean (fun _ _ => rfl) fun x y hx hy _ _ =>
      h.act hclean hx hy hs (.pushByte b) (fun _ _ hv => View.pushByte_sealed hv.fin b) fun _ _ => rfl⟩
  | final c =>
    exact ⟨_, _, rfl, rfl, h.accept hclean (fun _ _ => rfl) fun x y hx hy _ _ =>
      h.act hclean hx hy hs .finalize (fun _ _ hv => View.finalize_again hv.fin hv.paid) fun _ _ => rfl⟩
  | rdb c j =>
    exact ⟨_, _, rfl, rfl, h.accept hclean (fun _ _ => rfl) fun x y hx hy _ _ =>
      h.act hclean hx hy hs .finalize (fun _ _ hv => View.finalize_again hv.fin hv.paid) fun _ _ => rfl⟩
  | rdw c j =>
    exact ⟨_, _, rfl, rfl, h.accept hclean (fun _ _ => rfl) fun x y hx hy _ _ =>
      h.act hclean hx hy hs .finalize (fun _ _ hv => View.finalize_again hv.fin hv.paid) fun _ _ => rfl⟩
  | rdst c => exact absurd rfl (hi c)
  | rdcnt c n =>
    refine ⟨_, _, rfl, rfl, h.accept hclean (fun _ _ => rfl) fun x y hx hy _ _ => ?_⟩
    obtain ⟨b, rfl⟩ := h.ctx_eq hx hy
    exact ⟨hclean, h.answer _ _, rfl⟩

/-- Clearing bit 2 clears the third control bit (R31). -/
theorem flags_and_notShared : ∀ f0 f1 f2 f3 f4 f5 : Bool,
    (flagAt 0 f0 ||| flagAt 1 f1 ||| flagAt 2 f2 ||| flagAt 3 f3 ||| flagAt 4 f4 ||| flagAt 5 f5) &&& ~~~(0x4#32) =
      flagAt 0 f0 ||| flagAt 1 f1 ||| flagAt 2 false ||| flagAt 3 f3 ||| flagAt 4 f4 ||| flagAt 5 f5 := by decide

/-- Clearing bit 2 leaves a field that begins above it. -/
theorem shiftLeft_and_notShared (w : Word) {p : Nat} (hp : 2 < p) : w <<< p &&& ~~~(0x4#32) = w <<< p := by
  apply BitVec.eq_of_getLsbD_eq
  intro n hn
  have hmask : ∀ n < 32, n ≠ 2 → (~~~(0x4#32)).getLsbD n = true := by decide
  rw [BitVec.getLsbD_and]
  rcases Nat.lt_or_ge n p with hlow | hhigh
  · rw [BitVec.getLsbD_shiftLeft, decide_eq_true hlow]
    simp
  · rw [hmask n hn (by omega), Bool.and_true]

/-- The status word of a context on its own block is that of the same context on the shared one with bit 2 cleared (R31). -/
theorem Ctx.status_onOwnBlock (x : Ctx) (b : Block) : x.status &&& ~~~(0x4#32) = (x.onOwnBlock b).status := by
  rw [Ctx.status, BitVec.and_or_distrib_right, BitVec.and_or_distrib_right, flags_and_notShared,
    shiftLeft_and_notShared _ (by decide), shiftLeft_and_notShared _ (by decide)]
  rfl

/-- `RDST` changes neither block, and answers alike but for the bit `S` (R31, R96). -/
theorem exec_rdst_alike {s u : State} (hclean : s.Untainted) (h : SharesLike s u) (c : Nat) :
    ∃ s' u', exec (.rdst c) s = .next s' ∧ exec (.rdst c) u = .next u' ∧ s'.Untainted ∧ SharesLike s' u' ∧
      s'.rsp.map (fun r => (r.err, r.data &&& ~~~(0x4#32))) = u'.rsp.map fun r => (r.err, r.data) := by
  have ⟨hlen, _⟩ := h
  cases hx : s.ctxs[c]? with
  | none =>
    have hy : u.ctxs[c]? = none := List.getElem?_eq_none_iff.mpr (hlen ▸ List.getElem?_eq_none_iff.mp hx)
    exact ⟨s.respondErr, u.respondErr, congrArg Host.Outcome.next (State.accept_none hx _ _),
      congrArg Host.Outcome.next (State.accept_none hy _ _), hclean, h.answer _ _, rfl⟩
  | some x =>
    obtain ⟨hc, -⟩ := List.getElem?_eq_some_iff.mp hx
    have hy := List.getElem?_eq_getElem (hlen ▸ hc)
    obtain ⟨b, hctx⟩ := h.ctx_eq hx hy
    rw [hctx] at hy
    refine ⟨_, _, exec_rdst hx, exec_rdst hy, hclean, h.answer _ _, ?_⟩
    exact congrArg (fun w => some (false, w)) (x.status_onOwnBlock b)

/-- Settles O47: a procedure does not see which block it works on, and under the contract no other context uses the shared one. -/
theorem sharedScratchBehavesLikePrivate : Obligations.SharedScratchBehavesLikePrivate := by
  intro s u i hs hclean h
  by_cases hrdst : ∃ c, i = .rdst c
  · obtain ⟨c, rfl⟩ := hrdst
    obtain ⟨s', u', hexec, hexec', hclean', hlike, hrsp⟩ := exec_rdst_alike hclean h c
    exact ⟨s', u', hexec, hexec', fun _ => ⟨hclean', hlike, fun hne => absurd rfl (hne c), fun _ _ => hrsp⟩⟩
  · have hne : ∀ c, i ≠ .rdst c := fun c hc => hrdst ⟨c, hc⟩
    obtain ⟨s', u', hexec, hexec', halike⟩ := exec_alike hs hclean h hne
    refine ⟨s', u', hexec, hexec', fun hcontract => ?_⟩
    obtain ⟨hclean', hlike, hrsp⟩ := halike hcontract
    exact ⟨hclean', hlike, fun _ => hrsp, fun c hc => absurd hc (hne c)⟩

/-! ### A breach of the contract (R142) -/

/-- Once there are two, each live shared context is marked. -/
theorem State.noteSharing_marks {s : State} (hbreach : ¬ s.liveSharedCount ≤ 1) {c : Nat} {x : Ctx}
    (hx : s.ctxs[c]? = some x) (hl : x.liveShared = true) :
    s.noteSharing.ctxs[c]? = some { x with tainted := true } := by
  rw [State.noteSharing_breach hbreach]
  simp [hx, hl]

/-- Constructing a context on the shared block beside a live shared one marks both. -/
theorem State.construct_marks {s : State} {c d : Nat} {x z : Ctx} (hc : c < s.ctxs.length) (hs : x.s = true)
    (hz : s.ctxs[d]? = some z) (hcd : c ≠ d) (hl : z.liveShared = true) :
    (∃ y, (s.construct c x).ctxs[c]? = some y ∧ y.tainted = true) ∧
      (s.construct c x).ctxs[d]? = some { z with tainted := true } := by
  have hself : (s.store c (s.view x).engineReset).ctxs[c]? = some (s.view x).engineReset.stored := s.store_self _ hc
  have hother := (s.store_other (s.view x).engineReset hcd.symm).trans hz
  have hlive : (s.view x).engineReset.stored.liveShared = true := by simp [Ctx.liveShared, View.stored, hs]
  have hbreach : ¬ (s.store c (s.view x).engineReset).liveSharedCount ≤ 1 := fun hone =>
    Bool.noConfusion (hl.symm.trans (State.Contract.noOtherLiveShared hone hself hlive d z hcd.symm hother))
  simp only [State.construct, hs, if_true, State.respondOk_ctxs]
  exact ⟨⟨_, State.noteSharing_marks hbreach hself hlive, rfl⟩, State.noteSharing_marks hbreach hother hl⟩

/-- Settles O48: `INIT` and `HINIT` with `s` = 1 construct a context on the shared block. -/
theorem secondLiveSharedContextIsMarked : Obligations.SecondLiveSharedContextIsMarked := by
  intro s c d t x z hx hz hcd hl
  obtain ⟨hc, -⟩ := List.getElem?_eq_some_iff.mp hx
  obtain ⟨⟨y, hy, hmark⟩, hd⟩ := State.construct_marks (x := x.asPlain t true) hc rfl hz hcd hl
  obtain ⟨⟨y', hy', hmark'⟩, hd'⟩ := State.construct_marks (x := x.asHmac t true) hc rfl hz hcd hl
  exact ⟨⟨_, y, exec_init hx t true, State.construct_rsp _ _ _, hy, hmark, hd⟩,
    ⟨_, y', exec_hinit hx t true, State.construct_rsp _ _ _, hy', hmark', hd'⟩⟩

/-- Contexts that differ in their taint only. -/
theorem Ctx.eq_of_cleaned {x y : Ctx} (h : y.cleaned = x.cleaned) : y = { x with tainted := y.tainted } :=
  congrArg (fun z : Ctx => { z with tainted := y.tainted }) h

/-- A procedure that makes the same control fields of a context with and without its taint: it computes them from control
fields, and from no word that a tainted context draws. -/
def View.ControlIgnoresTaint (f : View → View) : Prop :=
  ∀ v w : View, w.ctx = v.ctx.cleaned → (f v).ctx.control = (f w).ctx.control

theorem View.pushByte_controlIgnoresTaint (b : Byte) : View.ControlIgnoresTaint fun v => v.pushByte b := by
  intro v w hw
  dsimp only
  rcases Bool.eq_false_or_eq_true v.ctx.fin with hf | hf
  · rw [View.pushByte_sealed hf, View.pushByte_sealed (v := w) (by rw [hw]; exact hf), hw]
    rfl
  · obtain ⟨h, e⟩ := View.pushByte_ctx_open hf b
    obtain ⟨h', e'⟩ := View.pushByte_ctx_open (v := w) (by rw [hw]; exact hf) b
    rw [e, e', hw, Ctx.countByte_eq, Ctx.countByte_eq]
    rfl

theorem View.keyByte_controlIgnoresTaint (b : Byte) : View.ControlIgnoresTaint fun v => v.keyByte b := by
  intro v w hw
  refine View.pushByte_controlIgnoresTaint b (v.padded b) (w.padded b) ?_
  rw [View.padded_ctx, View.padded_ctx, hw, Ctx.countKeyByte_eq, Ctx.countKeyByte_eq, Ctx.padByte_eq, Ctx.padByte_eq]
  rfl

theorem View.keyEnd_controlIgnoresTaint : View.ControlIgnoresTaint View.keyEnd := by
  intro v w hw
  obtain ⟨h, e⟩ := v.keyEnd_ctx_eq
  obtain ⟨h', e'⟩ := w.keyEnd_ctx_eq
  rw [e, e', hw]
  rfl

theorem View.finalize_controlIgnoresTaint : View.ControlIgnoresTaint View.finalize := by
  intro v w hw
  obtain ⟨h, e⟩ := v.baseFinalize_ctx
  obtain ⟨h', e'⟩ := w.baseFinalize_ctx
  rcases Bool.eq_false_or_eq_true (v.ctx.m && v.ctx.latch) with howes | hpaid
  · obtain ⟨k, ek⟩ := v.baseFinalize.outerFed_ctx
    obtain ⟨k', ek'⟩ := w.baseFinalize.outerFed_ctx
    obtain ⟨l, el⟩ := v.baseFinalize.outerFed.baseFinalize_ctx
    obtain ⟨l', el'⟩ := w.baseFinalize.outerFed.baseFinalize_ctx
    rw [View.finalize_eq_outerPass howes, View.finalize_eq_outerPass (v := w) (by rw [hw]; exact howes), el, el', ek, ek',
      e, e', hw]
    rfl
  · rw [View.finalize_eq_baseFinalize hpaid, View.finalize_eq_baseFinalize (v := w) (by rw [hw]; exact hpaid), e, e', hw]
    rfl

/-- A state with no context tainted, and nothing else changed. -/
abbrev State.cleaned (s : State) : State := { s with ctxs := s.ctxs.map Ctx.cleaned }

theorem State.cleaned_getElem? (s : State) (c : Nat) : s.cleaned.ctxs[c]? = (s.ctxs[c]?).map Ctx.cleaned :=
  List.getElem?_map

/-- Two states that have answered alike, up to the data, and hold the same control fields in context `c`. -/
structure State.SameControlAt (c : Nat) (u v : State) : Prop where
  err : u.rsp.map (·.err) = v.rsp.map (·.err)
  control : (u.ctxs[c]?).map Ctx.control = (v.ctxs[c]?).map Ctx.control

section breach
variable {s : State} {c : Nat}

theorem State.SameControlAt.answer {r p : Option Response} (h : r.map (·.err) = p.map (·.err)) :
    State.SameControlAt c { s with rsp := r } { s.cleaned with rsp := p } where
  err := h
  control := by
    dsimp only
    rw [State.cleaned_getElem?, Option.map_map]
    rfl

/-- Admission reads no taint (R59). -/
theorem State.SameControlAt.accept {ok : Ctx → Bool} {run run' : Ctx → State} (hok : ∀ x, ok x.cleaned = ok x)
    (hrun : ∀ x, s.ctxs[c]? = some x → State.SameControlAt c (run x) (run' x.cleaned)) :
    State.SameControlAt c (s.accept c ok run) (s.cleaned.accept c ok run') := by
  have hrefused : State.SameControlAt c s.respondErr s.cleaned.respondErr := .answer rfl
  cases hx : s.ctxs[c]? with
  | none => rwa [State.accept_none hx, State.accept_none (by rw [State.cleaned_getElem?, hx]; rfl)]
  | some x =>
    have hclean : s.cleaned.ctxs[c]? = some x.cleaned := by rw [State.cleaned_getElem?, hx]; rfl
    cases hk : ok x with
    | false => rwa [State.accept_refused hx hk, State.accept_refused hclean ((hok x).trans hk)]
    | true =>
      rw [State.accept_ok hx hk, State.accept_ok hclean ((hok x).trans hk)]
      exact hrun x hx

variable {x : Ctx} (hx : s.ctxs[c]? = some x)
include hx

theorem State.SameControlAt.act {f : View → View} (hf : View.ControlIgnoresTaint f) (out : Ctx → Word) :
    State.SameControlAt c (s.act c x f out) (s.cleaned.act c x.cleaned f out) where
  err := rfl
  control := by
    obtain ⟨hc, -⟩ := List.getElem?_eq_some_iff.mp hx
    rw [State.act_self s x f out hc, State.act_self s.cleaned x.cleaned f out (by simpa using hc)]
    exact congrArg some (hf (s.view x) (s.cleaned.view x.cleaned) rfl)

theorem State.SameControlAt.construct (y : Ctx) : State.SameControlAt c (s.construct c y) (s.cleaned.construct c y) where
  err := by rw [State.construct_rsp, State.construct_rsp]
  control := by
    obtain ⟨hc, -⟩ := List.getElem?_eq_some_iff.mp hx
    obtain ⟨_, _, e⟩ := s.construct_self y hc
    obtain ⟨_, _, e'⟩ := s.cleaned.construct_self y (by simpa using hc)
    rw [e, e']
    rfl

end breach

/-- A command on a context, with and without the taint of the state. -/
theorem exec_sameControlAt (s : State) {i : Instr} {c : Nat} (hc : i.ctx? = some c) :
    ∃ u v, exec i s = .next u ∧ exec i s.cleaned = .next v ∧ State.SameControlAt c u v := by
  cases i with
  | nop => cases hc
  | init d t sh =>
    cases hc
    exact ⟨_, _, rfl, rfl, .accept (fun _ => rfl) fun x hx => .construct hx (x.asPlain t sh)⟩
  | hinit d t sh =>
    cases hc
    exact ⟨_, _, rfl, rfl, .accept (fun _ => rfl) fun x hx => .construct hx (x.asHmac t sh)⟩
  | keyb d b =>
    cases hc
    exact ⟨_, _, rfl, rfl, .accept (fun _ => rfl) fun x hx => .act hx (View.keyByte_controlIgnoresTaint b) _⟩
  | keyend d =>
    cases hc
    exact ⟨_, _, rfl, rfl, .accept (fun _ => rfl) fun x hx => .act hx View.keyEnd_controlIgnoresTaint _⟩
  | pushb d b =>
    cases hc
    exact ⟨_, _, rfl, rfl, .accept (fun _ => rfl) fun x hx => .act hx (View.pushByte_controlIgnoresTaint b) _⟩
  | final d =>
    cases hc
    exact ⟨_, _, rfl, rfl, .accept (fun _ => rfl) fun x hx => .act hx View.finalize_controlIgnoresTaint _⟩
  | rdb d j =>
    cases hc
    exact ⟨_, _, rfl, rfl, .accept (fun _ => rfl) fun x hx => .act hx View.finalize_controlIgnoresTaint _⟩
  | rdw d j =>
    cases hc
    exact ⟨_, _, rfl, rfl, .accept (fun _ => rfl) fun x hx => .act hx View.finalize_controlIgnoresTaint _⟩
  | rdst d => cases hc; exact ⟨_, _, rfl, rfl, .accept (fun _ => rfl) fun _ _ => .answer rfl⟩
  | rdcnt d n => cases hc; exact ⟨_, _, rfl, rfl, .accept (fun _ => rfl) fun _ _ => .answer rfl⟩

/-- The answer of a read that does not finalize is computed from control fields (R96, R97). -/
theorem State.accept_respondOk_rsp_cleaned (s : State) (c : Nat) {out : Ctx → Word} (hout : ∀ x, out x.cleaned = out x) :
    (s.accept c Ctx.takesAny fun x => s.respondOk (out x)).rsp =
      (s.cleaned.accept c Ctx.takesAny fun x => s.cleaned.respondOk (out x)).rsp := by
  have hclean := s.cleaned_getElem? c
  cases hx : s.ctxs[c]? with
  | none =>
    rw [hx] at hclean
    rw [State.accept_none hx, State.accept_none hclean]
    rfl
  | some x =>
    rw [hx] at hclean
    rw [State.accept_ok hx rfl, State.accept_ok hclean rfl, State.respondOk_rsp, State.respondOk_rsp, hout]

/-- The control fields of the contexts a command does not name are those before it, so only the named one is left to compare. -/
theorem exec_control_cleaned {s u v : State} {i : Instr} (hu : exec i s = .next u) (hv : exec i s.cleaned = .next v)
    (hnamed : ∀ c, i.ctx? = some c → (u.ctxs[c]?).map Ctx.control = (v.ctxs[c]?).map Ctx.control) :
    u.ctxs.map Ctx.control = v.ctxs.map Ctx.control := by
  obtain ⟨-, hframe⟩ := commandActsOnItsContextOnly
  obtain ⟨-, -, hu, -⟩ := hframe i s u hu
  obtain ⟨-, -, hv, -⟩ := hframe i s.cleaned v hv
  have hcontrol (o : Option Ctx) : o.map Ctx.control = (o.map Ctx.cleaned).map Ctx.control := by
    rw [Option.map_map]
    rfl
  apply List.ext_getElem?
  intro d
  rw [List.getElem?_map, List.getElem?_map]
  by_cases hd : i.ctx? = some d
  · exact hnamed d hd
  · rw [hcontrol, hu d hd, hcontrol (v.ctxs[d]?), hv d hd, State.cleaned_getElem?, ← hcontrol, ← hcontrol, ← hcontrol]

/-- Settles O49: the named context by `exec_sameControlAt`, the others because a command leaves them all but their taint. -/
theorem breachLeavesControlSpecified : Obligations.BreachLeavesControlSpecified := by
  intro s i
  obtain ⟨u, v, hu, hv, herr, hnamed⟩ : ∃ u v, exec i s = .next u ∧ exec i s.cleaned = .next v ∧
      u.rsp.map (·.err) = v.rsp.map (·.err) ∧
      ∀ c, i.ctx? = some c → (u.ctxs[c]?).map Ctx.control = (v.ctxs[c]?).map Ctx.control := by
    cases hc : i.ctx? with
    | none =>
      obtain rfl := ctx?_eq_none_iff.mp hc
      exact ⟨_, _, rfl, rfl, rfl, fun _ hd => nomatch hd⟩
    | some c =>
      obtain ⟨u, v, hu, hv, herr, hcontrol⟩ := exec_sameControlAt s hc
      exact ⟨u, v, hu, hv, herr, fun d hd => Option.some.inj hd ▸ hcontrol⟩
  refine ⟨u, v, hu, hv, herr, fun hread => ?_, exec_control_cleaned hu hv hnamed, fun d x hd hx => ?_⟩
  · rcases hread with ⟨c, rfl⟩ | ⟨c, n, rfl⟩
    · cases hu
      cases hv
      exact s.accept_respondOk_rsp_cleaned c fun _ => rfl
    · cases hu
      cases hv
      exact s.accept_respondOk_rsp_cleaned c fun _ => rfl
  · obtain ⟨-, hframe⟩ := commandActsOnItsContextOnly
    obtain ⟨-, -, hothers, -⟩ := hframe i s u hu
    have hcleaned := hothers d hd
    rw [hx] at hcleaned
    obtain ⟨y, hy, hxy⟩ := Option.map_eq_some_iff.mp hcleaned
    exact ⟨y, hy, Ctx.eq_of_cleaned hxy⟩

/-! ### How many compressions a command runs (R146) -/

@[simp] theorem View.compress_work (v : View) : v.compress.work = v.work + 1 := rfl

/-- A byte runs a compression when it fills the block of an open engine (R82). -/
theorem View.pushByte_work {v : View} (hf : v.ctx.fin = false) (b : Byte) :
    (v.pushByte b).work = v.work + if v.ctx.off = 63 then 1 else 0 := by
  unfold View.pushByte
  rw [if_neg (by simp [hf])]
  dsimp only
  split
  · rw [View.compress_work, View.blkByteWrite_work]
  · exact View.blkByteWrite_work _ _ _

/-- After a reset a byte sequence runs one compression per whole block (R82). -/
theorem View.engineReset_pushBytes_work (v : View) (bs : List Byte) (hlen : bs.length < 2 ^ 32) :
    (v.engineReset.pushBytes bs).work = v.work + bs.length / 64 := by
  induction bs using List.reverseRecOn with
  | nil => exact v.engineReset_work
  | append_singleton bs b ih =>
    rw [List.length_append, List.length_singleton] at hlen ⊢
    obtain ⟨h, e⟩ := v.engineReset_pushBytes_ctx bs (by omega)
    have hfull : BitVec.ofNat 6 bs.length = 63 ↔ bs.length % 64 = 63 := by
      rw [← BitVec.toNat_inj, BitVec.toNat_ofNat]
      rfl
    rw [View.pushBytes_concat, View.pushByte_work (by rw [e]), ih (by omega), e]
    dsimp only
    simp only [hfull]
    split <;> omega

@[simp] theorem View.padMarker_work (v : View) : v.padMarker.work = v.work := by simp [View.padMarker]

@[simp] theorem View.padLength_work (v : View) : v.padLength.work = v.work + 1 := by simp [View.padLength]

/-- The padding runs one compression, or two when the length field does not fit behind the marker (R84). -/
theorem View.baseFinalize_work {v : View} (hf : v.ctx.fin = false) :
    v.baseFinalize.work = v.work + if 56 ≤ v.ctx.off.toNat then 2 else 1 := by
  unfold View.baseFinalize
  rw [if_neg (by simp [hf])]
  dsimp only
  split
  · rw [View.padLength_work, View.blkZero_work, View.compress_work, View.padMarker_work]
    rfl
  · rw [View.padLength_work, View.padMarker_work]
    rfl

/-- The outer pass runs two: the outer pad, then the inner digest with its padding (R103). -/
theorem View.outerFed_baseFinalize_work (v : View) : v.outerFed.baseFinalize.work = v.work + 2 := by
  obtain ⟨h, e⟩ := v.outerFed_ctx
  have hlen := v.ctx.length_opad_digestBytes
  have hdlen := v.ctx.dlen_le
  have hroom : ¬ 56 ≤ v.outerFed.ctx.off.toNat := by
    rw [e]
    dsimp only
    cases v.ctx.t <;> decide
  have hfed : v.outerFed.work = v.work + (64 + v.ctx.dlen) / 64 := by
    have hpush := v.dropLatch.engineReset_pushBytes_work (v.ctx.opad.toList ++ v.ctx.digestBytes) (by omega)
    rw [hlen] at hpush
    exact hpush
  rw [View.baseFinalize_work (by rw [e]), if_neg hroom, hfed]
  omega

/-- `Finalize` of an open engine runs the padding, and two more for an outer pass (R86). -/
theorem View.finalize_work {v : View} (hf : v.ctx.fin = false) :
    v.finalize.work =
      v.work + ((if v.ctx.m && v.ctx.latch then 2 else 0) + if 56 ≤ v.ctx.off.toNat then 2 else 1) := by
  have hbase := View.baseFinalize_work hf
  cases howes : v.ctx.m && v.ctx.latch with
  | false => simp [View.finalize_eq_baseFinalize howes, hbase]
  | true =>
    rw [View.finalize_eq_outerPass howes, View.outerFed_baseFinalize_work, hbase, if_pos rfl]
    omega

/-- `KEYEND` runs one compression for the inner pad, and the padding's for a key of more than 64 bytes (R102). -/
theorem View.keyEnd_work {v : View} (hf : v.ctx.fin = false) :
    v.keyEnd.work = v.work + if v.ctx.klen.toNat ≤ 64 then 1 else if 56 ≤ v.ctx.off.toNat then 3 else 2 := by
  have hfed : v.keyEnd.work = v.shortenKey.work + 1 := by
    have hpush := v.shortenKey.engineReset_pushBytes_work v.shortenKey.ctx.ipad.toList (by simp)
    rw [Vector.length_toList] at hpush
    rw [View.keyEnd_eq]
    exact hpush
  rw [hfed]
  rcases Nat.lt_or_ge 64 v.ctx.klen.toNat with hlong | hshort
  · rw [View.shortenKey, if_pos hlong, if_neg hlong.not_ge]
    dsimp only
    rw [View.baseFinalize_work hf]
    split <;> rfl
  · rw [View.shortenKey_short hshort, if_pos hshort]

section work
variable {s : State} {c : Nat} {x : Ctx} (hx : s.ctxs[c]? = some x)
include hx

theorem State.workOn_ok {ok : Ctx → Bool} (hk : ok x = true) (f : View → View) : s.workOn c ok f = (f (s.view x)).work := by
  simp only [State.workOn, hx, hk, if_true]

/-- A procedure that runs no compression runs none whether it is admitted or refused. -/
theorem State.workOn_eq_zero (ok : Ctx → Bool) {f : View → View} (hf : (f (s.view x)).work = 0) : s.workOn c ok f = 0 := by
  simp only [State.workOn, hx, hf, ite_self]

/-- A procedure that changes nothing runs no compression. -/
theorem State.workOn_unchanged (ok : Ctx → Bool) {f : View → View} (hf : f (s.view x) = s.view x) : s.workOn c ok f = 0 :=
  State.workOn_eq_zero hx ok (by rw [hf, State.view_work])

/-- `Finalize` of an open context that is past its key phase: an HMAC engine owes its outer pass (R34 (iv)). -/
theorem State.workOn_finalize (hok : x.Ok) (hf : x.fin = false) (hk : x.kph = false) {ok : Ctx → Bool} (htakes : ok x = true) :
    s.workOn c ok View.finalize = (if x.m then 2 else 0) + if 56 ≤ x.off.toNat then 2 else 1 := by
  obtain ⟨-, -, -, hmessage, -⟩ := hok
  have howes : (x.m && x.latch) = x.m := by
    cases hm : x.m with
    | false => rfl
    | true => exact hmessage hm hk hf
  rw [State.workOn_ok hx htakes, View.finalize_work (v := s.view x) hf, State.view_work, State.view_ctx, howes, Nat.zero_add]

end work

/-- Settles O9: the counts of the procedures, in a view that has run none yet. -/
theorem compressionsPerCommand : Obligations.CompressionsPerCommand := by
  intro s c x b j n t sh hs hx
  obtain ⟨-, hall, -⟩ := hs
  have hok := hall x (List.mem_of_getElem? hx)
  have hkey (hk : x.kph = true) : x.fin = false ∧ x.takesKey = true := by
    obtain ⟨hphase, -⟩ := hok
    obtain ⟨hm, hf, -⟩ := hphase hk
    exact ⟨hf, x.takesKey_iff.mpr ⟨hm, hk⟩⟩
  refine ⟨⟨rfl, ?_, ?_, ?_, ?_⟩, fun hf => ?_, fun hf hk => ?_, fun hk => ?_, fun hf hk => ?_, fun hf hk hj => ?_,
    fun hf hk hj => ?_, fun hk => ?_⟩
  · exact State.workOn_unchanged hx _ rfl
  · exact State.workOn_unchanged hx _ rfl
  · rw [compressionsRun]
    exact State.workOn_eq_zero hx _ (View.engineReset_work _)
  · rw [compressionsRun]
    exact State.workOn_eq_zero hx _ (View.engineReset_work _)
  · have hsealed := hok.isSealed hf
    have hfinal := View.finalize_again (v := s.view x) hsealed.fin hsealed.paid
    refine ⟨?_, State.workOn_unchanged hx _ hfinal, State.workOn_unchanged hx _ hfinal, State.workOn_unchanged hx _ hfinal⟩
    rw [compressionsRun]
    exact State.workOn_unchanged hx _ (View.pushByte_sealed (v := s.view x) hf b)
  · rw [compressionsRun, State.workOn_ok hx (x.takesData_iff.mpr hk), View.pushByte_work (v := s.view x) hf]
    exact Nat.zero_add _
  · obtain ⟨hf, htakes⟩ := hkey hk
    have hpadded := (s.view x).padded_ctx b
    rw [compressionsRun, State.workOn_ok hx htakes, View.keyByte_eq, View.pushByte_work (by rw [hpadded]; exact hf), hpadded]
    exact Nat.zero_add _
  · exact State.workOn_finalize hx hok hf hk (x.takesData_iff.mpr hk)
  · exact State.workOn_finalize hx hok hf hk (x.takesByteRead_iff j |>.mpr ⟨hk, hj⟩)
  · exact State.workOn_finalize hx hok hf hk (x.takesWordRead_iff j |>.mpr ⟨hk, hj⟩)
  · obtain ⟨hf, htakes⟩ := hkey hk
    rw [compressionsRun, State.workOn_ok hx htakes, View.keyEnd_work (v := s.view x) hf]
    exact Nat.zero_add _

end Sys2Proof.Machine
end

section
/-! ## Decoder and encoder (spec/30_encoding.md sections 1, 3 and 6)

Each operand is a number read from the argument byte, so the operand of an argument byte, and the argument byte of an operand,
are one equation between numbers per format; both directions of the round trip use it. -/

namespace Sys2Proof.Machine

/-! ### The operands as numbers of the argument byte (R52 to R55) -/

theorem argField_toNat (w : Cmd) : (argField w).toNat = w.toNat % 256 := BitVec.extractLsb'_toNat ..

theorem byteIdxField_eq (w : Cmd) : byteIdxField w = (argField w).toNat % 32 := by
  rw [argField_toNat, Nat.mod_mod_of_dvd _ (by decide), byteIdxField, BitVec.extractLsb'_toNat, Nat.shiftRight_zero]

theorem wordIdxField_eq (w : Cmd) : wordIdxField w = (argField w).toNat % 8 := by
  rw [argField_toNat, Nat.mod_mod_of_dvd _ (by decide), wordIdxField, BitVec.extractLsb'_toNat, Nat.shiftRight_zero]

theorem lowFlag_toNat (w : Cmd) : (lowFlag w).toNat = (argField w).toNat % 2 := by
  rw [argField_toNat, Nat.mod_mod_of_dvd _ (by decide), lowFlag, BitVec.getLsbD, Nat.toNat_testBit, Nat.pow_zero, Nat.div_one]

theorem sharedFlag_toNat (w : Cmd) : (sharedFlag w).toNat = (argField w).toNat / 2 % 2 := by
  rw [argField_toNat, sharedFlag, BitVec.getLsbD, Nat.toNat_testBit]
  omega

theorem toNat_zero_append_ofBool (n : Bool) : (0#7 ++ BitVec.ofBool n).toNat = n.toNat := by cases n <;> rfl

theorem flag_eq_of_toNat_eq : ∀ {a b : Bool}, a.toNat = b.toNat → a = b := by decide

theorem ctxField_lt (w : Cmd) : ctxField w < 16 := (w.extractLsb' 8 4).isLt

/-! ### Decoding an encoded command -/

/-- Three fields decode to the operands of their opcode, when the argument byte keeps to the bits the opcode's row leaves free
(R59). -/
theorem decode_fields {op : BitVec 4} {k c : Nat} {a : Byte} {i : Instr} (hrow : (op, k) ∈ freeArgBits) (ha : a.toNat < 2 ^ k)
    (hi : operandsOf op.toNat (fields op c a) = some i) : decode (fields op c a) = .ok i := by
  obtain ⟨j, hj⟩ := (decode_ok_iff_fields (fields op c a)).mpr
    (.inr ⟨(op, k), hrow, fields_op op c a, by rwa [fields_arg]⟩)
  obtain ⟨-, -, hoperands, -⟩ := row_of_decode hj
  rw [fields_op, hi] at hoperands
  rw [hj, Option.some.inj hoperands]

section operands
variable (op : BitVec 4) (c : Nat)

/-- Format C (R54). -/
theorem lowFlag_fields_flagsArg (t sh : Bool) : lowFlag (fields op c (flagsArg t sh)) = t := by
  have ht := t.toNat_lt
  apply flag_eq_of_toNat_eq
  rw [lowFlag_toNat, fields_arg, toNat_flagsArg]
  omega

theorem sharedFlag_fields_flagsArg (t sh : Bool) : sharedFlag (fields op c (flagsArg t sh)) = sh := by
  have ht := t.toNat_lt
  have hs := sh.toNat_lt
  apply flag_eq_of_toNat_eq
  rw [sharedFlag_toNat, fields_arg, toNat_flagsArg]
  omega

/-- Format I5 (R55). -/
theorem byteIdxField_fields {i : Nat} (hi : i < 32) : byteIdxField (fields op c (0#3 ++ BitVec.ofNat 5 i)) = i := by
  rw [byteIdxField_eq, fields_arg, toNat_zero_append_ofNat hi, Nat.mod_eq_of_lt hi]

/-- Format I3 (R55). -/
theorem wordIdxField_fields {j : Nat} (hj : j < 8) : wordIdxField (fields op c (0#5 ++ BitVec.ofNat 3 j)) = j := by
  rw [wordIdxField_eq, fields_arg, toNat_zero_append_ofNat hj, Nat.mod_eq_of_lt hj]

/-- Format I1 (R55). -/
theorem lowFlag_fields_ofBool (n : Bool) : lowFlag (fields op c (0#7 ++ BitVec.ofBool n)) = n := by
  apply flag_eq_of_toNat_eq
  rw [lowFlag_toNat, fields_arg, toNat_zero_append_ofBool, Nat.mod_eq_of_lt n.toNat_lt]

end operands

theorem toNat_flagsArg_lt (t sh : Bool) : (flagsArg t sh).toNat < 2 ^ 2 := by
  have ht := t.toNat_lt
  have hs := sh.toNat_lt
  rw [toNat_flagsArg]
  omega

/-- Settles O13: the argument byte of each command keeps to the bits its row leaves free, and its operands are read back. -/
theorem decodeOfEncode : Obligations.DecodeOfEncode := by
  intro i hwf
  have hctx : ∀ c, i.ctx? = some c → ∀ op a, ctxField (fields op c a) = c := fun c hc op a =>
    fields_ctx op c a (ctx_lt_of_wf hwf hc)
  cases i with
  | nop => rfl
  | init c t sh =>
    refine decode_fields (k := 2) (by decide) (toNat_flagsArg_lt t sh) ?_
    simp [operandsOf, hctx c rfl, lowFlag_fields_flagsArg, sharedFlag_fields_flagsArg]
  | hinit c t sh =>
    refine decode_fields (k := 2) (by decide) (toNat_flagsArg_lt t sh) ?_
    simp [operandsOf, hctx c rfl, lowFlag_fields_flagsArg, sharedFlag_fields_flagsArg]
  | keyb c b => exact decode_fields (k := 8) (by decide) b.isLt (by simp [operandsOf, hctx c rfl, fields_arg])
  | keyend c => exact decode_fields (k := 0) (by decide) (by decide) (by simp [operandsOf, hctx c rfl])
  | pushb c b => exact decode_fields (k := 8) (by decide) b.isLt (by simp [operandsOf, hctx c rfl, fields_arg])
  | final c => exact decode_fields (k := 0) (by decide) (by decide) (by simp [operandsOf, hctx c rfl])
  | rdb c i =>
    have hi : i < 32 := of_decide_eq_true (Bool.and_eq_true_iff.mp hwf).2
    refine decode_fields (k := 5) (by decide) ((toNat_zero_append_ofNat hi).trans_lt hi) ?_
    simp [operandsOf, hctx c rfl, byteIdxField_fields _ _ hi]
  | rdw c j =>
    have hj : j < 8 := of_decide_eq_true (Bool.and_eq_true_iff.mp hwf).2
    refine decode_fields (k := 3) (by decide) ((toNat_zero_append_ofNat hj).trans_lt hj) ?_
    simp [operandsOf, hctx c rfl, wordIdxField_fields _ _ hj]
  | rdst c => exact decode_fields (k := 0) (by decide) (by decide) (by simp [operandsOf, hctx c rfl])
  | rdcnt c n =>
    refine decode_fields (k := 1) (by decide) ((toNat_zero_append_ofBool n).trans_lt n.toNat_lt) ?_
    simp [operandsOf, hctx c rfl, lowFlag_fields_ofBool]

/-! ### Encoding a decoded command -/

/-- A word is the encoding of its own fields (R51). -/
theorem fields_ctxField_argField {w : Cmd} {op : BitVec 4} (hop : opField w = op.toNat) :
    fields op (ctxField w) (argField w) = w := by
  have h : w.extractLsb' 12 4 = op := BitVec.eq_of_toNat_eq hop
  conv_rhs => rw [← append_fields w, h]
  rw [fields, ctxField, BitVec.ofNat_toNat, BitVec.setWidth_eq]

section operands
variable {w : Cmd}

theorem zero_eq_argField (h : (argField w).toNat < 1) : 0#8 = argField w :=
  BitVec.eq_of_toNat_eq (Nat.lt_one_iff.mp h).symm

/-- Format C (R54). -/
theorem flagsArg_eq_argField (h : (argField w).toNat < 4) : flagsArg (lowFlag w) (sharedFlag w) = argField w := by
  apply BitVec.eq_of_toNat_eq
  rw [toNat_flagsArg, lowFlag_toNat, sharedFlag_toNat]
  omega

/-- Format I5 (R55). -/
theorem zero_append_byteIdxField (h : (argField w).toNat < 32) :
    0#3 ++ BitVec.ofNat 5 (byteIdxField w) = argField w := by
  rw [byteIdxField_eq, Nat.mod_eq_of_lt h]
  exact BitVec.eq_of_toNat_eq (toNat_zero_append_ofNat h)

/-- Format I3 (R55). -/
theorem zero_append_wordIdxField (h : (argField w).toNat < 8) :
    0#5 ++ BitVec.ofNat 3 (wordIdxField w) = argField w := by
  rw [wordIdxField_eq, Nat.mod_eq_of_lt h]
  exact BitVec.eq_of_toNat_eq (toNat_zero_append_ofNat h)

/-- Format I1 (R55). -/
theorem zero_append_lowFlag (h : (argField w).toNat < 2) : 0#7 ++ BitVec.ofBool (lowFlag w) = argField w := by
  apply BitVec.eq_of_toNat_eq
  rw [toNat_zero_append_ofBool, lowFlag_toNat, Nat.mod_eq_of_lt h]

end operands

/-- Settles O14: by the row of the accepted word's opcode, the argument byte made of the operands is the word's own. -/
theorem encodeOfDecode : Obligations.EncodeOfDecode := by
  intro w i hd
  obtain ⟨-, -, hi, -⟩ := row_of_decode hd
  rcases (decode_ok_iff_fields w).mp ⟨i, hd⟩ with rfl | ⟨p, hp, hop, harg⟩
  · cases hi
    exact ⟨rfl, rfl⟩
  have hctx : ctxFits (ctxField w) = true := decide_eq_true (ctxField_lt w)
  have hw {a : Byte} (ha : a = argField w) : fields p.1 (ctxField w) a = w := by
    rw [ha, fields_ctxField_argField hop]
  rw [hop] at hi
  simp only [freeArgBits, List.mem_cons, List.not_mem_nil, or_false] at hp
  rcases hp with rfl | rfl | rfl | rfl | rfl | rfl | rfl | rfl | rfl | rfl <;> cases hi
  -- the commands in the order of `freeArgBits`: `INIT`, `HINIT`, `KEYB`, `KEYEND`, `PUSHB`, `FINAL`, `RDB`, `RDW`, `RDST`, `RDCNT`
  · exact ⟨hctx, hw (flagsArg_eq_argField harg)⟩
  · exact ⟨hctx, hw (flagsArg_eq_argField harg)⟩
  · exact ⟨hctx, hw rfl⟩
  · exact ⟨hctx, hw (zero_eq_argField harg)⟩
  · exact ⟨hctx, hw rfl⟩
  · exact ⟨hctx, hw (zero_eq_argField harg)⟩
  · exact ⟨Bool.and_eq_true_iff.mpr ⟨hctx, decide_eq_true (BitVec.isLt _)⟩, hw (zero_append_byteIdxField harg)⟩
  · exact ⟨Bool.and_eq_true_iff.mpr ⟨hctx, decide_eq_true (BitVec.isLt _)⟩, hw (zero_append_wordIdxField harg)⟩
  · exact ⟨hctx, hw (zero_eq_argField harg)⟩
  · exact ⟨hctx, hw (zero_append_lowFlag harg)⟩

/-- Settles O12: fixed words, so the decoder is evaluated on each. -/
theorem exampleWordsDecode : Obligations.ExampleWordsDecode := by
  unfold Obligations.ExampleWordsDecode
  decide

/-! ### A command word and the `rst` input (R59, R135) -/

/-- Settles O2: the word is taken from the inputs and its command executed. -/
theorem stepRunsDecodedCommand : Obligations.StepRunsDecodedCommand := fun _ _ _ _ hs hd => step_command hs hd

/-- Settles O11: of the four things a step can be, only the reset finds `rst` at the inputs. -/
theorem rstInputResetsEverything : Obligations.RstInputResetsEverything := by
  intro s rest hs
  rcases step_cases s with ⟨hidle, -⟩ | ⟨_, -, hstep⟩ | ⟨_, _, _, hcmd, -⟩ | ⟨_, _, _, hcmd, -⟩
  · cases hs.symm.trans hidle
  · exact ⟨_, hstep, rfl, congrArg List.tail hs, rfl, rfl⟩
  · cases hs.symm.trans hcmd
  · cases hs.symm.trans hcmd

/-! ### The invariant after reset (R34, R35) -/

/-- After reset every context is `Ctx.reset`, which meets R34 and is not on the shared block. -/
theorem State.resetOf_ok {n : Nat} (h1 : 1 ≤ n) (h16 : n ≤ 16) : (State.resetOf n).Ok := by
  refine ⟨by simpa [State.resetOf_length] using ⟨h1, h16⟩, fun x hx => ?_, fun _ x hx hlive => ?_⟩
  · rw [List.eq_of_mem_replicate hx]; exact Ctx.reset_ok
  · rw [List.eq_of_mem_replicate hx] at hlive; cases hlive

/-- Settles O7: the number of contexts is all that is left to ask for. -/
theorem resetMeetsStateInvariant : Obligations.ResetMeetsStateInvariant :=
  ⟨fun _ => State.resetOf_ok, State.resetOf_ok (by decide) (by decide)⟩

end Sys2Proof.Machine
end
